-- ==== Sys2Proof/Word.lean ====
section
/-! DEFINITION. The widths the spec gives: bytes of the wire, Samples, ring pointers, timestamps (00_scope.md R6). -/

namespace Sys2Proof

/-- One byte of the wire or of `BUF` (20_memory.md R49, R50). -/
abbrev Byte := BitVec 8

/-- A Sample word, `SAMPLE_W` = 16 bits (00_scope.md R6, 30_encoding.md R68). -/
abbrev Sample := BitVec 16

/-- The delay field of a Sample, `DELTA_W` = 15 bits (00_scope.md R6). -/
abbrev Delay := BitVec 15

/-- A ring pointer or its shadow, `PTR_W` = 10 bits: arithmetic is modulo `C` = 1024 (00_scope.md R6, R7). -/
abbrev Ptr := BitVec 10

/-- A timestamp, `TS_W` = 32 bits (00_scope.md R6). -/
abbrev Stamp := BitVec 32

end Sys2Proof
end

