-- ==== Sys2Proof/Config.lean ====
section
/-! DEFINITION. What is fixed when the block is built (00_scope.md R6, R7), the events at the block's ports, and
the free values: constants without a body, so that nothing can be proved of the value they have. -/

namespace Sys2Proof

/-- A step of agent S and the amount by which it moves its shadow (42_ring_buffer.md R112; log 13). -/
inductive SyncStep
  | head (i : Ptr)
  | drop (i : Ptr)
  | ts (i : Stamp)
  | rd (i : Ptr)
  deriving DecidableEq, Repr, Inhabited

/-- What the environment can do next: an event at a port of 10_state.md R41 to R43, a step of S, or the moment of
a step of Q (R14, R45). -/
inductive PortEvent
  /-- `rst` = 1 (R44). -/
  | rst
  /-- `us_tick` = 1 (R41). -/
  | usTick
  /-- A `clk_cap` cycle with this level on `sig_in` (R41). -/
  | sigIn (level : Bool)
  /-- `rx_valid` = 1 with this byte on `rx_data` (R43). -/
  | rxData (b : Byte)
  /-- X delivers these bytes, one after another, with no other agent's step between them (log 3). -/
  | burst (b : Byte) (rest : List Byte)
  /-- Agent Q takes a step (R14). -/
  | polling
  /-- Agent S takes a step (R112). -/
  | sync (x : SyncStep)
  deriving DecidableEq, Repr, Inhabited

/-- The seventeen parameters of 00_scope.md R6 in one record. The widths `TS_W`, `SAMPLE_W`, `DELTA_W` and `PTR_W` are
those of the types of Word.lean. -/
structure Parameters where
  tsW : Nat
  sampleW : Nat
  deltaW : Nat
  deltaMax : Nat
  c : Nat
  ptrW : Nat
  usable : Nat
  batchMax : Nat
  inactUs : Nat
  pollMaxUs : Nat
  decBuf : Nat
  startMarker : List Byte
  endMarker : List Byte
  typeHdr : Byte
  typeSmp : Byte
  version : Byte
  syncStages : Nat
  deriving DecidableEq, Repr

/-- The constraints between parameters that the rules rely on (00_scope.md R7). -/
abbrev Parameters.Consistent (p : Parameters) : Prop :=
  p.c = 2 ^ p.ptrW ∧ p.usable = p.c - 1 ∧ 6 + 2 * p.batchMax ≤ p.decBuf ∧ p.batchMax ≤ 255 ∧
    p.batchMax < p.usable ∧ p.inactUs < 2 ^ p.tsW ∧ p.deltaMax = 2 ^ p.deltaW - 1 ∧ p.sampleW = p.deltaW + 1

namespace Config

/-- `DELTA_MAX`: the saturation value of the delay field (00_scope.md R6). -/
def deltaMax : Nat := 32767

/-- `C`: the number of slots of `RING` (00_scope.md R6). -/
def ringSlots : Nat := 1024

/-- `BATCH_MAX`: the most Samples in one SampleBlock, the number of elements of `BLK` (00_scope.md R6). -/
def batchMax : Nat := 255

/-- `INACT_US`: the inactivity window in microseconds (00_scope.md R6). -/
def inactUs : Nat := 5000000

/-- `POLL_MAX_US`: the polling period in microseconds; timing only (00_scope.md R6, 70_reset_and_hazards.md R205). -/
def pollMaxUs : Nat := 100000

/-- `DEC_BUF`: the size of `BUF` in bytes (00_scope.md R6). -/
def decBuf : Nat := 600

/-- `START`, the bytes `00 00` (00_scope.md R6, 20_memory.md R51). -/
def startMarker : List Byte := [0x00, 0x00]

/-- `END`, the bytes `00 80` (00_scope.md R6, 20_memory.md R51). -/
def endMarker : List Byte := [0x00, 0x80]

/-- `TYPE_HDR` (00_scope.md R6). -/
def typeHdr : Byte := 0x00

/-- `TYPE_SMP` (00_scope.md R6). -/
def typeSmp : Byte := 0x01

/-- `VERSION`: the VERSION byte the framer sends (00_scope.md R6). -/
def version : Byte := 0x01

/-- `SYNC_STAGES`: not observable in the model (00_scope.md R6, 92_eei_decisions.md D7). -/
def syncStages : Nat := 2

/-- The record of all parameters, as this hardware is built (00_scope.md R6). -/
def built : Parameters where
  tsW := 32
  sampleW := 16
  deltaW := 15
  deltaMax := deltaMax
  c := ringSlots
  ptrW := 10
  usable := 1023
  batchMax := batchMax
  inactUs := inactUs
  pollMaxUs := pollMaxUs
  decBuf := decBuf
  startMarker := startMarker
  endMarker := endMarker
  typeHdr := typeHdr
  typeSmp := typeSmp
  version := version
  syncStages := syncStages

/-- FREE VALUE. `draw_16`: the `n`-th unconstrained 16-bit value (00_scope.md R9, 42_ring_buffer.md R111; log 7). -/
opaque draw16 : Nat → Sample

/-- FREE VALUE. What the environment does at its `n`-th free choice (10_state.md R14, R45; log 1). -/
opaque environment : Nat → PortEvent

/-- FREE VALUE. The unspecified content of an element of `BLK` that nothing has written (10_state.md R44; log 9). -/
opaque unwrittenBlk : Nat → Sample

/-- FREE VALUE. The unspecified content of an element of `BUF` that nothing has written (10_state.md R44; log 9). -/
opaque unwrittenBuf : Nat → Byte

end Config

end Sys2Proof
end

