-- ==== Sys2Proof/Syntax.lean ====
section
/-! DEFINITION. The operations of the block: one constructor for each row of spec/opcode_table.json
(30_encoding.md R81). -/

namespace Sys2Proof

/-- The 30 operations and formats of 30_encoding.md R81. Where the spec says 'instruction' it means an
operation: one atomic step of one agent (00_scope.md R1). -/
inductive Instr
  /-- `HDR`: a HeaderBlock with this VERSION byte arrives at H (R73; log 3). -/
  | hdr (version : Byte)
  /-- `SMP`: a SampleBlock with these Samples arrives at H (R74; log 3). -/
  | smp (samples : List Sample)
  /-- `EOS`: an EndOfStream sentinel arrives at H (R75; log 3). -/
  | eos
  /-- `SAMPLE.R`: the two bytes of a rising Sample arrive at H (R68, R70, R98; log 4). -/
  | sampleR (delay : Delay)
  /-- `SAMPLE.F`: the two bytes of a falling Sample arrive at H (R68, R70, R98; log 4). -/
  | sampleF (delay : Delay)
  /-- `TICK`: one microsecond passes (R88). -/
  | tick
  /-- `SENSE(level)`: P senses the input (R90). -/
  | sense (level : Bool)
  /-- `EDGE.R`: `SENSE(1)` with `sig_q` = 0 (R79, R90). -/
  | edgeR
  /-- `EDGE.F`: `SENSE(0)` with `sig_q` = 1 (R79, R90). -/
  | edgeF
  /-- `ENC(dir, t)`: encode an edge and push its Sample (R95). -/
  | enc (dir : Bool) (t : Stamp)
  /-- `PUSH(s)`: the ring's write operation, drop-oldest (R105). -/
  | push (s : Sample)
  /-- `TAKE`: the ring's read operation (R110, R111). -/
  | take
  /-- `SYNC.HEAD`: `head_r` moves `i` along the path to `head` (R112, R113; log 13). -/
  | syncHead (i : Ptr)
  /-- `SYNC.DROP`: `drop_r` moves `i` along the path to `drop` (R112, R114; log 13). -/
  | syncDrop (i : Ptr)
  /-- `SYNC.TS`: `ts_r` moves `i` along the path to `ts` (R112, R115; log 13). -/
  | syncTs (i : Stamp)
  /-- `SYNC.RD`: `rd_w` moves `i` along the path to `rd` (R112, R116; log 13). -/
  | syncRd (i : Ptr)
  /-- `Q.FLUSH`: a full batch is sent (R127). -/
  | qFlush
  /-- `Q.START`: a session opens (R125). -/
  | qStart
  /-- `Q.POP`: one Sample goes from the ring to the batch (R126). -/
  | qPop
  /-- `Q.TIMEOUT`: the session closes (R128). -/
  | qTimeout
  /-- `Q.IDLE`: nothing to do (R130). -/
  | qIdle
  /-- `RX(b)`: H receives one byte (R152). -/
  | rx (b : Byte)
  /-- `RX.APPEND`: the byte goes into `BUF` (R141). -/
  | rxAppend (b : Byte)
  /-- `RX.EOS`: the byte goes through the sentinel window; on a match the session ends (R142, R143). -/
  | rxEos (b : Byte)
  /-- `RX.SLIDE`: leading bytes that cannot begin a `START` are discarded (R144). -/
  | rxSlide
  /-- `RX.HDR`: the candidate is accepted as a HeaderBlock (R147). -/
  | rxHdr
  /-- `RX.SMP`: the candidate is accepted as a SampleBlock (R148). -/
  | rxSmp
  /-- `RX.WAIT`: the candidate is an incomplete SampleBlock (R149). -/
  | rxWait
  /-- `RX.FAIL`: the candidate fails; one byte is discarded (R150, R151). -/
  | rxFail
  /-- `RESET`: every agent is reset (R181). -/
  | reset
  deriving DecidableEq, Repr

end Sys2Proof
end

