-- ==== Sys2Proof/Decode.lean ====
section
/-! DEFINITION. The decoder, total and rejecting by name, and after it the encoder (30_encoding.md R67 to R81).
The block decodes Sample words, wire units and the pair {`sig_q`, `sig_in`} (30_encoding.md, opening); the other
operations have no bits and are selected by a port, a guard or another operation (R80; log 16). -/

namespace Sys2Proof

/-! ## Sample words -/

/-- `sample = (dir << 15) | delay` (30_encoding.md R69, 41_edge_encoder.md R95). -/
def packSample (dir : Bool) (delay : Delay) : Sample :=
  ((BitVec.ofBool dir).setWidth 16 <<< 15) ||| delay.setWidth 16

/-- `dir = sample[15]` (30_encoding.md R69). -/
def sampleDir (s : Sample) : Bool := s.getLsbD 15

/-- `delay = sample[14:0]` (30_encoding.md R69). -/
def sampleDelay (s : Sample) : Delay := s.setWidth 15

/-- A Sample on the wire: `s[7:0]` then `s[15:8]` (20_memory.md R50, 30_encoding.md R70). -/
def sampleBytes (s : Sample) : List Byte := [s.setWidth 8, (s >>> 8).setWidth 8]

/-- The decoder rebuilds `s = b0 | (b1 << 8)` (20_memory.md R50). -/
def joinBytes (b0 b1 : Byte) : Sample := b0.setWidth 16 ||| (b1.setWidth 16 <<< 8)

/-! ## Serialisation (43_session_framer.md R131) -/

/-- `HDR(v) = 00 00 00 v 00 80`. -/
def hdrBytes (v : Byte) : List Byte := Config.startMarker ++ [Config.typeHdr, v] ++ Config.endMarker

/-- `SMP[n](s0..s(n-1)) = 00 00 01 n s0[7:0] s0[15:8] ... 00 80`. -/
def smpBytes (samples : List Sample) : List Byte :=
  Config.startMarker ++ [Config.typeSmp, BitVec.ofNat 8 samples.length] ++ samples.flatMap sampleBytes ++
    Config.endMarker

/-- `EOS = 00 80 00 80`. -/
def eosBytes : List Byte := Config.endMarker ++ Config.endMarker

/-! ## What selects an operation -/

/-- An operation that only another operation invokes, with the operands it is given (30_encoding.md R80). -/
inductive Invocation
  | enc (dir : Bool) (t : Stamp)
  | push (s : Sample)
  | take
  | rxAppend (b : Byte)
  | rxEos (b : Byte)
  deriving DecidableEq, Repr

/-- The `encoding` field of a row of spec/opcode_table.json: bits where the spec gives bits, otherwise the
condition that selects the operation (30_encoding.md R79, R80; log 16). -/
inductive Code
  /-- The bytes of one unit, first on the wire first (R67). -/
  | wire (bytes : List Byte)
  /-- The pair {`sig_q`, `sig_in`} of a `SENSE` step (R79). -/
  | pins (sigQ sigIn : Bool)
  /-- `us_tick` = 1. -/
  | usTick
  /-- `rst` = 1. -/
  | rst
  /-- `rx_valid` = 1 with `b` on `rx_data`. -/
  | rxData (b : Byte)
  /-- A step of a synchroniser. -/
  | sync (x : SyncStep)
  /-- What the guards of Q test: `sess = Active`, `cnt = 255`, `nonempty_r`, `expired` (43_session_framer.md R123). -/
  | guards (active full nonempty expired : Bool)
  /-- What selects a part of `RX` after the sentinel test: `started` and `BUF[0 .. len-1]` (44_decoder_resync.md R144 to R151). -/
  | candidate (started : Bool) (buf : List Byte)
  /-- Invoked by another operation. -/
  | call (x : Invocation)
  deriving DecidableEq, Repr

/-- Why bytes are no unit, or a buffer selects no part of `RX`. -/
inductive DecodeError
  /-- No unit has this many bytes (R67). -/
  | noUnitOfThisLength
  /-- Four bytes that are not `00 80 00 80` (R75). -/
  | notTheSentinel
  /-- The first two bytes are not `START` (R72). -/
  | badStart
  /-- The last two bytes are not `END` (R72). -/
  | badEnd
  /-- TYPE `02` to `FF` (R82). -/
  | reservedType
  /-- COUNT = 0 (R83). -/
  | countZero
  /-- The length is not `6 + 2 * COUNT` (R76). -/
  | lengthIsNotCounts
  /-- `len` < 2, or a candidate with `len` < 6: no part of `RX` applies yet (44_decoder_resync.md R144, R145). -/
  | noPartApplies
  deriving DecidableEq, Repr

/-- The part of `RX` that the front of `BUF` selects (44_decoder_resync.md R144 to R151). -/
inductive Part
  /-- `len` ≥ 2 and `BUF` does not begin with `START`: slide. -/
  | slide
  /-- Too few bytes to look at. -/
  | short
  | hdr
  | smp
  | wait
  | fail
  deriving DecidableEq, Repr

/-- `BUF[i]` of a list of the valid bytes; every use is at an index below the length (20_memory.md R49). -/
def byteAt (buf : List Byte) (i : Nat) : Byte := buf.getD i 0

/-- `BUF[i] == 0x00 and BUF[i+1] == 0x80`: `END` at offset `i`. -/
def endAt (buf : List Byte) (i : Nat) : Bool := [byteAt buf i, byteAt buf (i + 1)] == Config.endMarker

/-- `BUF[0] == 0x00 and BUF[1] == 0x00`: a candidate. -/
def beginsStart (buf : List Byte) : Bool := [byteAt buf 0, byteAt buf 1] == Config.startMarker

/-- `L = 6 + 2 * COUNT` with COUNT the byte at offset 3 (30_encoding.md R76). -/
def unitLength (buf : List Byte) : Nat := 6 + 2 * (byteAt buf 3).toNat

/-- Which part of `RX` applies: slide while `BUF` does not begin with `START` (R144), look only at `len` ≥ 6 (R145),
then exactly one of `RX.HDR` (R147), `RX.SMP` (R148), `RX.WAIT` (R149), `RX.FAIL` (R150), in the order of R152. -/
def classify (started : Bool) (buf : List Byte) : Part :=
  if 2 ≤ buf.length ∧ beginsStart buf = false then .slide
  else if buf.length < 6 then .short
  else if byteAt buf 2 = Config.typeHdr ∧ started = false ∧ endAt buf 4 = true then .hdr
  else if byteAt buf 2 = Config.typeSmp ∧ started = true ∧ byteAt buf 3 ≠ 0 then
    if buf.length < unitLength buf then .wait
    else if endAt buf (unitLength buf - 2) = true then .smp
    else .fail
  else .fail

/-- `for i = 0 .. n-1: BUF[4+2i] | (BUF[5+2i] << 8)` from the payload on (44_decoder_resync.md R148). -/
def payloadSamples : Nat → List Byte → List Sample
  | n + 1, b0 :: b1 :: rest => joinBytes b0 b1 :: payloadSamples n rest
  | _, _ => []

/-! ## The decoder -/

/-- A Sample word to its row (30_encoding.md R68, 41_edge_encoder.md R98). -/
def decodeSample (w : Sample) : Instr :=
  if sampleDir w then .sampleR (sampleDelay w) else .sampleF (sampleDelay w)

/-- The bytes of one unit, told apart by length and then by START, TYPE, COUNT and END (30_encoding.md R67, R72 to R76). -/
def decodeWire : List Byte → Except DecodeError Instr
  | [lo, hi] => .ok (decodeSample (joinBytes lo hi))
  | [b0, b1, b2, b3] => if [b0, b1, b2, b3] = eosBytes then .ok .eos else .error .notTheSentinel
  | b0 :: b1 :: type :: par :: rest =>
    if [b0, b1] ≠ Config.startMarker then .error .badStart
    else if type = Config.typeHdr then
      if rest.length ≠ 2 then .error .noUnitOfThisLength
      else if rest = Config.endMarker then .ok (.hdr par)
      else .error .badEnd
    else if type = Config.typeSmp then
      if par = 0 then .error .countZero
      else if rest.length ≠ 2 * par.toNat + 2 then .error .lengthIsNotCounts
      else if rest.drop (2 * par.toNat) = Config.endMarker then .ok (.smp (payloadSamples par.toNat rest))
      else .error .badEnd
    else .error .reservedType
  | _ => .error .noUnitOfThisLength

/-- The table of 30_encoding.md R79. -/
def decodePins (sigQ sigIn : Bool) : Instr :=
  match sigQ, sigIn with
  | false, false => .sense false
  | false, true => .edgeR
  | true, false => .edgeF
  | true, true => .sense true

/-- The first operation of the priority list of 43_session_framer.md R123 whose guard holds. -/
def decodeGuards (active full nonempty expired : Bool) : Instr :=
  if active && full then .qFlush
  else if !active && nonempty then .qStart
  else if active && nonempty then .qPop
  else if active && !nonempty && expired then .qTimeout
  else .qIdle

/-- The `SYNC.*` row of a synchroniser step (42_ring_buffer.md R113 to R116). -/
def decodeSync : SyncStep → Instr
  | .head i => .syncHead i
  | .drop i => .syncDrop i
  | .ts i => .syncTs i
  | .rd i => .syncRd i

/-- The row of an operation that another operation invokes. -/
def decodeCall : Invocation → Instr
  | .enc dir t => .enc dir t
  | .push s => .push s
  | .take => .take
  | .rxAppend b => .rxAppend b
  | .rxEos b => .rxEos b

/-- The part of `RX` that `started` and `BUF` select. -/
def decodeCandidate (started : Bool) (buf : List Byte) : Except DecodeError Instr :=
  match classify started buf with
  | .slide => .ok .rxSlide
  | .short => .error .noPartApplies
  | .hdr => .ok .rxHdr
  | .smp => .ok .rxSmp
  | .wait => .ok .rxWait
  | .fail => .ok .rxFail

/-- The operation that a code selects. -/
def decode : Code → Except DecodeError Instr
  | .wire bytes => decodeWire bytes
  | .pins sigQ sigIn => .ok (decodePins sigQ sigIn)
  | .usTick => .ok .tick
  | .rst => .ok .reset
  | .rxData b => .ok (.rx b)
  | .sync x => .ok (decodeSync x)
  | .guards active full nonempty expired => .ok (decodeGuards active full nonempty expired)
  | .candidate started buf => decodeCandidate started buf
  | .call x => .ok (decodeCall x)

/-! ## The encoder -/

/-- What selects an operation, from the `encoding` fields of spec/opcode_table.json. A row of agent Q or a part of
`RX` without operands has many selecting states; one of them stands here. -/
def encode : Instr → Code
  | .hdr version => .wire (hdrBytes version)
  | .smp samples => .wire (smpBytes samples)
  | .eos => .wire eosBytes
  | .sampleR delay => .wire (sampleBytes (packSample true delay))
  | .sampleF delay => .wire (sampleBytes (packSample false delay))
  | .tick => .usTick
  | .sense level => .pins level level
  | .edgeR => .pins false true
  | .edgeF => .pins true false
  | .enc dir t => .call (.enc dir t)
  | .push s => .call (.push s)
  | .take => .call .take
  | .syncHead i => .sync (.head i)
  | .syncDrop i => .sync (.drop i)
  | .syncTs i => .sync (.ts i)
  | .syncRd i => .sync (.rd i)
  | .qFlush => .guards true true false false
  | .qStart => .guards false false true false
  | .qPop => .guards true false true false
  | .qTimeout => .guards true false false true
  | .qIdle => .guards false false false false
  | .rx b => .rxData b
  | .rxAppend b => .call (.rxAppend b)
  | .rxEos b => .call (.rxEos b)
  | .rxSlide => .candidate false [0x01, 0x00]
  | .rxHdr => .candidate false [0x00, 0x00, 0x00, 0x01, 0x00, 0x80]
  | .rxSmp => .candidate true [0x00, 0x00, 0x01, 0x01, 0x64, 0x80, 0x00, 0x80]
  | .rxWait => .candidate true [0x00, 0x00, 0x01, 0x01, 0x64, 0x80]
  | .rxFail => .candidate true [0x00, 0x00, 0x02, 0x01, 0x00, 0x80]
  | .reset => .rst

/-! ## Words as spec/opcode_table.json numbers them (log 16) -/

/-- The lowest `n` bytes of a number, the most significant first: the table's numbers are units 'in wire order'. -/
def wireOrder : Nat → Nat → List Byte
  | 0, _ => []
  | n + 1, w => BitVec.ofNat 8 (w / 2 ^ (8 * n)) :: wireOrder n w

/-- Zero bytes up to the length that TYPE and COUNT give the unit (30_encoding.md R76). -/
def padUnit (bytes : List Byte) : List Byte :=
  if beginsStart bytes && byteAt bytes 2 == Config.typeHdr && decide (4 ≤ bytes.length) then
    bytes ++ List.replicate (6 - bytes.length) 0
  else if beginsStart bytes && byteAt bytes 2 == Config.typeSmp && decide (4 ≤ bytes.length) then
    bytes ++ List.replicate (unitLength bytes - bytes.length) 0
  else bytes

/-- A table word of `nbits` bits: 8 bits are the pair {`sig_q`, `sig_in`} in bits 1 and 0 (R79), 16 bits are a Sample
word, sent low byte first (R70), and any other number of bits is a wire unit, first byte most significant (R73 to R75). -/
def tableCode (nbits w : Nat) : Code :=
  if nbits = 8 then
    if w < 4 then .pins (w.testBit 1) (w.testBit 0) else .wire (wireOrder 1 w)
  else if nbits = 16 then .wire (sampleBytes (BitVec.ofNat 16 w))
  else .wire (padUnit (wireOrder (nbits / 8) w))

/-- The instruction the decoder reads from a table word. -/
def decodeTableWord (nbits w : Nat) : Option Instr :=
  match decode (tableCode nbits w) with
  | .ok i => some i
  | .error _ => none

end Sys2Proof
end

