-- ==== Sys2Proof/Machine/State.lean ====
section
/-! DEFINITION. The state of the block as plain data (10_state.md R13 to R45), the events (60_exceptions.md R162),
the reasons a step can stop, and the state after reset (10_state.md R44, 70_reset_and_hazards.md R181). -/

namespace Sys2Proof.Machine

/-- `sess`: the RecordingSession state (10_state.md R28). -/
inductive Session
  | idle
  | active
  deriving DecidableEq, Repr

/-- The records of `pev`, the event trace of P (60_exceptions.md R162). -/
inductive PEvent
  /-- `EV_SATURATED`, code 1, with the unsaturated delta (R164). -/
  | saturated (delta : Stamp)
  /-- `EV_OVERFLOW`, code 2 (R165). -/
  | overflow
  deriving DecidableEq, Repr

/-- The records of `hev`, the event trace of H (60_exceptions.md R162). -/
inductive HEvent
  /-- `HDR(version)`, a normal report. -/
  | hdr (version : Byte)
  /-- `SMP(count)`, a normal report. -/
  | smp (count : Byte)
  /-- `EOS(residue_len)`, a normal report. -/
  | eos (residue : Nat)
  /-- `EV_SLIDE`, code 3, with the discarded byte (R166). -/
  | slide (b : Byte)
  /-- `EV_DESYNC`, code 4, with `BUF[0 .. 3]` of the failed candidate (R166). -/
  | desync (b0 b1 b2 b3 : Byte)
  /-- `EV_BUF_RESET`, code 5 (R168). -/
  | bufReset
  deriving DecidableEq, Repr

/-- `win`: the trailing window, `w0` oldest to `w3` newest (10_state.md R34). -/
structure Window where
  w0 : Byte
  w1 : Byte
  w2 : Byte
  w3 : Byte
  deriving DecidableEq, Repr

/-- Everything the spec gives the block, and the model's own fields at the end. An array is a list of (index, element)
pairs, indices strictly rising; an index not listed holds an unspecified value. -/
structure State where
  /-- P: the microsecond counter (R18). -/
  ts : Stamp
  /-- P: the level at the previous `SENSE` (R19). -/
  sigQ : Bool
  /-- P: the timestamp of the previous edge (R20). -/
  prevTs : Stamp
  /-- P: the next write slot (R21). -/
  head : Ptr
  /-- P: the number of drop-oldest events, modulo `C` (R22). -/
  drop : Ptr
  /-- S, in P's domain: the shadow of `rd` (R23). -/
  rdW : Ptr
  /-- Q: the number of Samples taken, modulo `C` (R24). -/
  rd : Ptr
  /-- S, in Q's domain: the shadow of `head` (R25). -/
  headR : Ptr
  /-- S, in Q's domain: the shadow of `drop` (R26). -/
  dropR : Ptr
  /-- S, in Q's domain: the shadow of `ts` (R27). -/
  tsR : Stamp
  /-- Q: the session state (R28). -/
  sess : Session
  /-- Q: the number of Samples in the batch (R29). -/
  cnt : BitVec 8
  /-- Q: `ts_r` at the last `Q.START` or `Q.POP` (R30). -/
  lastAct : Stamp
  /-- Q: the bytes sent so far (R31). -/
  tx : List Byte
  /-- H: the number of bytes held in `BUF` (R32). -/
  len : BitVec 10
  /-- H: the source's `recording_started` (R33). -/
  started : Bool
  /-- H: the trailing window (R34). -/
  win : Window
  /-- H: the number of valid bytes of the window (R34). -/
  winN : BitVec 3
  /-- `RING`, written by P, read by Q (20_memory.md R47). -/
  ring : List (Nat × Sample)
  /-- `BLK`, the batch of Q (20_memory.md R48). -/
  blk : List (Nat × Sample)
  /-- `BUF`, the accumulation buffer of H (20_memory.md R49). -/
  buf : List Host.Cell
  /-- H: the raw sink (R35). -/
  raw : List Byte
  /-- H: the decoded Samples (R35). -/
  smp : List Sample
  /-- H: the event trace (R35). -/
  hev : List HEvent
  /-- P: the event trace (R35). -/
  pev : List PEvent
  /-- MODEL'S OWN: the Sample the last `TAKE` returned (42_ring_buffer.md R110; log 11). -/
  taken : Sample
  /-- MODEL'S OWN: how many `draw_16` values have been used (log 7). -/
  draws : Nat
  /-- MODEL'S OWN: port events already fixed, the next first (log 1). -/
  inputs : List PortEvent
  /-- MODEL'S OWN: how many events `Config.environment` has supplied (log 1). -/
  envN : Nat
  deriving DecidableEq, Repr

/-- Why a step stops with a fault. The spec gives the block no fault (60_exceptions.md R161). -/
inductive Fault
  /-- Raised by the operations of H and the wire units in a state whose `len` is over `DEC_BUF` = 600: they would name
  an element of `BUF` that does not exist (20_memory.md R46, R49). No run reaches such a state. Safe (log 12). -/
  | bufIndexOutOfRange
  deriving DecidableEq, Repr

/-- Why an operation has no step. -/
inductive Refusal
  /-- Raised by `exec` for an operation that has no meaning yet. Safe. -/
  | notModelled (mnemonic : String)
  /-- Raised by `exec` for `EDGE.R`, `EDGE.F`, `TAKE`, `Q.FLUSH`, `Q.START`, `Q.POP`, `Q.TIMEOUT`, `Q.IDLE`, `RX.HDR`,
  `RX.SMP`, `RX.WAIT` and `RX.FAIL` in a state where the operation's guard does not hold: it is 'not enabled', and the
  spec has no such step (42_ring_buffer.md R110, 43_session_framer.md R123). `step` never selects one. Safe (log 6). -/
  | notEnabled
  deriving DecidableEq, Repr

/-- The machine right after reset (10_state.md R44); `win` and the model's own fields at the values of logs 10, 11, 7, 1. -/
def State.reset : State where
  ts := 0
  sigQ := false
  prevTs := 0
  head := 0
  drop := 0
  rdW := 0
  rd := 0
  headR := 0
  dropR := 0
  tsR := 0
  sess := .idle
  cnt := 0
  lastAct := 0
  tx := []
  len := 0
  started := false
  win := ⟨0, 0, 0, 0⟩
  winN := 0
  ring := []
  blk := []
  buf := []
  raw := []
  smp := []
  hev := []
  pev := []
  taken := 0
  draws := 0
  inputs := []
  envN := 0

end Sys2Proof.Machine
end

