-- ==== Sys2Proof/Machine/Flags.lean ====
section
/-! DEFINITION. The computed predicates of 10_state.md R36 and the quantities they are made of (42_ring_buffer.md R103,
R108, R109; 43_session_framer.md R123, R129). Pointer arithmetic is modulo `C` by its width. -/

namespace Sys2Proof.Machine

/-- True tail: `tail = (rd + drop) mod C` (R103). -/
def trueTail (s : State) : Ptr := s.rd + s.drop

/-- Occupancy: `occ = (head - tail) mod C` (R103). -/
def occ (s : State) : Ptr := s.head - trueTail s

/-- `slot` lies in the occupied region: `(slot - tail) mod C < occ` (R103, R111). -/
def occupied (s : State) (slot : Ptr) : Bool := decide (slot - trueTail s < occ s)

/-- The producer's view of the tail: `tail_w = (rd_w + drop) mod C` (R108). -/
def tailW (s : State) : Ptr := s.rdW + s.drop

/-- `full_w`: the next push overflows (R108). -/
def fullW (s : State) : Bool := s.head + 1 == tailW s

/-- The consumer's view of the tail: `tail_r = (rd + drop_r) mod C` (R109). -/
def tailR (s : State) : Ptr := s.rd + s.dropR

/-- `nonempty_r`: a Sample can be taken (R109). -/
def nonemptyR (s : State) : Bool := tailR s != s.headR

/-- `(ts_r - last_act) mod 2^32` (43_session_framer.md R129). -/
def elapsed (s : State) : Stamp := s.tsR - s.lastAct

/-- `expired`: the inactivity window has passed; the comparison is strict (43_session_framer.md R129). -/
def expired (s : State) : Bool := decide (Config.inactUs < (elapsed s).toNat)

/-- `sess = Active`. -/
def isActive (s : State) : Bool := s.sess == .active

/-- `cnt = 255`: the batch is full (43_session_framer.md R123). -/
def batchFull (s : State) : Bool := s.cnt == 255

/-- The code of the event classes of 60_exceptions.md R162 that P raises. -/
def PEvent.code : PEvent → Nat
  | .saturated _ => 1
  | .overflow => 2

/-- The code of the event classes of 60_exceptions.md R162 that H raises; the normal reports have none. -/
def HEvent.code : HEvent → Option Nat
  | .hdr _ => none
  | .smp _ => none
  | .eos _ => none
  | .slide _ => some 3
  | .desync _ _ _ _ => some 4
  | .bufReset => some 5

/-- The code of a transport failure, which the block never raises (60_exceptions.md R162, R169). -/
def transportFailureCode : Nat := 6

end Sys2Proof.Machine
end

