-- ==== Sys2Proof/Machine/Operands.lean ====
section
/-! DEFINITION. The operand computations: the delta of an edge (41_edge_encoder.md R95 to R98), the path of a shadow
(42_ring_buffer.md R112) and the gray code of a crossing register (R118). Sample packing and byte order are in
Decode.lean. -/

namespace Sys2Proof.Machine

/-- `delta32`, with KC87's wraparound compensation as R95 writes it. -/
def delta32 (prev t : Stamp) : Stamp :=
  if prev ≤ t then t - prev else (0xFFFFFFFF - prev) + t + 1

/-- `delta32 > 32767`: the delta does not fit (R95, R97). -/
def saturates (delta : Stamp) : Bool := decide (Config.deltaMax < delta.toNat)

/-- `delay = min(delta32, 32767)` (R97). -/
def delayOf (delta : Stamp) : Delay := BitVec.ofNat 15 (min delta.toNat Config.deltaMax)

/-- `(sh + i) mod 2^W` for `i` up to `(src - sh) mod 2^W`; a larger `i` makes the shadow current (R112; log 13). -/
def syncPath {w : Nat} (src sh i : BitVec w) : BitVec w :=
  if i ≤ src - sh then sh + i else src

/-- `gray(b) = b xor (b >> 1)` (R118). A wire, read by no rule of the model. -/
def gray {w : Nat} (b : BitVec w) : BitVec w := b ^^^ (b >>> 1)

/-- Bit `i` of `bin(g)`: the exclusive or of the bits of `g` from `i` up (R118, its recursion unrolled over `n` bits). -/
def grayPrefix {w : Nat} (g : BitVec w) (i : Nat) : Nat → Bool
  | 0 => false
  | n + 1 => g.getLsbD i ^^ grayPrefix g (i + 1) n

/-- The inverse `bin(g)`: `bin[W-1] = g[W-1]`, `bin[i] = bin[i+1] xor g[i]` (R118). -/
def ungray {w : Nat} (g : BitVec w) : BitVec w :=
  BitVec.ofFnLE fun i : Fin w => grayPrefix g i.val (w - i.val)

end Sys2Proof.Machine
end

