-- ==== Sys2Proof/Machine/Ops.lean ====
section
/-! DEFINITION. The named operations over the arrays, the traces, the ring and the decoder's buffer that the meanings are
made of. The block has no exception entry and no return (60_exceptions.md R161, R173): the one shared operation in their
place is `raise`, which appends to a trace and transfers no control (R163). -/

namespace Sys2Proof.Machine

/-! ## Outcomes -/

/-- An operation that is enabled only when its guard holds (log 6). -/
def whenEnabled (guard : Bool) (t : State) : Host.Outcome State Fault Refusal :=
  if guard then .next t else .refused .notEnabled

/-! ## Arrays (20_memory.md R46): `MemRead` and `MemWrite` on a list of (index, element) pairs -/

/-- The canonical form: indices strictly rising and below the array's size. -/
abbrev CellsWf {α : Type} (size : Nat) (cells : List (Nat × α)) : Prop :=
  (cells.map Prod.fst).Pairwise (· < ·) ∧ ∀ p ∈ cells, p.1 < size

/-- `MemRead(A:i)`; none where element `i` holds an unspecified value. -/
def readCell {α : Type} : List (Nat × α) → Nat → Option α
  | [], _ => none
  | (k, v) :: rest, i => if k = i then some v else readCell rest i

/-- `MemWrite(A:i, v)`, keeping the indices rising. -/
def writeCell {α : Type} : List (Nat × α) → Nat → α → List (Nat × α)
  | [], i, v => [(i, v)]
  | (k, w) :: rest, i, v =>
    if i < k then (i, v) :: (k, w) :: rest
    else if i = k then (i, v) :: rest
    else (k, w) :: writeCell rest i v

/-- The array whose elements from index `i` on are these, and no other element is specified. -/
def cellsFrom {α : Type} (i : Nat) : List α → List (Nat × α)
  | [] => []
  | v :: vs => (i, v) :: cellsFrom (i + 1) vs

/-- The three arrays are in canonical form (20_memory.md R47 to R49). -/
abbrev Memory.wf (s : State) : Prop :=
  CellsWf Config.ringSlots s.ring ∧ CellsWf Config.batchMax s.blk ∧ CellsWf Config.decBuf s.buf

/-! ## `raise` (60_exceptions.md R163) -/

/-- What a conditional `raise` appends to a trace: the one record, or nothing. -/
def raised {α : Type} (cond : Bool) (e : α) : List α := if cond then [e] else []

/-! ## The ring and the encoder -/

/-- `PUSH(s)`: when the producer's view is full, `drop` advances and `EV_OVERFLOW` is raised; the element is written at the
old `head`, and `head` advances in every case (42_ring_buffer.md R105). -/
def pushSample (v : Sample) (s : State) : State :=
  { s with
    drop := if fullW s then s.drop + 1 else s.drop
    pev := s.pev ++ raised (fullW s) .overflow
    ring := writeCell s.ring s.head.toNat v
    head := s.head + 1 }

/-- `ENC(dir, t)`: `EV_SATURATED` if the delta does not fit, `prev_ts <- t`, then `PUSH` of the Sample
(41_edge_encoder.md R95). -/
def encodeEdge (dir : Bool) (t : Stamp) (s : State) : State :=
  pushSample (packSample dir (delayOf (delta32 s.prevTs t)))
    { s with
      prevTs := t
      pev := s.pev ++ raised (saturates (delta32 s.prevTs t)) (.saturated (delta32 s.prevTs t)) }

/-- `SENSE(level)`: an edge is encoded with the time of this step, then `sig_q <- level` (40_timestamp_edge.md R90). -/
def senseLevel (level : Bool) (s : State) : State :=
  if level != s.sigQ then { encodeEdge level s.ts s with sigQ := level } else { s with sigQ := level }

/-- The Sample that a read of `slot` is promised: the one last pushed into an occupied slot (42_ring_buffer.md R111).
None outside the occupied region, and where no push since reset wrote the slot (70_reset_and_hazards.md R193; log 8). -/
def promisedSample (s : State) (slot : Ptr) : Option Sample :=
  if occupied s slot then readCell s.ring slot.toNat else none

/-- `TAKE`: the Sample goes to `taken`, and `rd` advances in every case; a value that is not promised is the next free
value `draw_16` (42_ring_buffer.md R110, R111). -/
def takeSample (s : State) : State :=
  { s with
    rd := s.rd + 1
    taken := (promisedSample s (tailR s)).getD (Config.draw16 s.draws)
    draws := if (promisedSample s (tailR s)).isSome then s.draws else s.draws + 1 }

/-! ## The batch -/

/-- `BLK[i]`; an element nothing has written is a free value (log 9). -/
def blkAt (s : State) (i : Nat) : Sample := (readCell s.blk i).getD (Config.unwrittenBlk i)

/-- `BLK[0], ..., BLK[cnt-1]` (43_session_framer.md R127, R128). -/
def batch (s : State) : List Sample := (List.range s.cnt.toNat).map (blkAt s)

/-! ## The decoder's registers and buffer, seen as one record (44_decoder_resync.md R140) -/

/-- What agent H reads and writes, with `BUF[0 .. len-1]` as the list `buf`. -/
structure Decoder where
  buf : List Byte
  started : Bool
  win : Window
  winN : BitVec 3
  raw : List Byte
  smp : List Sample
  hev : List HEvent
  deriving DecidableEq, Repr

/-- `BUF[i]`; an element nothing has written is a free value (log 9). -/
def bufAt (s : State) (i : Nat) : Byte := (readCell s.buf i).getD (Config.unwrittenBuf i)

/-- The state of H. -/
def decoderOf (s : State) : Decoder where
  buf := (List.range s.len.toNat).map (bufAt s)
  started := s.started
  win := s.win
  winN := s.winN
  raw := s.raw
  smp := s.smp
  hev := s.hev

/-- The state with H's part replaced: `BUF[0 .. len-1]` and `len` are written. Elements at or beyond `len` are never read
(20_memory.md R49) and become unspecified (log 9). -/
def withDecoder (s : State) (d : Decoder) : State :=
  { s with
    buf := cellsFrom 0 d.buf, len := BitVec.ofNat 10 d.buf.length, started := d.started, win := d.win,
    winN := d.winN, raw := d.raw, smp := d.smp, hev := d.hev }

/-- An operation of H. In a state whose `len` is over `DEC_BUF` it would name an element of `BUF` that does not exist
(20_memory.md R46, R49; log 12). -/
def onDecoder (s : State) (f : Decoder → Decoder) : Host.Outcome State Fault Refusal :=
  if s.len.toNat ≤ Config.decBuf then .next (withDecoder s (f (decoderOf s))) else .fault .bufIndexOutOfRange

/-- A part of `RX` that is enabled only when the front of `BUF` selects it (44_decoder_resync.md R145). -/
def onCandidate (s : State) (p : Part) (f : Decoder → Decoder) : Host.Outcome State Fault Refusal :=
  if s.len.toNat ≤ Config.decBuf then
    whenEnabled (classify s.started (decoderOf s).buf == p) (withDecoder s (f (decoderOf s)))
  else .fault .bufIndexOutOfRange

/-! ## The parts of RX -/

/-- `raise` in a step of H: the record is appended to `hev`, and nothing else changes (60_exceptions.md R163). -/
def raiseH (e : HEvent) (d : Decoder) : Decoder := { d with hev := d.hev ++ [e] }

/-- `consume(n)`, and with `n` = 1 `slide1`: the `n` leading bytes leave `BUF` (44_decoder_resync.md R140). -/
def consume (n : Nat) (d : Decoder) : Decoder := { d with buf := d.buf.drop n }

/-- `RX.APPEND` (R141): a full buffer is emptied first. -/
def appendByte (b : Byte) (d : Decoder) : Decoder :=
  let d1 := if d.buf.length = Config.decBuf then raiseH .bufReset { d with buf := [] } else d
  { d1 with buf := d1.buf ++ [b] }

/-- The shift of `win` and the count `win_n` (R142). -/
def shiftWindow (b : Byte) (d : Decoder) : Decoder :=
  { d with win := ⟨d.win.w1, d.win.w2, d.win.w3, b⟩, winN := BitVec.ofNat 3 (min (d.winN.toNat + 1) 4) }

/-- `eos`: the window is full and holds `00 80 00 80` (R142). -/
def sentinelSeen (d : Decoder) : Bool := d.winN == 4 && [d.win.w0, d.win.w1, d.win.w2, d.win.w3] == eosBytes

/-- The residue goes to `raw` and the session ends (R143). -/
def endSession (d : Decoder) : Decoder :=
  { raiseH (.eos d.buf.length) { d with raw := d.raw ++ d.buf } with buf := [], started := false, winN := 0 }

/-- `RX.EOS`: shift, test, and end the session on a match (R142, R143). -/
def sentinelPart (b : Byte) (d : Decoder) : Decoder :=
  let d1 := shiftWindow b d
  if sentinelSeen d1 then endSession d1 else d1

/-- The bytes that `RX.SLIDE` discards (R144). -/
def slidBytes : List Byte → List Byte
  | b0 :: b1 :: rest => if [b0, b1] = Config.startMarker then [] else b0 :: slidBytes (b1 :: rest)
  | _ => []

/-- `RX.SLIDE`: while `len >= 2` and `BUF` does not begin `00 00`, raise `EV_SLIDE(BUF[0])` and discard it (R144). -/
def slidePart (d : Decoder) : Decoder :=
  let gone := slidBytes d.buf
  { d with buf := d.buf.drop gone.length, hev := d.hev ++ gone.map .slide }

/-- `RX.HDR`: report VERSION, six bytes to `raw`, `started`, consume (R147). -/
def acceptHeader (d : Decoder) : Decoder :=
  consume 6 { raiseH (.hdr (byteAt d.buf 3)) d with raw := d.raw ++ d.buf.take 6, started := true }

/-- `RX.SMP`: the block to `raw`, its Samples to `smp`, report COUNT, consume (R148). -/
def acceptSamples (d : Decoder) : Decoder :=
  consume (unitLength d.buf)
    (raiseH (.smp (byteAt d.buf 3))
      { d with
        raw := d.raw ++ d.buf.take (unitLength d.buf),
        smp := d.smp ++ payloadSamples (byteAt d.buf 3).toNat (d.buf.drop 4) })

/-- `RX.FAIL`: `EV_DESYNC(BUF[0 .. 3])`, one byte discarded (R150). -/
def failCandidate (d : Decoder) : Decoder :=
  consume 1 (raiseH (.desync (byteAt d.buf 0) (byteAt d.buf 1) (byteAt d.buf 2) (byteAt d.buf 3)) d)

/-- The loop of R146: slide, then accept or fail and go round again, or stop. Every turn that goes round removes a byte,
so a number of turns above the number of bytes is never used up. -/
def resyncLoop : Nat → Decoder → Decoder
  | 0, d => d
  | turns + 1, d =>
    let d1 := slidePart d
    match classify d1.started d1.buf with
    | .slide => d1
    | .short => d1
    | .wait => d1
    | .hdr => resyncLoop turns (acceptHeader d1)
    | .smp => resyncLoop turns (acceptSamples d1)
    | .fail => resyncLoop turns (failCandidate d1)

/-- `RX(b)`: append, sentinel, then the loop (R152). -/
def receiveByte (b : Byte) (d : Decoder) : Decoder :=
  let d1 := shiftWindow b (appendByte b d)
  if sentinelSeen d1 then endSession d1 else resyncLoop (d1.buf.length + 1) d1

/-- One `RX` for each byte, in order (30_encoding.md R86; log 3). -/
def receiveBytes : List Byte → Decoder → Decoder
  | [], d => d
  | b :: bs, d => receiveBytes bs (receiveByte b d)

end Sys2Proof.Machine
end

