-- ==== Sys2Proof/Machine/Capture.lean ====
section
/-! DEFINITION. The meanings of agent P's timestamp, detector and encoder: `TICK`, `SENSE`, `EDGE.R`, `EDGE.F`, `ENC`
(40_timestamp_edge.md, 41_edge_encoder.md). -/

namespace Sys2Proof.Machine

/-- `TICK`: `ts <- (ts + 1) mod 2^32` (R88). -/
def execTick (s : State) : Host.Outcome State Fault Refusal := .next { s with ts := s.ts + 1 }

/-- `SENSE(level)`, whatever `sig_q` is (R90). -/
def execSense (level : Bool) (s : State) : Host.Outcome State Fault Refusal := .next (senseLevel level s)

/-- `EDGE.R`: `SENSE(1)`, selected by `sig_q` = 0 (R79, R90). -/
def execEdgeR (s : State) : Host.Outcome State Fault Refusal := whenEnabled (!s.sigQ) (senseLevel true s)

/-- `EDGE.F`: `SENSE(0)`, selected by `sig_q` = 1 (R79, R90). -/
def execEdgeF (s : State) : Host.Outcome State Fault Refusal := whenEnabled s.sigQ (senseLevel false s)

/-- `ENC(dir, t)` (R95). -/
def execEnc (dir : Bool) (t : Stamp) (s : State) : Host.Outcome State Fault Refusal := .next (encodeEdge dir t s)

end Sys2Proof.Machine
end

