-- ==== Sys2Proof/Machine/Framer.lean ====
section
/-! DEFINITION. The meanings of agent Q's operations, each under its own guard (43_session_framer.md R123 to R130). -/

namespace Sys2Proof.Machine

/-- `Q.FLUSH`: `SMP[255]` to `tx`, `cnt <- 0` (R127). -/
def execQFlush (s : State) : Host.Outcome State Fault Refusal :=
  whenEnabled (isActive s && batchFull s) { s with tx := s.tx ++ smpBytes (batch s), cnt := 0 }

/-- `Q.START`: `HDR(01)` to `tx`, the session opens and the inactivity window starts (R125). -/
def execQStart (s : State) : Host.Outcome State Fault Refusal :=
  whenEnabled (!isActive s && nonemptyR s)
    { s with tx := s.tx ++ hdrBytes Config.version, cnt := 0, lastAct := s.tsR, sess := .active }

/-- `Q.POP`: `BLK[cnt] <- TAKE`, `cnt + 1`, the inactivity window restarts (R126). -/
def execQPop (s : State) : Host.Outcome State Fault Refusal :=
  whenEnabled (isActive s && nonemptyR s && !batchFull s)
    (let s1 := takeSample s
     { s1 with blk := writeCell s1.blk s1.cnt.toNat s1.taken, cnt := s1.cnt + 1, lastAct := s1.tsR })

/-- `Q.TIMEOUT`: a partial batch if there is one, then `EOS`; the session closes and the ring is not touched (R128). -/
def execQTimeout (s : State) : Host.Outcome State Fault Refusal :=
  whenEnabled (isActive s && !nonemptyR s && expired s && !batchFull s)
    { s with
      tx := s.tx ++ (if s.cnt = 0 then [] else smpBytes (batch s)) ++ eosBytes, cnt := 0, sess := .idle }

/-- `Q.IDLE`: none of the other guards holds; changes nothing (R130). -/
def execQIdle (s : State) : Host.Outcome State Fault Refusal :=
  whenEnabled (decodeGuards (isActive s) (batchFull s) (nonemptyR s) (expired s) == .qIdle) s

end Sys2Proof.Machine
end

