-- ==== Sys2Proof/Machine/HostDecoder.lean ====
section
/-! DEFINITION. The meanings of agent H's operation `RX` and its parts (44_decoder_resync.md), and of the wire units and
Sample words, which arrive at H byte by byte (30_encoding.md R67 to R75; logs 3 and 4). -/

namespace Sys2Proof.Machine

/-- `HDR`: the six bytes of R73 arrive. -/
def execHdr (version : Byte) (s : State) : Host.Outcome State Fault Refusal :=
  onDecoder s (receiveBytes (hdrBytes version))

/-- `SMP`: the `6 + 2n` bytes of R74 arrive. -/
def execSmp (samples : List Sample) (s : State) : Host.Outcome State Fault Refusal :=
  onDecoder s (receiveBytes (smpBytes samples))

/-- `EOS`: the four bytes of R75 arrive. -/
def execEos (s : State) : Host.Outcome State Fault Refusal := onDecoder s (receiveBytes eosBytes)

/-- `SAMPLE.R`: the word `0x8000 | delay` arrives, low byte first (R70, R98). -/
def execSampleR (delay : Delay) (s : State) : Host.Outcome State Fault Refusal :=
  onDecoder s (receiveBytes (sampleBytes (packSample true delay)))

/-- `SAMPLE.F`: the word `delay` arrives, low byte first (R70, R98). -/
def execSampleF (delay : Delay) (s : State) : Host.Outcome State Fault Refusal :=
  onDecoder s (receiveBytes (sampleBytes (packSample false delay)))

/-- `RX(b)` (R152). -/
def execRx (b : Byte) (s : State) : Host.Outcome State Fault Refusal := onDecoder s (receiveByte b)

/-- `RX.APPEND` (R141). -/
def execRxAppend (b : Byte) (s : State) : Host.Outcome State Fault Refusal := onDecoder s (appendByte b)

/-- `RX.EOS` (R142, R143). -/
def execRxEos (b : Byte) (s : State) : Host.Outcome State Fault Refusal := onDecoder s (sentinelPart b)

/-- `RX.SLIDE`, as many turns as its condition holds, possibly none (R144). -/
def execRxSlide (s : State) : Host.Outcome State Fault Refusal := onDecoder s slidePart

/-- `RX.HDR` (R147). -/
def execRxHdr (s : State) : Host.Outcome State Fault Refusal := onCandidate s .hdr acceptHeader

/-- `RX.SMP` (R148). -/
def execRxSmp (s : State) : Host.Outcome State Fault Refusal := onCandidate s .smp acceptSamples

/-- `RX.WAIT`: 'Action: none' (R149). -/
def execRxWait (s : State) : Host.Outcome State Fault Refusal :=
  if s.len.toNat ≤ Config.decBuf then whenEnabled (classify s.started (decoderOf s).buf == .wait) s
  else .fault .bufIndexOutOfRange

/-- `RX.FAIL` (R150, R151). -/
def execRxFail (s : State) : Host.Outcome State Fault Refusal := onCandidate s .fail failCandidate

end Sys2Proof.Machine
end

