-- ==== Sys2Proof/Machine/Ring.lean ====
section
/-! DEFINITION. The meanings of the ring's operations and of agent S: `PUSH`, `TAKE`, `SYNC.HEAD`, `SYNC.DROP`, `SYNC.TS`,
`SYNC.RD` (42_ring_buffer.md). -/

namespace Sys2Proof.Machine

/-- `PUSH(s)` (R105). -/
def execPush (v : Sample) (s : State) : Host.Outcome State Fault Refusal := .next (pushSample v s)

/-- `TAKE`, enabled only when `nonempty_r` (R110, R111). -/
def execTake (s : State) : Host.Outcome State Fault Refusal := whenEnabled (nonemptyR s) (takeSample s)

/-- `SYNC.HEAD`: source `head`, shadow `head_r` (R113). -/
def execSyncHead (i : Ptr) (s : State) : Host.Outcome State Fault Refusal :=
  .next { s with headR := syncPath s.head s.headR i }

/-- `SYNC.DROP`: source `drop`, shadow `drop_r` (R114). -/
def execSyncDrop (i : Ptr) (s : State) : Host.Outcome State Fault Refusal :=
  .next { s with dropR := syncPath s.drop s.dropR i }

/-- `SYNC.TS`: source `ts`, shadow `ts_r` (R115). -/
def execSyncTs (i : Stamp) (s : State) : Host.Outcome State Fault Refusal :=
  .next { s with tsR := syncPath s.ts s.tsR i }

/-- `SYNC.RD`: source `rd`, shadow `rd_w` (R116). -/
def execSyncRd (i : Ptr) (s : State) : Host.Outcome State Fault Refusal :=
  .next { s with rdW := syncPath s.rd s.rdW i }

end Sys2Proof.Machine
end

