-- ==== Sys2Proof/Machine/System.lean ====
section
/-! DEFINITION. The meaning of `RESET` (70_reset_and_hazards.md R181). -/

namespace Sys2Proof.Machine

/-- `RESET`: every register, output and trace to its reset value; `win` is not written; the contents of the arrays become
unspecified, so nothing is listed (log 8). What belongs to the environment and not to the block stays: the events still to
come (R185) and the counters of free values, so that no free value is used twice (log 17). -/
def execReset (s : State) : Host.Outcome State Fault Refusal :=
  .next { State.reset with win := s.win, taken := s.taken, draws := s.draws, inputs := s.inputs, envN := s.envN }

end Sys2Proof.Machine
end

