-- ==== Sys2Proof/Machine/Dispatch.lean ====
section
/-! DEFINITION. One arm for each operation: the call of its meaning. -/

namespace Sys2Proof.Machine

def exec (i : Instr) (s : State) : Host.Outcome State Fault Refusal :=
  match i with
  | .hdr version => Sys2Proof.Machine.execHdr version s
  | .smp samples => Sys2Proof.Machine.execSmp samples s
  | .eos => Sys2Proof.Machine.execEos s
  | .sampleR delay => Sys2Proof.Machine.execSampleR delay s
  | .sampleF delay => Sys2Proof.Machine.execSampleF delay s
  | .tick => Sys2Proof.Machine.execTick s
  | .sense level => Sys2Proof.Machine.execSense level s
  | .edgeR => Sys2Proof.Machine.execEdgeR s
  | .edgeF => Sys2Proof.Machine.execEdgeF s
  | .enc dir t => Sys2Proof.Machine.execEnc dir t s
  | .push v => Sys2Proof.Machine.execPush v s
  | .take => Sys2Proof.Machine.execTake s
  | .syncHead amount => Sys2Proof.Machine.execSyncHead amount s
  | .syncDrop amount => Sys2Proof.Machine.execSyncDrop amount s
  | .syncTs amount => Sys2Proof.Machine.execSyncTs amount s
  | .syncRd amount => Sys2Proof.Machine.execSyncRd amount s
  | .qFlush => Sys2Proof.Machine.execQFlush s
  | .qStart => Sys2Proof.Machine.execQStart s
  | .qPop => Sys2Proof.Machine.execQPop s
  | .qTimeout => Sys2Proof.Machine.execQTimeout s
  | .qIdle => Sys2Proof.Machine.execQIdle s
  | .rx b => Sys2Proof.Machine.execRx b s
  | .rxAppend b => Sys2Proof.Machine.execRxAppend b s
  | .rxEos b => Sys2Proof.Machine.execRxEos b s
  | .rxSlide => Sys2Proof.Machine.execRxSlide s
  | .rxHdr => Sys2Proof.Machine.execRxHdr s
  | .rxSmp => Sys2Proof.Machine.execRxSmp s
  | .rxWait => Sys2Proof.Machine.execRxWait s
  | .rxFail => Sys2Proof.Machine.execRxFail s
  | .reset => Sys2Proof.Machine.execReset s

end Sys2Proof.Machine
end

