-- ==== Sys2Proof/Machine/Ports.lean ====
section
/-! DEFINITION. How the next operation is fetched and selected: the next port event of the environment, and the code that
the event and the state select (30_encoding.md R79, R80; 43_session_framer.md R123; log 1). -/

namespace Sys2Proof.Machine

/-- The next port event, and the state with that event used up: from `inputs`, or else the environment's free choice. -/
def fetch (s : State) : PortEvent × State :=
  match s.inputs with
  | [] => (Config.environment s.envN, { s with envN := s.envN + 1 })
  | e :: es => (e, { s with inputs := es })

/-- What a port event selects in a state: `SENSE` by the pair {`sig_q`, `sig_in`} (R79), a step of Q by the guards of
R123, the others by the port alone (R80). -/
def codeOf (s : State) : PortEvent → Code
  | .rst => .rst
  | .usTick => .usTick
  | .sigIn level => .pins s.sigQ level
  | .rxData b => .rxData b
  | .burst b rest => .wire (b :: rest)
  | .polling => .guards (isActive s) (batchFull s) (nonemptyR s) (expired s)
  | .sync x => .sync x

/-- Bytes that are no unit are noise (30_encoding.md R84): the first is received, the others are still to come. -/
def splitNoise (s : State) : PortEvent → Instr × State
  | .burst b rest => (.rx b, { s with inputs := rest.map .rxData ++ s.inputs })
  | .rst => (.reset, s)
  | .usTick => (.tick, s)
  | .sigIn level => (decodePins s.sigQ level, s)
  | .rxData b => (.rx b, s)
  | .polling => (decodeGuards (isActive s) (batchFull s) (nonemptyR s) (expired s), s)
  | .sync x => (decodeSync x, s)

/-- The operation that the next step runs, and the state it runs in. Only a burst of noise does not decode. -/
def issue (s : State) : Instr × State :=
  match decode (codeOf (fetch s).2 (fetch s).1) with
  | .ok i => (i, (fetch s).2)
  | .error _ => splitNoise (fetch s).2 (fetch s).1

/-- The port events of one `clk_cap` cycle: `SENSE`, and then `TICK` when `us_tick` is high (10_state.md R41,
60_exceptions.md R170). -/
def capCycle (usTick sigIn : Bool) : List PortEvent :=
  .sigIn sigIn :: (if usTick then [.usTick] else [])

/-- The shorthand `SYNC`: each shadow is made current (30_encoding.md R86). -/
def syncAll : List PortEvent :=
  [.sync (.rd (-1)), .sync (.head (-1)), .sync (.drop (-1)), .sync (.ts (-1))]

/-- The port event of a burst of bytes; none for no bytes. -/
def burstOf : List Byte → List PortEvent
  | [] => []
  | b :: rest => [.burst b rest]

/-- A table word stored where the next step fetches it (log 16): the pair {`sig_q`, `sig_in`} sets `sig_q` and the level
that comes next, a unit is the burst that comes next. -/
def placeTableWord (s : State) (nbits w : Nat) : State :=
  match tableCode nbits w with
  | .pins sigQ sigIn => { s with sigQ := sigQ, inputs := .sigIn sigIn :: s.inputs }
  | .wire bytes => { s with inputs := burstOf bytes ++ s.inputs }
  | _ => s

end Sys2Proof.Machine
end

