-- ==== Sys2Proof/Machine/Step.lean ====
section
/-! DEFINITION. One step of the block: fetch the next port event, select the operation, run it (00_scope.md R10,
10_state.md R14). -/

namespace Sys2Proof.Machine

/-- One atomic step of one agent. -/
def step (s : State) : Host.Outcome State Fault Refusal := exec (issue s).1 (issue s).2

/-- The state in which the next step fetches this word of spec/opcode_table.json. -/
def State.withFetchWord (s : State) (nbits w : Nat) : State := placeTableWord s nbits w

end Sys2Proof.Machine
end

