-- ==== Sys2Proof/WellFormed.lean ====
section
/-! DEFINITION. Which terms of `Instr` are operations of the spec: COUNT of a SampleBlock is 1 to 255
(30_encoding.md R74, R83). Every other operand is right at every value of its type. -/

namespace Sys2Proof

/-- COUNT is never 0 (30_encoding.md R83). -/
def Instr.countNotZero : Instr → Bool
  | .smp samples => samples.length != 0
  | _ => true

/-- COUNT is at most `BATCH_MAX` = 255 (30_encoding.md R74). -/
def Instr.countFitsByte : Instr → Bool
  | .smp samples => decide (samples.length ≤ Config.batchMax)
  | _ => true

/-- An operation with operands the spec's encodings admit. -/
def Instr.wellFormed (i : Instr) : Bool :=
  i.countNotZero && i.countFitsByte

end Sys2Proof
end

