-- ==== Sys2Proof/Safety.lean ====
section
/-! DEFINITION. The terms in which claims speak of runs: the invariant of the block, the grammar of `tx`, the queue that the
ring holds, who owns which register, and the premises on the environment that the spec names but no single step shows
(10_state.md R14, 70_reset_and_hazards.md R188 to R205). -/

namespace Sys2Proof.Machine

/-! ## Runs of operations -/

/-- These operations one after another, stopping at the first that has no next state. -/
def execAll : List Instr → State → Host.Outcome State Fault Refusal
  | [], s => .next s
  | i :: is, s =>
    match exec i s with
    | .next t => execAll is t
    | .fault r => .fault r
    | .refused r => .refused r

/-! ## The invariant -/

/-- What holds of the block between steps: the arrays are in canonical form; `len ≤ 515` (44_decoder_resync.md R153);
`win_n ≤ 4` (10_state.md R34); an Idle session has an empty batch (43_session_framer.md R128); and no element of `BLK` or
`BUF` that a rule can read is unwritten (70_reset_and_hazards.md R183). -/
abbrev Inv (s : State) : Prop :=
  Memory.wf s ∧ s.len.toNat ≤ 515 ∧ s.winN.toNat ≤ 4 ∧ (s.sess = .idle → s.cnt = 0) ∧
    (∀ i < s.cnt.toNat, (readCell s.blk i).isSome) ∧ (∀ i < s.len.toNat, (readCell s.buf i).isSome)

/-- Directions alternate (40_timestamp_edge.md R91): the newest Sample of `RING` has the direction `sig_q`, and of two
Samples in neighbouring slots, the second pushed right after the first, the directions differ. -/
def DirectionsAlternate (s : State) : Prop :=
  (∀ v, readCell s.ring (s.head - 1).toNat = some v → sampleDir v = s.sigQ) ∧
    ∀ (k : Ptr) (v w : Sample), k ≠ s.head - 1 → readCell s.ring k.toNat = some v →
      readCell s.ring (k + 1).toNat = some w → sampleDir v ≠ sampleDir w

/-! ## The stream grammar -/

/-- The grammar of `tx` (30_encoding.md R77, 43_session_framer.md R133), with the state of the session it leaves open:
`{ HDR(01) SMP[255]* SMP[k]? EOS }*` with `1 ≤ k ≤ 254`. -/
inductive TxShape : Session → List Byte → Prop
  | empty : TxShape .idle []
  | header {tx : List Byte} : TxShape .idle tx → TxShape .active (tx ++ hdrBytes Config.version)
  | full {tx : List Byte} {samples : List Sample} : TxShape .active tx → samples.length = 255 →
      TxShape .active (tx ++ smpBytes samples)
  | closed {tx : List Byte} : TxShape .active tx → TxShape .idle (tx ++ eosBytes)
  | closedPartial {tx : List Byte} {samples : List Sample} : TxShape .active tx → 1 ≤ samples.length →
      samples.length ≤ 254 → TxShape .idle (tx ++ smpBytes samples ++ eosBytes)

/-! ## The ring as a queue -/

/-- `RING[tail], RING[tail+1], ..., RING[head-1]` (42_ring_buffer.md R103). -/
def ringQueue (s : State) : List (Option Sample) :=
  (List.range (occ s).toNat).map fun i => readCell s.ring (trueTail s + BitVec.ofNat 10 i).toNat

/-- P's shadow is current (42_ring_buffer.md R120). -/
abbrev ProducerCurrent (s : State) : Prop := s.rdW = s.rd

/-- Q's ring shadows are current (42_ring_buffer.md R120). -/
abbrev ConsumerCurrent (s : State) : Prop := s.headR = s.head ∧ s.dropR = s.drop

/-! ## The sentinel window -/

/-- The valid bytes of the window, oldest first (10_state.md R34). -/
def windowBytes (d : Decoder) : List Byte := [d.win.w0, d.win.w1, d.win.w2, d.win.w3].drop (4 - d.winN.toNat)

/-- These bytes, coming after those in the window, nowhere complete the sentinel (44_decoder_resync.md R154). -/
abbrev NoSentinel (d : Decoder) (bytes : List Byte) : Prop := ¬ eosBytes <:+: windowBytes d ++ bytes

/-- The ways an `RX` that saw no sentinel ends (44_decoder_resync.md R146, R153): too few bytes to look at, or an incomplete
SampleBlock in front. -/
abbrev Settled (d : Decoder) : Prop :=
  classify d.started d.buf = .short ∨ classify d.started d.buf = .wait

/-! ## Ownership (10_state.md R15, 60_exceptions.md R177) -/

/-- The agents, and the reset that reaches all of them. -/
inductive Agent
  | p
  | q
  | h
  | s
  | all
  deriving DecidableEq, Repr

/-- The agent whose step an operation is (60_exceptions.md R177). -/
def agentOf : Instr → Agent
  | .hdr _ => .h
  | .smp _ => .h
  | .eos => .h
  | .sampleR _ => .h
  | .sampleF _ => .h
  | .tick => .p
  | .sense _ => .p
  | .edgeR => .p
  | .edgeF => .p
  | .enc _ _ => .p
  | .push _ => .p
  | .take => .q
  | .syncHead _ => .s
  | .syncDrop _ => .s
  | .syncTs _ => .s
  | .syncRd _ => .s
  | .qFlush => .q
  | .qStart => .q
  | .qPop => .q
  | .qTimeout => .q
  | .qIdle => .q
  | .rx _ => .h
  | .rxAppend _ => .h
  | .rxEos _ => .h
  | .rxSlide => .h
  | .rxHdr => .h
  | .rxSmp => .h
  | .rxWait => .h
  | .rxFail => .h
  | .reset => .all

/-- What P owns is unchanged. -/
abbrev SameP (s t : State) : Prop :=
  t.ts = s.ts ∧ t.sigQ = s.sigQ ∧ t.prevTs = s.prevTs ∧ t.head = s.head ∧ t.drop = s.drop ∧ t.ring = s.ring ∧ t.pev = s.pev

/-- What Q owns is unchanged (with the model's `taken` and `draws`, which `TAKE` writes). -/
abbrev SameQ (s t : State) : Prop :=
  t.rd = s.rd ∧ t.sess = s.sess ∧ t.cnt = s.cnt ∧ t.lastAct = s.lastAct ∧ t.blk = s.blk ∧ t.tx = s.tx ∧
    t.taken = s.taken ∧ t.draws = s.draws

/-- What S owns, the shadows, is unchanged. -/
abbrev SameS (s t : State) : Prop :=
  t.rdW = s.rdW ∧ t.headR = s.headR ∧ t.dropR = s.dropR ∧ t.tsR = s.tsR

/-- What H owns is unchanged. -/
abbrev SameH (s t : State) : Prop :=
  t.len = s.len ∧ t.started = s.started ∧ t.win = s.win ∧ t.winN = s.winN ∧ t.buf = s.buf ∧ t.raw = s.raw ∧
    t.smp = s.smp ∧ t.hev = s.hev

/-- What belongs to the environment is unchanged. -/
abbrev SameEnv (s t : State) : Prop := t.inputs = s.inputs ∧ t.envN = s.envN

/-- Every register, array and output that is not H's is unchanged: the frame of an operation of H. -/
abbrev OnlyH (s t : State) : Prop := SameP s t ∧ SameQ s t ∧ SameS s t ∧ SameEnv s t

/-- Outputs and traces have only grown (10_state.md R31, R35). -/
abbrev OutputsGrew (s t : State) : Prop :=
  s.tx <+: t.tx ∧ s.raw <+: t.raw ∧ s.smp <+: t.smp ∧ s.hev <+: t.hev ∧ s.pev <+: t.pev

/-! ## The transport X (92_eei_decisions.md D15): a parameter of claims, from the bytes sent to the bytes received -/

/-- What a transport may do with the bytes sent. -/
abbrev Pipe := List Byte → List Byte → Prop

/-- Every byte arrives, in order. -/
def identityPipe : Pipe := fun sent received => received = sent

/-- One byte is changed. -/
def oneByteChanged : Pipe := fun sent received => ∃ k b, k < sent.length ∧ received = sent.set k b

/-- One byte is lost. -/
def oneByteLost : Pipe := fun sent received => ∃ k, k < sent.length ∧ received = sent.eraseIdx k

/-- One byte is inserted. -/
def oneByteInserted : Pipe := fun sent received => ∃ k b, k ≤ sent.length ∧ received = sent.insertIdx k b

/-! ## Assumptions on the environment that no single step shows (logs 1 and 15)

They speak of an infinite run, given as the state before each of its steps. -/

/-- A run of the block: every step leads to the next state. -/
abbrev Run (run : Nat → State) : Prop := ∀ n, step (run n) = .next (run (n + 1))

/-- The operation of the `n`-th step of a run. -/
def opAt (run : Nat → State) (n : Nat) : Instr := (issue (run n)).1

/-- Weak fairness (10_state.md R14): a step that stays enabled is eventually taken. `enabled` and `taken` speak of the moments
of a run. -/
def WeaklyFair (enabled taken : Nat → Prop) : Prop :=
  ∀ n, (∀ m, n ≤ m → enabled m) → ∃ m, n ≤ m ∧ taken m

/-- Weak fairness of an operation without a free choice: if `exec` keeps having a next state for it, it is taken. -/
def FairOperation (run : Nat → State) (i : Instr) : Prop :=
  WeaklyFair (fun m => ∃ t, exec i (run m) = .next t) (fun m => opAt run m = i)

/-- Weak fairness of a synchroniser, `op` with shadow `sh` of source `src`: it is always enabled and so is eventually taken
(10_state.md R14), and if the source stops, it is eventually taken with the largest amount, which makes the shadow current
(20_memory.md R61, 42_ring_buffer.md R112). -/
def FairSync {w : Nat} (run : Nat → State) (op : BitVec w → Instr) (src sh : State → BitVec w) : Prop :=
  WeaklyFair (fun _ => True) (fun m => ∃ i, opAt run m = op i) ∧
    ∀ v, WeaklyFair (fun m => src (run m) = v) (fun m => ∃ i, opAt run m = op i ∧ src (run m) - sh (run m) ≤ i)

/-- Weak fairness of all agents (10_state.md R14). P: `TICK` is always enabled (40_timestamp_edge.md R88), and so is
`SENSE`, whatever level it then finds (10_state.md R41). Q: one of its five operations is always enabled
(43_session_framer.md R123), so Q takes steps again and again, and with them each of the five that stays enabled
(`fairRun_takes_operations_of_q`). S: the four synchronisers. H has a step only when X delivers a byte, which X need not do,
and `rst` belongs to the outside world, so nothing is assumed of `RX` and `RESET`. -/
def FairRun (run : Nat → State) : Prop :=
  FairOperation run .tick ∧ WeaklyFair (fun _ => True) (fun m => ∃ level, (fetch (run m)).1 = .sigIn level) ∧
    WeaklyFair (fun _ => True) (fun m => (fetch (run m)).1 = .polling) ∧
    FairSync run .syncHead State.head State.headR ∧ FairSync run .syncDrop State.drop State.dropR ∧
    FairSync run .syncTs State.ts State.tsR ∧ FairSync run .syncRd State.rd State.rdW

/-- How many of the steps `a, ..., b-1` of a run advance a source register. -/
def advances {w : Nat} (run : Nat → State) (src : State → BitVec w) (a b : Nat) : Nat :=
  (List.range' a (b - a)).countP fun k => src (run (k + 1)) != src (run k)

/-- Bound (a) of 70_reset_and_hazards.md R190 for one shadow of width `w`: while no step `op` updates the shadow, the source
advances fewer than `2^w` times (42_ring_buffer.md R112). `RESET` makes every shadow current and counts as an update. -/
def SourceWithinWrap {w : Nat} (run : Nat → State) (op : BitVec w → Instr) (src : State → BitVec w) : Prop :=
  ∀ a b, a ≤ b → (∀ k, a ≤ k → k < b → opAt run k ≠ .reset ∧ ∀ i, opAt run k ≠ op i) → advances run src a b < 2 ^ w

/-- Bound (a) of 70_reset_and_hazards.md R190 for each shadow: `W` = 10 for `head_r`, `drop_r` and `rd_w`, 32 for `ts_r`. -/
def ShadowsKeepUp (run : Nat → State) : Prop :=
  SourceWithinWrap run .syncHead State.head ∧ SourceWithinWrap run .syncDrop State.drop ∧
    SourceWithinWrap run .syncTs State.ts ∧ SourceWithinWrap run .syncRd State.rd

/-- How often the source has advanced since its shadow was current, counted step by step and not modulo `2^w`; a run that
begins with the shadow behind begins with their distance. -/
def advancesSinceCurrent {w : Nat} (run : Nat → State) (src sh : State → BitVec w) : Nat → Nat
  | 0 => (src (run 0) - sh (run 0)).toNat
  | n + 1 =>
    if sh (run (n + 1)) = src (run (n + 1)) then 0
    else advancesSinceCurrent run src sh n + if src (run (n + 1)) = src (run n) then 0 else 1

/-- Bound (b) of 70_reset_and_hazards.md R190, which is the second premise of 42_ring_buffer.md R121 (e): at every moment the
pushes since `head_r` was current and the takes since `rd_w` was current are together fewer than `C - 1` = 1023. The count
passes through 1023 before 1024 pushes can make an old shadow look current. -/
def LagBelowRing (run : Nat → State) : Prop :=
  ∀ n, advancesSinceCurrent run State.head State.headR n + advancesSinceCurrent run State.rd State.rdW n <
    Config.ringSlots - 1

/-- The first premise of 42_ring_buffer.md R121 (e) and the one 70_reset_and_hazards.md R189 asks for: at every `TAKE`, which
is inside `Q.POP`, `drop_r` is current. -/
def DropCurrentAtTakes (run : Nat → State) : Prop :=
  ∀ n, opAt run n = .qPop → (run n).dropR = (run n).drop

/-- The polling period (70_reset_and_hazards.md R205): between two steps of Q `ts` advances by at most `POLL_MAX_US`. -/
def PollingPeriod (events : List PortEvent) : Prop :=
  ∀ part, part <:+: events → .polling ∉ part → part.count .usTick ≤ Config.pollMaxUs

/-- The last Sample of no block is `0x8000` (70_reset_and_hazards.md R195). -/
def NoBlockEndsInZeroRising (blocks : List (List Sample)) : Prop := ∀ b ∈ blocks, b.getLast? ≠ some 0x8000

end Sys2Proof.Machine
end

