-- ==== Sys2Proof/Certificates/Slice0/Obligations.lean ====
section
/-! DEFINITION. The statements for the provers, from the numbered rules of spec/. `R<n>` is a rule, `log <n>` an entry of
notes/assumptions. A frame `t = { s with f := t.f, … }` says that every field of the state but the listed ones is unchanged. -/

open Sys2Proof Sys2Proof.Machine

/-! ## Reset and the step -/

/-- R44: every register, output and trace at the value the spec states. (`win`, the arrays and the model's own fields are
not stated here: the spec gives them no value.) -/
def Obligations.ResetStateHasTheValuesOfTheSpec : Prop :=
  State.reset.ts = 0 ∧ State.reset.sigQ = false ∧ State.reset.prevTs = 0 ∧ State.reset.head = 0 ∧
    State.reset.drop = 0 ∧ State.reset.rdW = 0 ∧ State.reset.rd = 0 ∧ State.reset.headR = 0 ∧
    State.reset.dropR = 0 ∧ State.reset.tsR = 0 ∧ State.reset.sess = .idle ∧ State.reset.cnt = 0 ∧
    State.reset.lastAct = 0 ∧ State.reset.tx = [] ∧ State.reset.len = 0 ∧ State.reset.started = false ∧
    State.reset.winN = 0 ∧ State.reset.raw = [] ∧ State.reset.smp = [] ∧ State.reset.hev = [] ∧
    State.reset.pev = []

/-- R181: from every state `RESET` completes and gives every register, output and trace its reset value; `win` is not
written. -/
def Obligations.ResetOperationResetsEveryAgent : Prop :=
  ∀ s : State, ∃ t, exec .reset s = .next t ∧
    t.ts = 0 ∧ t.sigQ = false ∧ t.prevTs = 0 ∧ t.head = 0 ∧ t.drop = 0 ∧ t.rdW = 0 ∧
    t.rd = 0 ∧ t.headR = 0 ∧ t.dropR = 0 ∧ t.tsR = 0 ∧
    t.sess = .idle ∧ t.cnt = 0 ∧ t.lastAct = 0 ∧ t.tx = [] ∧
    t.len = 0 ∧ t.started = false ∧ t.winN = 0 ∧ t.win = s.win ∧
    t.raw = [] ∧ t.smp = [] ∧ t.hev = [] ∧ t.pev = []

/-- The model's choice (logs 8, 9 and 17): after `RESET` no element of an array is specified, and the model's own fields and
those of the environment are as before. -/
def Obligations.ResetForgetsTheArraysAndKeepsTheEnvironment : Prop :=
  ∀ s : State, ∃ t, exec .reset s = .next t ∧
    (∀ j, readCell t.ring j = none ∧ readCell t.blk j = none ∧ readCell t.buf j = none) ∧
    t.taken = s.taken ∧ t.draws = s.draws ∧ SameEnv s t

/-- The invariants hold of the state after reset (R183: 'Every invariant of R104 holds'; R77, R91 for the others). -/
def Obligations.InvariantsHoldAtReset : Prop :=
  Inv State.reset ∧ TxShape State.reset.sess State.reset.tx ∧ DirectionsAlternate State.reset

/-- Every step keeps the invariant of Safety.lean: canonical arrays, `len ≤ 515` (R153), `win_n ≤ 4` (R34), an empty batch
when Idle (R128), and no readable element of `BLK` or `BUF` unwritten (R183). -/
def Obligations.StepKeepsInvariant : Prop :=
  ∀ s t : State, Inv s → step s = .next t → Inv t

/-- Nothing in the block faults and no operation is refused at run time (93_implementation_defined.md part 2; R161): while
`BUF` holds no more than `DEC_BUF` bytes, every step has a next state, whatever the environment does. -/
def Obligations.EveryStepAnswersANextState : Prop :=
  ∀ s : State, s.len.toNat ≤ 600 → ∃ t, step s = .next t

/-- A step runs the operation that the next port event selects (R79, R80): `rst` selects `RESET`, `us_tick` `TICK`, a level
at `sig_in` `SENSE` or the edge that the pair {`sig_q`, `sig_in`} names, `rx_valid` with `b` selects `RX(b)`, a step of S the
`SYNC.x` with its amount, a step of Q what the guards select. Where the code of an event decodes, `step` is `exec` of that
operation. The model's choice (log 1): the event is the first of `inputs` or, when there is none, the environment's free
choice. The model's choice (log 3): a burst of bytes that is one unit runs as that unit, and one that is no unit is received
byte by byte. -/
def Obligations.StepRunsTheSelectedOperation : Prop :=
  (∀ (s : State) (e : PortEvent) (es : List PortEvent), s.inputs = e :: es → fetch s = (e, { s with inputs := es })) ∧
    (∀ s : State, s.inputs = [] → fetch s = (Config.environment s.envN, { s with envN := s.envN + 1 })) ∧
    (∀ (s : State) (i : Instr), decode (codeOf (fetch s).2 (fetch s).1) = .ok i → step s = exec i (fetch s).2) ∧
    ∀ (s u : State) (e : PortEvent), fetch s = (e, u) →
      (e = .rst → step s = exec .reset u) ∧
      (e = .usTick → step s = exec .tick u) ∧
      (∀ level, e = .sigIn level →
        (u.sigQ = level → step s = exec (.sense level) u) ∧
        (u.sigQ = false → level = true → step s = exec .edgeR u) ∧
        (u.sigQ = true → level = false → step s = exec .edgeF u)) ∧
      (∀ b, e = .rxData b → step s = exec (.rx b) u) ∧
      (∀ i, e = .sync (.head i) → step s = exec (.syncHead i) u) ∧
      (∀ i, e = .sync (.drop i) → step s = exec (.syncDrop i) u) ∧
      (∀ i, e = .sync (.ts i) → step s = exec (.syncTs i) u) ∧
      (∀ i, e = .sync (.rd i) → step s = exec (.syncRd i) u) ∧
      (e = .polling → step s = exec (decodeGuards (isActive u) (batchFull u) (nonemptyR u) (expired u)) u) ∧
      (∀ b rest i, e = .burst b rest → decode (.wire (b :: rest)) = .ok i → step s = exec i u) ∧
      ∀ b rest err, e = .burst b rest → decode (.wire (b :: rest)) = .error err →
        step s = exec (.rx b) { u with inputs := rest.map .rxData ++ u.inputs }

/-- R15, R177: a register is written by the steps of its owner alone: an operation that is not P's (and not `RESET`) leaves
what P owns, and so for Q, H and S; no operation but `RESET` touches two owners, and none touches the environment. -/
def Obligations.OnlyTheOwnerWritesARegister : Prop :=
  ∀ (i : Instr) (s t : State), exec i s = .next t →
    (agentOf i ≠ .p → agentOf i ≠ .all → SameP s t) ∧ (agentOf i ≠ .q → agentOf i ≠ .all → SameQ s t) ∧
    (agentOf i ≠ .h → agentOf i ≠ .all → SameH s t) ∧ (agentOf i ≠ .s → agentOf i ≠ .all → SameS s t) ∧
    SameEnv s t

/-- R31, R35: the outputs and traces only grow, in every operation but `RESET`. -/
def Obligations.OutputsOnlyGrow : Prop :=
  ∀ (i : Instr) (s t : State), i ≠ .reset → exec i s = .next t → OutputsGrew s t

/-- R77, R133: every step keeps `tx` in the grammar of the stream. -/
def Obligations.StepKeepsTheStreamGrammar : Prop :=
  ∀ s t : State, TxShape s.sess s.tx → step s = .next t → TxShape t.sess t.tx

/-- R91: every step keeps the directions of successive Samples alternating. -/
def Obligations.StepKeepsDirectionsAlternating : Prop :=
  ∀ s t : State, DirectionsAlternate s → step s = .next t → DirectionsAlternate t

/-- The operations that are selected by a guard have no step in a state where the guard does not hold (R79, R110, R123,
R144 to R151; 'not enabled', 95_test_vectors.md V4). Of the parts of `RX` that look at a candidate, none has a step with fewer
than six bytes or with a buffer that does not begin `00 00`, and each has none where its own condition fails; a `len` over 600
is the fault of log 12. The refusal is the model's rendering of it (log 6). -/
def Obligations.DisabledOperationsHaveNoStep : Prop :=
  ∀ s : State,
    (s.sigQ = true → exec .edgeR s = .refused .notEnabled) ∧
    (s.sigQ = false → exec .edgeF s = .refused .notEnabled) ∧
    (tailR s = s.headR → exec .take s = .refused .notEnabled) ∧
    (s.sess = .idle ∨ s.cnt ≠ 255 → exec .qFlush s = .refused .notEnabled) ∧
    (s.sess = .active ∨ tailR s = s.headR → exec .qStart s = .refused .notEnabled) ∧
    (s.sess = .idle ∨ tailR s = s.headR ∨ s.cnt = 255 → exec .qPop s = .refused .notEnabled) ∧
    (s.sess = .idle ∨ tailR s ≠ s.headR ∨ expired s = false ∨ s.cnt = 255 →
      exec .qTimeout s = .refused .notEnabled) ∧
    (s.sess = .active ∧ s.cnt = 255 ∨ tailR s ≠ s.headR ∨ s.sess = .active ∧ expired s = true →
      exec .qIdle s = .refused .notEnabled) ∧
    ∀ buf, (decoderOf s).buf = buf → buf.length ≤ 600 →
      (buf.length < 6 ∨ ¬ [0x00, 0x00] <+: buf →
        exec .rxHdr s = .refused .notEnabled ∧ exec .rxSmp s = .refused .notEnabled ∧
        exec .rxWait s = .refused .notEnabled ∧ exec .rxFail s = .refused .notEnabled) ∧
      (byteAt buf 2 ≠ 0x00 ∨ s.started = true ∨ byteAt buf 4 ≠ 0x00 ∨ byteAt buf 5 ≠ 0x80 →
        exec .rxHdr s = .refused .notEnabled) ∧
      (byteAt buf 2 ≠ 0x01 ∨ s.started = false ∨ byteAt buf 3 = 0 ∨ buf.length < 6 + 2 * (byteAt buf 3).toNat ∨
          byteAt buf (4 + 2 * (byteAt buf 3).toNat) ≠ 0x00 ∨ byteAt buf (5 + 2 * (byteAt buf 3).toNat) ≠ 0x80 →
        exec .rxSmp s = .refused .notEnabled) ∧
      (byteAt buf 2 ≠ 0x01 ∨ s.started = false ∨ byteAt buf 3 = 0 ∨ 6 + 2 * (byteAt buf 3).toNat ≤ buf.length →
        exec .rxWait s = .refused .notEnabled) ∧
      (byteAt buf 2 = 0x00 ∧ s.started = false ∧ byteAt buf 4 = 0x00 ∧ byteAt buf 5 = 0x80 ∨
          byteAt buf 2 = 0x01 ∧ s.started = true ∧ byteAt buf 3 ≠ 0 ∧
            (buf.length < 6 + 2 * (byteAt buf 3).toNat ∨
              byteAt buf (4 + 2 * (byteAt buf 3).toNat) = 0x00 ∧ byteAt buf (5 + 2 * (byteAt buf 3).toNat) = 0x80) →
        exec .rxFail s = .refused .notEnabled)

/-- The model's one fault (log 12): in a state whose `len` is over `DEC_BUF`, which no run reaches, the operations of H
would name an element of `BUF` that does not exist (R46, R49). -/
def Obligations.DecoderFaultsOnlyBeyondItsBuffer : Prop :=
  ∀ (i : Instr) (s : State),
    (agentOf i = .h → 600 < s.len.toNat → exec i s = .fault .bufIndexOutOfRange) ∧
    (s.len.toNat ≤ 600 → exec i s ≠ .fault .bufIndexOutOfRange) ∧
    (agentOf i ≠ .h → exec i s ≠ .fault .bufIndexOutOfRange)

/-! ## Encodings -/

/-- Decode and encode agree: every well-formed operation, with every operand at every value, is what its code decodes to. -/
def Obligations.DecodeOfEncodeIsTheOperation : Prop :=
  ∀ i : Instr, i.wellFormed = true → decode (encode i) = .ok i

/-- Each byte string has at most one meaning (R67, R72 to R75): what the decoder reads as a unit is, byte for byte, the
encoding of that unit, and the unit is well-formed. -/
def Obligations.AUnitsBytesAreItsEncoding : Prop :=
  ∀ (bytes : List Byte) (i : Instr), decode (.wire bytes) = .ok i → encode i = .wire bytes ∧ i.wellFormed = true

/-- Words written out from the spec's encodings (R73 to R75, R98, R79) decode to the operations they stand for. -/
def Obligations.WordsOfTheSpecDecode : Prop :=
  decode (.wire [0x00, 0x00, 0x00, 0x01, 0x00, 0x80]) = .ok (.hdr 0x01) ∧
    decode (.wire [0x00, 0x00, 0x01, 0x02, 0x64, 0x80, 0x96, 0x00, 0x00, 0x80]) = .ok (.smp [0x8064, 0x0096]) ∧
    decode (.wire [0x00, 0x80, 0x00, 0x80]) = .ok .eos ∧
    decode (.wire [0x64, 0x80]) = .ok (.sampleR 100) ∧ decode (.wire [0x96, 0x00]) = .ok (.sampleF 150) ∧
    decode (.pins false true) = .ok .edgeR ∧ decode (.pins true false) = .ok .edgeF ∧
    decode (.pins false false) = .ok (.sense false) ∧ decode (.pins true true) = .ok (.sense true)

/-- R82, R83: a framed block with TYPE `02` to `FF`, or a SampleBlock with COUNT 0, is no unit. -/
def Obligations.ReservedTypeAndZeroCountAreNoUnit : Prop :=
  ∀ (type par b0 b1 : Byte) (rest : List Byte),
    (2 ≤ type.toNat → decode (.wire (0x00 :: 0x00 :: type :: par :: b0 :: b1 :: rest)) = .error .reservedType) ∧
    decode (.wire (0x00 :: 0x00 :: 0x01 :: 0x00 :: b0 :: b1 :: rest)) = .error .countZero

/-- R69, R98: the Sample word is `(dir << 15) | delay`, both fields read back, and R50: its two wire bytes, low byte first,
rebuild it. -/
def Obligations.SampleFieldsAndBytesReadBack : Prop :=
  (∀ (dir : Bool) (delay : Delay),
    (packSample dir delay).toNat = dir.toNat * 32768 + delay.toNat ∧
    sampleDir (packSample dir delay) = dir ∧ sampleDelay (packSample dir delay) = delay) ∧
  ∀ s : Sample, sampleBytes s = [BitVec.ofNat 8 (s.toNat % 256), BitVec.ofNat 8 (s.toNat / 256)] ∧
    joinBytes (s.setWidth 8) ((s >>> 8).setWidth 8) = s

/-! ## Agent P: timestamp, detector, encoder -/

/-- R88: `TICK` is always enabled, adds one microsecond modulo 2^32, and changes nothing else. -/
def Obligations.TickAddsOneMicrosecond : Prop :=
  ∀ s : State, ∃ t, exec .tick s = .next t ∧ t.ts.toNat = (s.ts.toNat + 1) % 2 ^ 32 ∧ t = { s with ts := t.ts }

/-- R89: after `n` steps on `us_tick` events the counter has advanced by `n` modulo 2^32, and only the events are used up. -/
def Obligations.TicksCountMicroseconds : Prop :=
  ∀ (n : Nat) (s : State), s.inputs = List.replicate n .usTick →
    ∃ t, Host.Core.run Sys2Proof.core n s = .next t ∧ t.ts.toNat = (s.ts.toNat + n) % 2 ^ 32 ∧
      t = { s with ts := t.ts, inputs := [] }

/-- R96: the delta that R95 computes, with its explicit branch for `t < prev_ts`, is the difference modulo 2^32, for all
timestamps, and the delay is that difference saturated at 32767. -/
def Obligations.DeltaIsTheDifferenceModulo : Prop :=
  ∀ prev t : Stamp,
    (t < prev → delta32 prev t = (0xFFFFFFFF - prev) + t + 1) ∧
    (delta32 prev t).toNat = (t.toNat + 2 ^ 32 - prev.toNat) % 2 ^ 32 ∧ delta32 prev t = t - prev ∧
    (delayOf (delta32 prev t)).toNat = min ((t.toNat + 2 ^ 32 - prev.toNat) % 2 ^ 32) 32767

/-- R95, R97, R105: `ENC(dir, t)` always succeeds: the Sample with the saturated delta is written at the old `head`;
`prev_ts` becomes `t`; `EV_SATURATED` is recorded exactly when the delta is over 32767, and before `EV_OVERFLOW`; nothing
else changes. -/
def Obligations.EncPushesTheSaturatedDelta : Prop :=
  ∀ (dir : Bool) (time : Stamp) (s : State), ∃ t, exec (.enc dir time) s = .next t ∧
    t.prevTs = time ∧ t.head = s.head + 1 ∧
    readCell t.ring s.head.toNat = some (packSample dir (BitVec.ofNat 15 (min (time - s.prevTs).toNat 32767))) ∧
    (∀ j, j ≠ s.head.toNat → readCell t.ring j = readCell s.ring j) ∧
    t.pev = s.pev ++ (if 32767 < (time - s.prevTs).toNat then [.saturated (time - s.prevTs)] else []) ++
      (if s.head + 1 = s.rdW + s.drop then [.overflow] else []) ∧
    t.drop = (if s.head + 1 = s.rdW + s.drop then s.drop + 1 else s.drop) ∧
    t = { s with prevTs := t.prevTs, head := t.head, ring := t.ring, pev := t.pev, drop := t.drop }

/-- R90, R79: a `SENSE` whose level is `sig_q` changes nothing. One whose level differs is an edge: `ENC(level, ts)` with
the time of this step, and then `sig_q` is the level; `EDGE.R` and `EDGE.F` are that `SENSE`, each in the state that
selects it, and so a step on a level at `sig_in` is `SENSE` of that level. -/
def Obligations.SenseEncodesEdgesOnly : Prop :=
  ∀ (level : Bool) (s : State),
    (level = s.sigQ → exec (.sense level) s = .next s) ∧
    (level ≠ s.sigQ → ∃ u, exec (.enc level s.ts) s = .next u ∧
      exec (.sense level) s = .next { u with sigQ := level } ∧
      (level = true → exec .edgeR s = .next { u with sigQ := true }) ∧
      (level = false → exec .edgeF s = .next { u with sigQ := false })) ∧
    ∀ es, s.inputs = .sigIn level :: es → step s = exec (.sense level) { s with inputs := es }

/-! ## The ring -/

/-- R105: `PUSH(s)` always succeeds. When `next_head == tail_w`, `drop` advances and `EV_OVERFLOW` is recorded; in every case
the element goes to the old `head`, every other element keeps its value, `head` advances and nothing else changes. -/
def Obligations.PushWritesThenPublishes : Prop :=
  ∀ (v : Sample) (s : State), ∃ t, exec (.push v) s = .next t ∧
    readCell t.ring s.head.toNat = some v ∧ (∀ j, j ≠ s.head.toNat → readCell t.ring j = readCell s.ring j) ∧
    t.head = s.head + 1 ∧
    (s.head + 1 = s.rdW + s.drop → t.drop = s.drop + 1 ∧ t.pev = s.pev ++ [.overflow]) ∧
    (s.head + 1 ≠ s.rdW + s.drop → t.drop = s.drop ∧ t.pev = s.pev) ∧
    t = { s with ring := t.ring, head := t.head, drop := t.drop, pev := t.pev }

/-- R106 (c): after a push with overflow `occ` is unchanged; after a push without, it is one more (modulo `C`). -/
def Obligations.PushAddsOneUnlessItOverflows : Prop :=
  ∀ (v : Sample) (s t : State), exec (.push v) s = .next t →
    occ t = if s.head + 1 = s.rdW + s.drop then occ s else occ s + 1

/-- R120: with a current shadow `rd_w`, `PUSH(s)` appends `s` to the queue, first removing the oldest Sample exactly when
`occ = 1023`. -/
def Obligations.PushAppendsToTheQueue : Prop :=
  ∀ (v : Sample) (s t : State), ProducerCurrent s → exec (.push v) s = .next t →
    ringQueue t = (if (occ s).toNat = 1023 then (ringQueue s).tail else ringQueue s) ++ [some v]

/-- R107: pushing `1023 + k` Samples into an empty ring with no take in between leaves exactly the last 1023, with `k` drops
and `k` overflow events, and `head ≠ tail`. -/
def Obligations.OverflowKeepsTheLast1023 : Prop :=
  ∀ (samples : List Sample) (s : State), 1023 ≤ samples.length → occ s = 0 → ProducerCurrent s →
    ∃ t, execAll (samples.map .push) s = .next t ∧
      ringQueue t = (samples.drop (samples.length - 1023)).map some ∧
      t.drop = s.drop + BitVec.ofNat 10 (samples.length - 1023) ∧
      t.pev = s.pev ++ List.replicate (samples.length - 1023) .overflow ∧
      t.head ≠ trueTail t

/-- R120: with current shadows `TAKE` is enabled exactly when `occ > 0`, returns the oldest Sample of the queue and removes
it; no `draw_16` is taken. -/
def Obligations.TakeRemovesTheOldest : Prop :=
  ∀ s : State, ConsumerCurrent s →
    (occ s = 0 → exec .take s = .refused .notEnabled) ∧
    (∀ (v : Sample) (rest : List (Option Sample)), ringQueue s = some v :: rest →
      ∃ t, exec .take s = .next t ∧ t.taken = v ∧ ringQueue t = rest ∧ t.draws = s.draws ∧
        t = { s with rd := s.rd + 1, taken := t.taken })

/-- R110, R111, R193: whenever `nonempty_r` holds, `TAKE` completes and `rd` advances. It returns the Sample in an occupied
slot that holds one; otherwise it returns the next free value, whatever that is, and uses it up. Nothing else changes. -/
def Obligations.TakeReturnsTheSlotOrAFreeValue : Prop :=
  ∀ s : State, s.rd + s.dropR ≠ s.headR →
    ∃ t, exec .take s = .next t ∧ t.rd = s.rd + 1 ∧
      (∀ v, occupied s (s.rd + s.dropR) = true → readCell s.ring (s.rd + s.dropR).toNat = some v →
        t.taken = v ∧ t.draws = s.draws) ∧
      (occupied s (s.rd + s.dropR) = false ∨ readCell s.ring (s.rd + s.dropR).toNat = none →
        t.taken = Config.draw16 s.draws ∧ t.draws = s.draws + 1) ∧
      t = { s with rd := t.rd, taken := t.taken, draws := t.draws }

/-- R112 to R116: each `SYNC.x` completes in every state, moves its shadow along the path from its value towards the
source's, never past it, and changes nothing else. (An amount beyond the path makes the shadow current: log 13.) -/
def Obligations.SyncMovesOneShadowAlongItsPath : Prop :=
  ∀ (i : Ptr) (j : Stamp) (s : State),
    (∃ t, exec (.syncHead i) s = .next t ∧ t = { s with headR := t.headR } ∧
      (t.headR - s.headR).toNat = min i.toNat (s.head - s.headR).toNat) ∧
    (∃ t, exec (.syncDrop i) s = .next t ∧ t = { s with dropR := t.dropR } ∧
      (t.dropR - s.dropR).toNat = min i.toNat (s.drop - s.dropR).toNat) ∧
    (∃ t, exec (.syncTs j) s = .next t ∧ t = { s with tsR := t.tsR } ∧
      (t.tsR - s.tsR).toNat = min j.toNat (s.ts - s.tsR).toNat) ∧
    ∃ t, exec (.syncRd i) s = .next t ∧ t = { s with rdW := t.rdW } ∧
      (t.rdW - s.rdW).toNat = min i.toNat (s.rd - s.rdW).toNat

/-- R113 to R116, with the path of R112: the values the shadow can have after the step are exactly those on the path from
its value to the source's; the choice is free. -/
def Obligations.SyncReachesEveryValueOnThePath : Prop :=
  ∀ s : State,
    (∀ v : Ptr, (∃ i, exec (.syncHead i) s = .next { s with headR := v }) ↔ v - s.headR ≤ s.head - s.headR) ∧
    (∀ v : Ptr, (∃ i, exec (.syncDrop i) s = .next { s with dropR := v }) ↔ v - s.dropR ≤ s.drop - s.dropR) ∧
    (∀ v : Stamp, (∃ i, exec (.syncTs i) s = .next { s with tsR := v }) ↔ v - s.tsR ≤ s.ts - s.tsR) ∧
    ∀ v : Ptr, (∃ i, exec (.syncRd i) s = .next { s with rdW := v }) ↔ v - s.rdW ≤ s.rd - s.rdW

/-- R86: the shorthand `SYNC`, four steps, makes every shadow current and changes nothing else. -/
def Obligations.SyncShorthandMakesShadowsCurrent : Prop :=
  ∀ (s : State) (es : List PortEvent), s.inputs = syncAll ++ es →
    Host.Core.run Sys2Proof.core 4 s =
      .next { s with rdW := s.rd, headR := s.head, dropR := s.drop, tsR := s.ts, inputs := es }

/-- R118: `gray(b) = b xor (b >> 1)`; `bin(g)` has `g`'s highest bit, and below it `bin(g)[i] = bin(g)[i+1] xor g[i]`; the
two are inverse to each other, at every width. -/
def Obligations.GrayCodeIsInverted : Prop :=
  ∀ (w : Nat) (b : BitVec w),
    gray b = b ^^^ (b >>> 1) ∧
    (∀ i, i + 1 = w → (ungray b).getLsbD i = b.getLsbD i) ∧
    (∀ i, i + 1 < w → (ungray b).getLsbD i = ((ungray b).getLsbD (i + 1) ^^ b.getLsbD i)) ∧
    ungray (gray b) = b ∧ gray (ungray b) = b

/-- R119: the gray codes of `b` and `b + 1` differ in exactly one bit, the wrap included, at every width. -/
def Obligations.GrayNeighboursDifferInOneBit : Prop :=
  ∀ (w : Nat) (b : BitVec (w + 1)), ∃ k, k < w + 1 ∧ gray b ^^^ gray (b + 1) = BitVec.twoPow (w + 1) k

/-! ## Agent Q -/

/-- R123, R132: a step of Q runs the first operation of the priority list whose guard holds. -/
def Obligations.PollingRunsTheFirstEnabledOperation : Prop :=
  ∀ (s u : State) (es : List PortEvent), s.inputs = .polling :: es → u = { s with inputs := es } →
    (s.sess = .active ∧ s.cnt = 255 → step s = exec .qFlush u) ∧
    (s.sess = .idle ∧ tailR s ≠ s.headR → step s = exec .qStart u) ∧
    (s.sess = .active ∧ tailR s ≠ s.headR ∧ s.cnt ≠ 255 → step s = exec .qPop u) ∧
    (s.sess = .active ∧ tailR s = s.headR ∧ expired s = true ∧ s.cnt ≠ 255 → step s = exec .qTimeout u) ∧
    (s.sess = .idle ∧ tailR s = s.headR → step s = exec .qIdle u) ∧
    (s.sess = .active ∧ tailR s = s.headR ∧ expired s = false ∧ s.cnt ≠ 255 → step s = exec .qIdle u)

/-- R129: the inactivity window has passed when strictly more than 5 000 000 microseconds, modulo 2^32, separate `ts_r` from
`last_act`. -/
def Obligations.ExpiryIsStrictlyMoreThanTheWindow : Prop :=
  ∀ s : State, expired s = true ↔ 5000000 < (s.tsR.toNat + 2 ^ 32 - s.lastAct.toNat) % 2 ^ 32

/-- R125: `Q.START` completes under its guard: the header goes out, the batch is empty, the window starts at `ts_r`, the
session is Active, and no Sample is taken. -/
def Obligations.StartOpensTheSession : Prop :=
  ∀ s : State, s.sess = .idle → s.rd + s.dropR ≠ s.headR →
    exec .qStart s = .next { s with
      tx := s.tx ++ [0x00, 0x00, 0x00, 0x01, 0x00, 0x80], cnt := 0, lastAct := s.tsR, sess := .active }

/-- R126: `Q.POP` completes under its guard: the Sample that `TAKE` returns is added to the batch at `cnt`, every other
element of `BLK` keeps its value, `cnt` and `rd` advance by one, the window restarts at `ts_r`, and nothing else changes;
after the 255th Sample the next step of Q is `Q.FLUSH`. -/
def Obligations.PopMovesOneSampleToTheBatch : Prop :=
  ∀ s : State, s.sess = .active → s.rd + s.dropR ≠ s.headR → s.cnt ≠ 255 →
    ∃ u t, exec .take s = .next u ∧ exec .qPop s = .next t ∧
      t.rd = s.rd + 1 ∧ t.taken = u.taken ∧ t.draws = u.draws ∧
      readCell t.blk s.cnt.toNat = some u.taken ∧
      (∀ j, j ≠ s.cnt.toNat → readCell t.blk j = readCell s.blk j) ∧
      t.cnt.toNat = s.cnt.toNat + 1 ∧ t.lastAct = s.tsR ∧ batch t = batch s ++ [u.taken] ∧
      t = { s with
        rd := t.rd, taken := t.taken, draws := t.draws, blk := t.blk, cnt := t.cnt, lastAct := t.lastAct } ∧
      (s.cnt = 254 → ∀ es, step { t with inputs := .polling :: es } = exec .qFlush { t with inputs := es })

/-- R127: `Q.FLUSH` completes under its guard: `SMP[255](BLK[0], ..., BLK[254])`, 516 bytes, goes out, `cnt` is 0, and
nothing else changes. -/
def Obligations.FlushSendsTheFullBatch : Prop :=
  ∀ s : State, s.sess = .active → s.cnt = 255 →
    ∃ bytes, exec .qFlush s = .next { s with tx := s.tx ++ bytes, cnt := 0 } ∧ bytes.length = 516 ∧
      bytes = [0x00, 0x00, 0x01, 0xFF] ++ ((List.range 255).map (blkAt s)).flatMap sampleBytes ++ [0x00, 0x80]

/-- R128: `Q.TIMEOUT` completes under its guard: a SampleBlock with the `cnt` Samples of the batch if there are any, then
`EOS`; `cnt` is 0 and the session Idle; the ring's registers and everything else are unchanged. -/
def Obligations.TimeoutClosesTheSession : Prop :=
  ∀ s : State, s.sess = .active → s.rd + s.dropR = s.headR → expired s = true → s.cnt ≠ 255 →
    (s.cnt = 0 → exec .qTimeout s =
      .next { s with tx := s.tx ++ [0x00, 0x80, 0x00, 0x80], cnt := 0, sess := .idle }) ∧
    (s.cnt ≠ 0 → exec .qTimeout s = .next { s with
      tx := s.tx ++ ([0x00, 0x00, 0x01, s.cnt] ++
        ((List.range s.cnt.toNat).map (blkAt s)).flatMap sampleBytes ++ [0x00, 0x80]) ++ [0x00, 0x80, 0x00, 0x80],
      cnt := 0, sess := .idle })

/-- R130: `Q.IDLE` completes when no other guard of R123 holds, and changes nothing. -/
def Obligations.IdleChangesNothing : Prop :=
  ∀ s : State, s.rd + s.dropR = s.headR → (s.sess = .active → s.cnt ≠ 255 ∧ expired s = false) →
    exec .qIdle s = .next s

/-! ## Agent H: the parts of RX -/

/-- R141: `RX.APPEND` completes: with room the byte goes behind the others; a full buffer is emptied first, with
`EV_BUF_RESET`. `started`, the window, `raw` and `smp` are unchanged, and nothing that is not H's changes. -/
def Obligations.AppendStoresTheByte : Prop :=
  ∀ (b : Byte) (s : State), s.len.toNat ≤ 600 →
    ∃ t, exec (.rxAppend b) s = .next t ∧ OnlyH s t ∧ t.started = s.started ∧ t.win = s.win ∧ t.winN = s.winN ∧
      t.raw = s.raw ∧ t.smp = s.smp ∧
      (s.len.toNat < 600 → (decoderOf t).buf = (decoderOf s).buf ++ [b] ∧ t.len = s.len + 1 ∧ t.hev = s.hev) ∧
      (s.len.toNat = 600 → (decoderOf t).buf = [b] ∧ t.len = 1 ∧ t.hev = s.hev ++ [.bufReset])

/-- R142, R143: `RX.EOS` completes: the byte enters the window, `win_n` grows to at most 4; on `00 80 00 80` the residue goes
to `raw`, `EOS(len)` is reported, and the buffer, `started` and `win_n` are cleared; otherwise nothing else changes. -/
def Obligations.SentinelEndsTheSession : Prop :=
  ∀ (b : Byte) (s : State), s.len.toNat ≤ 600 →
    ∃ t, exec (.rxEos b) s = .next t ∧ OnlyH s t ∧ t.win = ⟨s.win.w1, s.win.w2, s.win.w3, b⟩ ∧ t.smp = s.smp ∧
      (3 ≤ s.winN.toNat ∧ s.win.w1 = 0x00 ∧ s.win.w2 = 0x80 ∧ s.win.w3 = 0x00 ∧ b = 0x80 →
        t.raw = s.raw ++ (decoderOf s).buf ∧ t.hev = s.hev ++ [.eos s.len.toNat] ∧ t.len = 0 ∧
        t.started = false ∧ t.winN = 0) ∧
      (¬ (3 ≤ s.winN.toNat ∧ s.win.w1 = 0x00 ∧ s.win.w2 = 0x80 ∧ s.win.w3 = 0x00 ∧ b = 0x80) →
        t.winN.toNat = min (s.winN.toNat + 1) 4 ∧ (decoderOf t).buf = (decoderOf s).buf ∧ t.len = s.len ∧
        t.started = s.started ∧ t.raw = s.raw ∧ t.hev = s.hev)

/-- R144: `RX.SLIDE` completes: leading bytes leave one by one, each with its `EV_SLIDE`, as long as two bytes are there and
they are not `00 00`, and no longer; nothing else changes. -/
def Obligations.SlideHuntsForTheNextStart : Prop :=
  ∀ s : State, s.len.toNat ≤ 600 →
    ∃ (t : State) (gone kept : List Byte), exec .rxSlide s = .next t ∧ OnlyH s t ∧
      (decoderOf s).buf = gone ++ kept ∧ (decoderOf t).buf = kept ∧ t.len.toNat = kept.length ∧
      t.hev = s.hev ++ gone.map .slide ∧
      (kept.length ≤ 1 ∨ [0x00, 0x00] <+: kept) ∧
      (∀ k, k < gone.length → 2 ≤ ((gone ++ kept).drop k).length ∧ ¬ [0x00, 0x00] <+: (gone ++ kept).drop k) ∧
      t.started = s.started ∧ t.win = s.win ∧ t.winN = s.winN ∧ t.raw = s.raw ∧ t.smp = s.smp

/-- R147: `RX.HDR` completes when `BUF` begins `00 00 00 v 00 80` and H is not started: VERSION is reported whatever it is,
the six bytes go to `raw` and leave `BUF`, and H is started. -/
def Obligations.HeaderIsAccepted : Prop :=
  ∀ (v : Byte) (rest : List Byte) (s : State), s.len.toNat ≤ 600 → s.started = false →
    (decoderOf s).buf = [0x00, 0x00, 0x00, v, 0x00, 0x80] ++ rest →
    ∃ t, exec .rxHdr s = .next t ∧ OnlyH s t ∧ t.hev = s.hev ++ [.hdr v] ∧
      t.raw = s.raw ++ [0x00, 0x00, 0x00, v, 0x00, 0x80] ∧ t.started = true ∧ (decoderOf t).buf = rest ∧
      t.len.toNat = rest.length ∧ t.smp = s.smp ∧ t.win = s.win ∧ t.winN = s.winN

/-- R148: `RX.SMP` completes when H is started and `BUF` begins with `00 00 01 n`, `2n` payload bytes and `00 80`, `n ≥ 1`:
the block goes to `raw` and leaves `BUF`, Sample `i` is `BUF[4+2i] | (BUF[5+2i] << 8)`, and `SMP(n)` is reported. -/
def Obligations.SampleBlockIsAccepted : Prop :=
  ∀ (n : Byte) (payload rest : List Byte) (s : State), s.len.toNat ≤ 600 → s.started = true → n ≠ 0 →
    payload.length = 2 * n.toNat →
    (decoderOf s).buf = [0x00, 0x00, 0x01, n] ++ payload ++ [0x00, 0x80] ++ rest →
    ∃ t, exec .rxSmp s = .next t ∧ OnlyH s t ∧ t.hev = s.hev ++ [.smp n] ∧
      t.raw = s.raw ++ ([0x00, 0x00, 0x01, n] ++ payload ++ [0x00, 0x80]) ∧
      t.smp = s.smp ++ (List.range n.toNat).map (fun i =>
        (byteAt payload (2 * i)).setWidth 16 ||| ((byteAt payload (2 * i + 1)).setWidth 16 <<< 8)) ∧
      (decoderOf t).buf = rest ∧ t.len.toNat = rest.length ∧ t.started = true ∧ t.win = s.win ∧ t.winN = s.winN

/-- R149: `RX.WAIT` completes when H is started and `BUF` holds, of a SampleBlock with COUNT `n ≥ 1`, at least six but fewer
than `6 + 2n` bytes; it changes nothing. -/
def Obligations.IncompleteBlockWaits : Prop :=
  ∀ (n : Byte) (rest : List Byte) (s : State), s.len.toNat ≤ 600 → s.started = true → n ≠ 0 →
    (decoderOf s).buf = [0x00, 0x00, 0x01, n] ++ rest → 2 ≤ rest.length → rest.length < 2 + 2 * n.toNat →
    exec .rxWait s = .next s

/-- R150, R151: `RX.FAIL` completes for a candidate of at least six bytes in each of the six cases (a) to (f): the first four
bytes are reported and exactly one byte is discarded; nothing goes to `raw` or `smp`. -/
def Obligations.FailedCandidateLosesOneByte : Prop :=
  ∀ (type par : Byte) (rest : List Byte) (s : State), s.len.toNat ≤ 600 →
    (decoderOf s).buf = [0x00, 0x00, type, par] ++ rest → 2 ≤ rest.length →
    (type = 0x00 ∧ s.started = false ∧ rest.take 2 ≠ [0x00, 0x80] ∨
      type = 0x01 ∧ s.started = true ∧ par ≠ 0 ∧ 2 * par.toNat + 2 ≤ rest.length ∧
        (rest.drop (2 * par.toNat)).take 2 ≠ [0x00, 0x80] ∨
      type = 0x01 ∧ s.started = true ∧ par = 0 ∨
      type = 0x00 ∧ s.started = true ∨
      type = 0x01 ∧ s.started = false ∨
      2 ≤ type.toNat) →
    ∃ t, exec .rxFail s = .next t ∧ OnlyH s t ∧ t.hev = s.hev ++ [.desync 0x00 0x00 type par] ∧
      (decoderOf t).buf = [0x00, type, par] ++ rest ∧ t.len.toNat = 3 + rest.length ∧ t.raw = s.raw ∧
      t.smp = s.smp ∧ t.started = s.started ∧ t.win = s.win ∧ t.winN = s.winN

/-- R145: of a candidate of at least six bytes exactly one of `RX.HDR`, `RX.SMP`, `RX.WAIT` and `RX.FAIL` is enabled. -/
def Obligations.ExactlyOnePartApplies : Prop :=
  ∀ (rest : List Byte) (s : State), s.len.toNat ≤ 600 → (decoderOf s).buf = [0x00, 0x00] ++ rest → 4 ≤ rest.length →
    ∃ i, i ∈ [Instr.rxHdr, .rxSmp, .rxWait, .rxFail] ∧ (∃ t, exec i s = .next t) ∧
      ∀ j, j ∈ [Instr.rxHdr, .rxSmp, .rxWait, .rxFail] → j ≠ i → exec j s = .refused .notEnabled

/-! ## Agent H: RX -/

/-- R152: `RX(b)` is its parts in order: `RX.APPEND`, `RX.EOS`, and, when the window did not match, some run of enabled
`RX.SLIDE`, `RX.HDR`, `RX.SMP` and `RX.FAIL` that ends where nothing more applies or `RX.WAIT` does. -/
def Obligations.ReceiveIsItsPartsInOrder : Prop :=
  ∀ (b : Byte) (s : State), s.len.toNat ≤ 600 →
    ∃ (u t : State) (parts : List Instr), execAll [.rxAppend b, .rxEos b] s = .next u ∧ exec (.rx b) s = .next t ∧
      execAll parts u = .next t ∧ (∀ i ∈ parts, i ∈ [Instr.rxSlide, .rxHdr, .rxSmp, .rxFail]) ∧
      (u.winN = 0 → parts = []) ∧ (u.winN ≠ 0 → Settled (decoderOf t))

/-- R153: between `RX` steps `len ≤ 515`, so `EV_BUF_RESET` is never raised; every `RX` completes and ends at the sentinel,
with `len < 6`, or in `RX.WAIT` with `len < L ≤ 516`. -/
def Obligations.ReceiveNeverFillsTheBuffer : Prop :=
  ∀ (b : Byte) (s : State), s.len.toNat ≤ 515 →
    ∃ (t : State) (news : List HEvent), exec (.rx b) s = .next t ∧ OnlyH s t ∧ t.len.toNat ≤ 515 ∧
      t.hev = s.hev ++ news ∧ .bufReset ∉ news ∧
      (t.len = 0 ∨ t.len.toNat < 6 ∨
        classify t.started (decoderOf t).buf = .wait ∧ t.len.toNat < unitLength (decoderOf t).buf ∧
          unitLength (decoderOf t).buf ≤ 516)

/-- R142, R143, R170: the sentinel test comes before any block is looked at: when the byte completes `00 80 00 80` in the
window, `RX` ends the session and takes everything buffered, the byte included, as residue. -/
def Obligations.SentinelBeatsTheBlockItCompletes : Prop :=
  ∀ s : State, s.len.toNat < 600 → 3 ≤ s.winN.toNat → s.win.w1 = 0x00 → s.win.w2 = 0x80 → s.win.w3 = 0x00 →
    ∃ t, exec (.rx 0x80) s = .next t ∧ OnlyH s t ∧ t.raw = s.raw ++ (decoderOf s).buf ++ [0x80] ∧
      t.hev = s.hev ++ [.eos (s.len.toNat + 1)] ∧ t.smp = s.smp ∧ t.len = 0 ∧ t.started = false ∧ t.winN = 0

/-- R177: what an operation does depends on what its agent reads alone. P reads its own registers and `rd_w`; Q its own and
its three shadows, and for a `TAKE` `RING` and, because they say which slots are occupied, the true `head` and `drop` (R111);
S the shadow it moves and its source; H its own registers and buffer and the byte. -/
def Obligations.OperationsDependOnWhatTheirAgentReads : Prop :=
  ∀ (i : Instr) (s1 s2 t1 : State), exec i s1 = .next t1 →
    (agentOf i = .p → SameP s1 s2 → s2.rdW = s1.rdW → ∃ t2, exec i s2 = .next t2 ∧ SameP t1 t2) ∧
    (agentOf i = .q → SameQ s1 s2 → s2.headR = s1.headR → s2.dropR = s1.dropR → s2.tsR = s1.tsR →
      (i = .take ∨ i = .qPop → s2.ring = s1.ring ∧ s2.head = s1.head ∧ s2.drop = s1.drop) →
      ∃ t2, exec i s2 = .next t2 ∧ SameQ t1 t2) ∧
    (agentOf i = .h → decoderOf s1 = decoderOf s2 → ∃ t2, exec i s2 = .next t2 ∧ decoderOf t1 = decoderOf t2) ∧
    (∀ n, i = .syncHead n → s2.head = s1.head → s2.headR = s1.headR →
      ∃ t2, exec i s2 = .next t2 ∧ t2.headR = t1.headR) ∧
    (∀ n, i = .syncDrop n → s2.drop = s1.drop → s2.dropR = s1.dropR →
      ∃ t2, exec i s2 = .next t2 ∧ t2.dropR = t1.dropR) ∧
    (∀ n, i = .syncTs n → s2.ts = s1.ts → s2.tsR = s1.tsR → ∃ t2, exec i s2 = .next t2 ∧ t2.tsR = t1.tsR) ∧
    ∀ n, i = .syncRd n → s2.rd = s1.rd → s2.rdW = s1.rdW → ∃ t2, exec i s2 = .next t2 ∧ t2.rdW = t1.rdW

/-! ## Wire units at H -/

/-- A wire unit or a Sample word, as one operation, is one `RX` for each of its bytes, first byte first (R67, R70, R72 to R75;
that it is one operation of the model is logs 3 and 4): `HDR`, `SMP`, `EOS`, `SAMPLE.R` and `SAMPLE.F` complete, for every
operand, and nothing that is not H's changes. -/
def Obligations.WireUnitsAreOneReceiveForEachByte : Prop :=
  ∀ (v : Byte) (samples : List Sample) (delay : Delay) (s : State), s.len.toNat ≤ 515 →
    ∀ (i : Instr) (bytes : List Byte),
      (i, bytes) ∈ [
        (Instr.hdr v, [0x00, 0x00, 0x00, v, 0x00, 0x80]),
        (Instr.smp samples, [0x00, 0x00, 0x01, BitVec.ofNat 8 samples.length] ++
          samples.flatMap (fun x : Sample => [x.setWidth 8, (x >>> 8).setWidth 8]) ++ [0x00, 0x80]),
        (Instr.eos, [0x00, 0x80, 0x00, 0x80]),
        (Instr.sampleR delay, [delay.setWidth 8, 0x80 ||| (delay >>> 8).setWidth 8]),
        (Instr.sampleF delay, [delay.setWidth 8, (delay >>> 8).setWidth 8])] →
      ∃ t, exec i s = .next t ∧ execAll (bytes.map .rx) s = .next t ∧ OnlyH s t ∧ t.len.toNat ≤ 515

/-- R154: a SampleBlock of 1 to 255 Samples, received by a started H with an empty buffer and no sentinel on the way, appends
exactly its Samples to `smp` and exactly its bytes to `raw`, is reported once, and leaves the buffer empty. -/
def Obligations.SampleBlockRoundTrip : Prop :=
  ∀ (samples : List Sample) (s : State), 1 ≤ samples.length → samples.length ≤ 255 → s.started = true → s.len = 0 →
    NoSentinel (decoderOf s) (smpBytes samples) →
    ∃ t, exec (.smp samples) s = .next t ∧ OnlyH s t ∧ t.smp = s.smp ++ samples ∧
      t.raw = s.raw ++ smpBytes samples ∧ t.hev = s.hev ++ [.smp (BitVec.ofNat 8 samples.length)] ∧ t.len = 0 ∧
      t.started = true

/-- R154: `HDR(v)`, received by an H that is not started and has an empty buffer, with no sentinel on the way, is reported and
starts H. -/
def Obligations.HeaderRoundTrip : Prop :=
  ∀ (v : Byte) (s : State), s.started = false → s.len = 0 → NoSentinel (decoderOf s) (hdrBytes v) →
    ∃ t, exec (.hdr v) s = .next t ∧ OnlyH s t ∧ t.hev = s.hev ++ [.hdr v] ∧ t.raw = s.raw ++ hdrBytes v ∧
      t.smp = s.smp ∧ t.len = 0 ∧ t.started = true

/-- R155: an `EOS` that follows an `END` is seen at its second byte, with residue `00 80`; of its last two bytes `00` is slid
out and a lone `80` stays; `EOS` is reported exactly once. -/
def Obligations.SentinelAfterAnEndLeavesOneByte : Prop :=
  ∀ s : State, s.len = 0 → 2 ≤ s.winN.toNat → s.win.w2 = 0x00 → s.win.w3 = 0x80 →
    ∃ t, exec .eos s = .next t ∧ OnlyH s t ∧ t.raw = s.raw ++ [0x00, 0x80] ∧
      t.hev = s.hev ++ [.eos 2, .slide 0x00] ∧ t.smp = s.smp ∧ t.started = false ∧ t.len = 1 ∧
      (decoderOf t).buf = [0x80] ∧ t.winN = 2

/-- R156: a SampleBlock whose last Sample is `0x8000` is a false sentinel: the whole block goes to `raw` as residue, none of
its Samples to `smp`, and the session ends. -/
def Obligations.ZeroRisingLastSampleIsAFalseSentinel : Prop :=
  ∀ (samples : List Sample) (s : State), samples.length ≤ 254 → s.started = true → s.len = 0 →
    NoSentinel (decoderOf s) (smpBytes (samples ++ [0x8000])).dropLast →
    ∃ t, exec (.smp (samples ++ [0x8000])) s = .next t ∧ OnlyH s t ∧ t.smp = s.smp ∧
      t.raw = s.raw ++ smpBytes (samples ++ [0x8000]) ∧ t.hev = s.hev ++ [.eos (8 + 2 * samples.length)] ∧
      t.started = false ∧ t.len = 0

/-- R154, R155: a whole clean session (a header, any number of SampleBlocks, the sentinel) received by an H that is not
started and has an empty buffer: `smp` grows by exactly the Samples, in order; `raw` by the header, the blocks and the residue
`00 80`; each unit is reported once. -/
def Obligations.CleanSessionIsDecoded : Prop :=
  ∀ (v : Byte) (blocks : List (List Sample)) (s : State), (∀ b ∈ blocks, 1 ≤ b.length ∧ b.length ≤ 255) →
    s.started = false → s.len = 0 → NoSentinel (decoderOf s) (hdrBytes v ++ blocks.flatMap smpBytes) →
    ∃ t, execAll ([.hdr v] ++ blocks.map .smp ++ [.eos]) s = .next t ∧ OnlyH s t ∧
      t.smp = s.smp ++ blocks.flatten ∧ t.raw = s.raw ++ hdrBytes v ++ blocks.flatMap smpBytes ++ [0x00, 0x80] ∧
      t.hev = s.hev ++ [.hdr v] ++ blocks.map (fun b => .smp (BitVec.ofNat 8 b.length)) ++ [.eos 2, .slide 0x00] ∧
      t.started = false ∧ (decoderOf t).buf = [0x80]

/-- R159: re-running the decoder on the raw capture of a clean session reproduces the same Samples and the same `raw`, with
one `EOS(2)`, and leaves the buffer empty. -/
def Obligations.RawCaptureReproducesTheSamples : Prop :=
  ∀ (v : Byte) (blocks : List (List Sample)) (s : State), (∀ b ∈ blocks, 1 ≤ b.length ∧ b.length ≤ 255) →
    s.started = false → s.len = 0 → NoSentinel (decoderOf s) (hdrBytes v ++ blocks.flatMap smpBytes) →
    ∃ t, execAll ((hdrBytes v ++ blocks.flatMap smpBytes ++ [0x00, 0x80]).map .rx) s = .next t ∧
      t.smp = s.smp ++ blocks.flatten ∧ t.raw = s.raw ++ (hdrBytes v ++ blocks.flatMap smpBytes ++ [0x00, 0x80]) ∧
      t.hev = s.hev ++ [.hdr v] ++ blocks.map (fun b => .smp (BitVec.ofNat 8 b.length)) ++ [.eos 2] ∧ t.len = 0 ∧
      t.started = false
end

