-- ==== Sys2Proof/Laws/Memory.lean ====
section
/-! SUPPORT. The laws of the arrays: a read after a write, the canonical form that every write keeps, and the list of
consecutive elements. -/

namespace Sys2Proof.Machine

theorem readCell_writeCell {α : Type} (cells : List (Nat × α)) (i j : Nat) (v : α) :
    readCell (writeCell cells i v) j = if i = j then some v else readCell cells j := by
  induction cells with
  | nil => simp [writeCell, readCell]
  | cons p rest ih =>
    obtain ⟨k, w⟩ := p
    simp only [writeCell]
    split
    · simp [readCell]
    · split
      · subst_vars
        simp only [readCell]
        split <;> simp_all
      · simp only [readCell, ih]
        split <;> split <;> simp_all

@[simp] theorem readCell_writeCell_same {α : Type} (cells : List (Nat × α)) (i : Nat) (v : α) :
    readCell (writeCell cells i v) i = some v := by
  simp [readCell_writeCell]

theorem readCell_writeCell_other {α : Type} (cells : List (Nat × α)) {i j : Nat} (v : α) (h : j ≠ i) :
    readCell (writeCell cells i v) j = readCell cells j := by
  rw [readCell_writeCell, if_neg (Ne.symm h)]

theorem mem_writeCell {α : Type} {cells : List (Nat × α)} {i : Nat} {v : α} {p : Nat × α}
    (h : p ∈ writeCell cells i v) : p = (i, v) ∨ p ∈ cells := by
  induction cells with
  | nil => simpa [writeCell] using h
  | cons q rest ih =>
    obtain ⟨k, w⟩ := q
    simp only [writeCell] at h
    split at h
    · simpa using h
    · split at h
      · rcases List.mem_cons.mp h with h | h
        · exact .inl h
        · exact .inr (List.mem_cons_of_mem _ h)
      · rcases List.mem_cons.mp h with h | h
        · exact .inr (h ▸ List.mem_cons_self)
        · exact (ih h).imp id (List.mem_cons_of_mem _)

/-- A write inside the array keeps the canonical form. -/
theorem cellsWf_writeCell {α : Type} {size : Nat} {cells : List (Nat × α)} {i : Nat} (v : α)
    (hwf : CellsWf size cells) (hi : i < size) : CellsWf size (writeCell cells i v) := by
  induction cells with
  | nil => simpa [writeCell, CellsWf] using hi
  | cons p rest ih =>
    obtain ⟨k, w⟩ := p
    obtain ⟨hrise, hbound⟩ := hwf
    simp only [List.map_cons, List.pairwise_cons, List.mem_map] at hrise
    have hrest : CellsWf size rest := ⟨hrise.2, fun q hq => hbound q (List.mem_cons_of_mem _ hq)⟩
    have hk : k < size := hbound (k, w) List.mem_cons_self
    simp only [writeCell]
    split
    · rename_i hlt
      refine ⟨?_, ?_⟩
      · simp only [List.map_cons, List.pairwise_cons, List.mem_cons, List.mem_map]
        refine ⟨?_, hrise⟩
        rintro a (rfl | ⟨q, hq, rfl⟩)
        · exact hlt
        · exact hlt.trans (hrise.1 q.1 ⟨q, hq, rfl⟩)
      · intro q hq
        rcases List.mem_cons.mp hq with rfl | hq
        · exact hi
        · exact hbound q hq
    · split
      · subst_vars
        refine ⟨?_, ?_⟩
        · simpa [List.pairwise_cons] using hrise
        · intro q hq
          rcases List.mem_cons.mp hq with rfl | hq
          · exact hi
          · exact hrest.2 q hq
      · rename_i h1 h2
        have hki : k < i := by omega
        obtain ⟨ih1, ih2⟩ := ih hrest
        refine ⟨?_, ?_⟩
        · simp only [List.map_cons, List.pairwise_cons, List.mem_map]
          refine ⟨?_, ih1⟩
          rintro a ⟨q, hq, rfl⟩
          rcases mem_writeCell hq with rfl | hq
          · exact hki
          · exact hrise.1 q.1 ⟨q, hq, rfl⟩
        · intro q hq
          rcases List.mem_cons.mp hq with rfl | hq
          · exact hk
          · exact ih2 q hq

theorem readCell_cellsFrom {α : Type} (l : List α) (i j : Nat) :
    readCell (cellsFrom i l) j = if j < i then none else l[j - i]? := by
  induction l generalizing i with
  | nil => simp [cellsFrom, readCell]
  | cons v vs ih =>
    simp only [cellsFrom, readCell, ih]
    rcases Nat.lt_trichotomy j i with h | h | h
    · simp [h, show j < i + 1 by omega, show ¬ i = j by omega]
    · subst h
      simp
    · rw [if_neg (by omega), if_neg (by omega), if_neg (by omega)]
      have h2 : j - i = (j - (i + 1)) + 1 := by omega
      rw [h2, List.getElem?_cons_succ]

/-- The element at an index of a list laid out from 0. -/
theorem readCell_cellsFrom_zero {α : Type} (l : List α) (j : Nat) : readCell (cellsFrom 0 l) j = l[j]? := by
  simp [readCell_cellsFrom]

theorem mem_cellsFrom {α : Type} {l : List α} {i : Nat} {p : Nat × α} (h : p ∈ cellsFrom i l) :
    i ≤ p.1 ∧ p.1 < i + l.length := by
  induction l generalizing i with
  | nil => simp [cellsFrom] at h
  | cons v vs ih =>
    rcases List.mem_cons.mp h with rfl | h
    · simp
    · have := ih h
      simp only [List.length_cons]
      omega

theorem cellsWf_cellsFrom {α : Type} {size : Nat} (l : List α) (i : Nat) (h : i + l.length ≤ size) :
    CellsWf size (cellsFrom i l) := by
  refine ⟨?_, fun p hp => lt_of_lt_of_le (mem_cellsFrom hp).2 h⟩
  clear h
  induction l generalizing i with
  | nil => simp [cellsFrom]
  | cons v vs ih =>
    simp only [cellsFrom, List.map_cons, List.pairwise_cons, List.mem_map]
    refine ⟨?_, ih (i + 1)⟩
    rintro a ⟨p, hp, rfl⟩
    exact (mem_cellsFrom hp).1

end Sys2Proof.Machine
end

