-- ==== Sys2Proof/Laws/State.lean ====
section
/-! SUPPORT. What each named update of the state does to each field: one lemma a field, true by rfl. -/

namespace Sys2Proof.Machine

/-! ## `pushSample` -/

@[simp] theorem pushSample_ts (v : Sample) (s : State) : (pushSample v s).ts = s.ts := rfl
@[simp] theorem pushSample_sigQ (v : Sample) (s : State) : (pushSample v s).sigQ = s.sigQ := rfl
@[simp] theorem pushSample_prevTs (v : Sample) (s : State) : (pushSample v s).prevTs = s.prevTs := rfl
@[simp] theorem pushSample_head (v : Sample) (s : State) : (pushSample v s).head = s.head + 1 := rfl
@[simp] theorem pushSample_drop (v : Sample) (s : State) :
    (pushSample v s).drop =
      if fullW s then s.drop + 1 else s.drop := rfl
@[simp] theorem pushSample_rdW (v : Sample) (s : State) : (pushSample v s).rdW = s.rdW := rfl
@[simp] theorem pushSample_rd (v : Sample) (s : State) : (pushSample v s).rd = s.rd := rfl
@[simp] theorem pushSample_headR (v : Sample) (s : State) : (pushSample v s).headR = s.headR := rfl
@[simp] theorem pushSample_dropR (v : Sample) (s : State) : (pushSample v s).dropR = s.dropR := rfl
@[simp] theorem pushSample_tsR (v : Sample) (s : State) : (pushSample v s).tsR = s.tsR := rfl
@[simp] theorem pushSample_sess (v : Sample) (s : State) : (pushSample v s).sess = s.sess := rfl
@[simp] theorem pushSample_cnt (v : Sample) (s : State) : (pushSample v s).cnt = s.cnt := rfl
@[simp] theorem pushSample_lastAct (v : Sample) (s : State) : (pushSample v s).lastAct = s.lastAct := rfl
@[simp] theorem pushSample_tx (v : Sample) (s : State) : (pushSample v s).tx = s.tx := rfl
@[simp] theorem pushSample_len (v : Sample) (s : State) : (pushSample v s).len = s.len := rfl
@[simp] theorem pushSample_started (v : Sample) (s : State) : (pushSample v s).started = s.started := rfl
@[simp] theorem pushSample_win (v : Sample) (s : State) : (pushSample v s).win = s.win := rfl
@[simp] theorem pushSample_winN (v : Sample) (s : State) : (pushSample v s).winN = s.winN := rfl
@[simp] theorem pushSample_ring (v : Sample) (s : State) :
    (pushSample v s).ring =
      writeCell s.ring s.head.toNat v := rfl
@[simp] theorem pushSample_blk (v : Sample) (s : State) : (pushSample v s).blk = s.blk := rfl
@[simp] theorem pushSample_buf (v : Sample) (s : State) : (pushSample v s).buf = s.buf := rfl
@[simp] theorem pushSample_raw (v : Sample) (s : State) : (pushSample v s).raw = s.raw := rfl
@[simp] theorem pushSample_smp (v : Sample) (s : State) : (pushSample v s).smp = s.smp := rfl
@[simp] theorem pushSample_hev (v : Sample) (s : State) : (pushSample v s).hev = s.hev := rfl
@[simp] theorem pushSample_pev (v : Sample) (s : State) :
    (pushSample v s).pev =
      s.pev ++ raised (fullW s) .overflow := rfl
@[simp] theorem pushSample_taken (v : Sample) (s : State) : (pushSample v s).taken = s.taken := rfl
@[simp] theorem pushSample_draws (v : Sample) (s : State) : (pushSample v s).draws = s.draws := rfl
@[simp] theorem pushSample_inputs (v : Sample) (s : State) : (pushSample v s).inputs = s.inputs := rfl
@[simp] theorem pushSample_envN (v : Sample) (s : State) : (pushSample v s).envN = s.envN := rfl

/-! ## `encodeEdge` -/

@[simp] theorem encodeEdge_ts (dir : Bool) (t : Stamp) (s : State) : (encodeEdge dir t s).ts = s.ts := rfl
@[simp] theorem encodeEdge_sigQ (dir : Bool) (t : Stamp) (s : State) : (encodeEdge dir t s).sigQ = s.sigQ := rfl
@[simp] theorem encodeEdge_prevTs (dir : Bool) (t : Stamp) (s : State) : (encodeEdge dir t s).prevTs = t := rfl
@[simp] theorem encodeEdge_head (dir : Bool) (t : Stamp) (s : State) : (encodeEdge dir t s).head = s.head + 1 := rfl
@[simp] theorem encodeEdge_drop (dir : Bool) (t : Stamp) (s : State) :
    (encodeEdge dir t s).drop =
      if fullW s then s.drop + 1 else s.drop := rfl
@[simp] theorem encodeEdge_rdW (dir : Bool) (t : Stamp) (s : State) : (encodeEdge dir t s).rdW = s.rdW := rfl
@[simp] theorem encodeEdge_rd (dir : Bool) (t : Stamp) (s : State) : (encodeEdge dir t s).rd = s.rd := rfl
@[simp] theorem encodeEdge_headR (dir : Bool) (t : Stamp) (s : State) : (encodeEdge dir t s).headR = s.headR := rfl
@[simp] theorem encodeEdge_dropR (dir : Bool) (t : Stamp) (s : State) : (encodeEdge dir t s).dropR = s.dropR := rfl
@[simp] theorem encodeEdge_tsR (dir : Bool) (t : Stamp) (s : State) : (encodeEdge dir t s).tsR = s.tsR := rfl
@[simp] theorem encodeEdge_sess (dir : Bool) (t : Stamp) (s : State) : (encodeEdge dir t s).sess = s.sess := rfl
@[simp] theorem encodeEdge_cnt (dir : Bool) (t : Stamp) (s : State) : (encodeEdge dir t s).cnt = s.cnt := rfl
@[simp] theorem encodeEdge_lastAct (dir : Bool) (t : Stamp) (s : State) :
    (encodeEdge dir t s).lastAct =
      s.lastAct := rfl
@[simp] theorem encodeEdge_tx (dir : Bool) (t : Stamp) (s : State) : (encodeEdge dir t s).tx = s.tx := rfl
@[simp] theorem encodeEdge_len (dir : Bool) (t : Stamp) (s : State) : (encodeEdge dir t s).len = s.len := rfl
@[simp] theorem encodeEdge_started (dir : Bool) (t : Stamp) (s : State) :
    (encodeEdge dir t s).started =
      s.started := rfl
@[simp] theorem encodeEdge_win (dir : Bool) (t : Stamp) (s : State) : (encodeEdge dir t s).win = s.win := rfl
@[simp] theorem encodeEdge_winN (dir : Bool) (t : Stamp) (s : State) : (encodeEdge dir t s).winN = s.winN := rfl
@[simp] theorem encodeEdge_ring (dir : Bool) (t : Stamp) (s : State) :
    (encodeEdge dir t s).ring =
      writeCell s.ring s.head.toNat (packSample dir (delayOf (delta32 s.prevTs t))) := rfl
@[simp] theorem encodeEdge_blk (dir : Bool) (t : Stamp) (s : State) : (encodeEdge dir t s).blk = s.blk := rfl
@[simp] theorem encodeEdge_buf (dir : Bool) (t : Stamp) (s : State) : (encodeEdge dir t s).buf = s.buf := rfl
@[simp] theorem encodeEdge_raw (dir : Bool) (t : Stamp) (s : State) : (encodeEdge dir t s).raw = s.raw := rfl
@[simp] theorem encodeEdge_smp (dir : Bool) (t : Stamp) (s : State) : (encodeEdge dir t s).smp = s.smp := rfl
@[simp] theorem encodeEdge_hev (dir : Bool) (t : Stamp) (s : State) : (encodeEdge dir t s).hev = s.hev := rfl
@[simp] theorem encodeEdge_pev (dir : Bool) (t : Stamp) (s : State) :
    (encodeEdge dir t s).pev =
      s.pev ++ raised (saturates (delta32 s.prevTs t)) (.saturated (delta32 s.prevTs t)) ++ raised (fullW s) .overflow := rfl
@[simp] theorem encodeEdge_taken (dir : Bool) (t : Stamp) (s : State) : (encodeEdge dir t s).taken = s.taken := rfl
@[simp] theorem encodeEdge_draws (dir : Bool) (t : Stamp) (s : State) : (encodeEdge dir t s).draws = s.draws := rfl
@[simp] theorem encodeEdge_inputs (dir : Bool) (t : Stamp) (s : State) : (encodeEdge dir t s).inputs = s.inputs := rfl
@[simp] theorem encodeEdge_envN (dir : Bool) (t : Stamp) (s : State) : (encodeEdge dir t s).envN = s.envN := rfl

/-! ## `takeSample` -/

@[simp] theorem takeSample_ts (s : State) : (takeSample s).ts = s.ts := rfl
@[simp] theorem takeSample_sigQ (s : State) : (takeSample s).sigQ = s.sigQ := rfl
@[simp] theorem takeSample_prevTs (s : State) : (takeSample s).prevTs = s.prevTs := rfl
@[simp] theorem takeSample_head (s : State) : (takeSample s).head = s.head := rfl
@[simp] theorem takeSample_drop (s : State) : (takeSample s).drop = s.drop := rfl
@[simp] theorem takeSample_rdW (s : State) : (takeSample s).rdW = s.rdW := rfl
@[simp] theorem takeSample_rd (s : State) : (takeSample s).rd = s.rd + 1 := rfl
@[simp] theorem takeSample_headR (s : State) : (takeSample s).headR = s.headR := rfl
@[simp] theorem takeSample_dropR (s : State) : (takeSample s).dropR = s.dropR := rfl
@[simp] theorem takeSample_tsR (s : State) : (takeSample s).tsR = s.tsR := rfl
@[simp] theorem takeSample_sess (s : State) : (takeSample s).sess = s.sess := rfl
@[simp] theorem takeSample_cnt (s : State) : (takeSample s).cnt = s.cnt := rfl
@[simp] theorem takeSample_lastAct (s : State) : (takeSample s).lastAct = s.lastAct := rfl
@[simp] theorem takeSample_tx (s : State) : (takeSample s).tx = s.tx := rfl
@[simp] theorem takeSample_len (s : State) : (takeSample s).len = s.len := rfl
@[simp] theorem takeSample_started (s : State) : (takeSample s).started = s.started := rfl
@[simp] theorem takeSample_win (s : State) : (takeSample s).win = s.win := rfl
@[simp] theorem takeSample_winN (s : State) : (takeSample s).winN = s.winN := rfl
@[simp] theorem takeSample_ring (s : State) : (takeSample s).ring = s.ring := rfl
@[simp] theorem takeSample_blk (s : State) : (takeSample s).blk = s.blk := rfl
@[simp] theorem takeSample_buf (s : State) : (takeSample s).buf = s.buf := rfl
@[simp] theorem takeSample_raw (s : State) : (takeSample s).raw = s.raw := rfl
@[simp] theorem takeSample_smp (s : State) : (takeSample s).smp = s.smp := rfl
@[simp] theorem takeSample_hev (s : State) : (takeSample s).hev = s.hev := rfl
@[simp] theorem takeSample_pev (s : State) : (takeSample s).pev = s.pev := rfl
theorem takeSample_taken (s : State) :
    (takeSample s).taken =
      (promisedSample s (tailR s)).getD (Config.draw16 s.draws) := rfl
theorem takeSample_draws (s : State) :
    (takeSample s).draws =
      if (promisedSample s (tailR s)).isSome then s.draws else s.draws + 1 := rfl
@[simp] theorem takeSample_inputs (s : State) : (takeSample s).inputs = s.inputs := rfl
@[simp] theorem takeSample_envN (s : State) : (takeSample s).envN = s.envN := rfl

/-! ## `withDecoder` -/

@[simp] theorem withDecoder_ts (s : State) (d : Decoder) : (withDecoder s d).ts = s.ts := rfl
@[simp] theorem withDecoder_sigQ (s : State) (d : Decoder) : (withDecoder s d).sigQ = s.sigQ := rfl
@[simp] theorem withDecoder_prevTs (s : State) (d : Decoder) : (withDecoder s d).prevTs = s.prevTs := rfl
@[simp] theorem withDecoder_head (s : State) (d : Decoder) : (withDecoder s d).head = s.head := rfl
@[simp] theorem withDecoder_drop (s : State) (d : Decoder) : (withDecoder s d).drop = s.drop := rfl
@[simp] theorem withDecoder_rdW (s : State) (d : Decoder) : (withDecoder s d).rdW = s.rdW := rfl
@[simp] theorem withDecoder_rd (s : State) (d : Decoder) : (withDecoder s d).rd = s.rd := rfl
@[simp] theorem withDecoder_headR (s : State) (d : Decoder) : (withDecoder s d).headR = s.headR := rfl
@[simp] theorem withDecoder_dropR (s : State) (d : Decoder) : (withDecoder s d).dropR = s.dropR := rfl
@[simp] theorem withDecoder_tsR (s : State) (d : Decoder) : (withDecoder s d).tsR = s.tsR := rfl
@[simp] theorem withDecoder_sess (s : State) (d : Decoder) : (withDecoder s d).sess = s.sess := rfl
@[simp] theorem withDecoder_cnt (s : State) (d : Decoder) : (withDecoder s d).cnt = s.cnt := rfl
@[simp] theorem withDecoder_lastAct (s : State) (d : Decoder) : (withDecoder s d).lastAct = s.lastAct := rfl
@[simp] theorem withDecoder_tx (s : State) (d : Decoder) : (withDecoder s d).tx = s.tx := rfl
@[simp] theorem withDecoder_len (s : State) (d : Decoder) :
    (withDecoder s d).len =
      BitVec.ofNat 10 d.buf.length := rfl
@[simp] theorem withDecoder_started (s : State) (d : Decoder) : (withDecoder s d).started = d.started := rfl
@[simp] theorem withDecoder_win (s : State) (d : Decoder) : (withDecoder s d).win = d.win := rfl
@[simp] theorem withDecoder_winN (s : State) (d : Decoder) : (withDecoder s d).winN = d.winN := rfl
@[simp] theorem withDecoder_ring (s : State) (d : Decoder) : (withDecoder s d).ring = s.ring := rfl
@[simp] theorem withDecoder_blk (s : State) (d : Decoder) : (withDecoder s d).blk = s.blk := rfl
@[simp] theorem withDecoder_buf (s : State) (d : Decoder) : (withDecoder s d).buf = cellsFrom 0 d.buf := rfl
@[simp] theorem withDecoder_raw (s : State) (d : Decoder) : (withDecoder s d).raw = d.raw := rfl
@[simp] theorem withDecoder_smp (s : State) (d : Decoder) : (withDecoder s d).smp = d.smp := rfl
@[simp] theorem withDecoder_hev (s : State) (d : Decoder) : (withDecoder s d).hev = d.hev := rfl
@[simp] theorem withDecoder_pev (s : State) (d : Decoder) : (withDecoder s d).pev = s.pev := rfl
@[simp] theorem withDecoder_taken (s : State) (d : Decoder) : (withDecoder s d).taken = s.taken := rfl
@[simp] theorem withDecoder_draws (s : State) (d : Decoder) : (withDecoder s d).draws = s.draws := rfl
@[simp] theorem withDecoder_inputs (s : State) (d : Decoder) : (withDecoder s d).inputs = s.inputs := rfl
@[simp] theorem withDecoder_envN (s : State) (d : Decoder) : (withDecoder s d).envN = s.envN := rfl

/-- H owns all that `withDecoder` writes, so a second write hides a first. -/
@[simp] theorem withDecoder_withDecoder (s : State) (d e : Decoder) :
    withDecoder (withDecoder s d) e = withDecoder s e := rfl

/-! ## `decoderOf` -/

@[simp] theorem decoderOf_started (s : State) : (decoderOf s).started = s.started := rfl
@[simp] theorem decoderOf_win (s : State) : (decoderOf s).win = s.win := rfl
@[simp] theorem decoderOf_winN (s : State) : (decoderOf s).winN = s.winN := rfl
@[simp] theorem decoderOf_raw (s : State) : (decoderOf s).raw = s.raw := rfl
@[simp] theorem decoderOf_smp (s : State) : (decoderOf s).smp = s.smp := rfl
@[simp] theorem decoderOf_hev (s : State) : (decoderOf s).hev = s.hev := rfl

@[simp] theorem decoderOf_buf_length (s : State) : (decoderOf s).buf.length = s.len.toNat := by
  simp [decoderOf]

/-! ## `raiseH` -/

@[simp] theorem raiseH_buf (e : HEvent) (d : Decoder) : (raiseH e d).buf = d.buf := rfl
@[simp] theorem raiseH_started (e : HEvent) (d : Decoder) : (raiseH e d).started = d.started := rfl
@[simp] theorem raiseH_win (e : HEvent) (d : Decoder) : (raiseH e d).win = d.win := rfl
@[simp] theorem raiseH_winN (e : HEvent) (d : Decoder) : (raiseH e d).winN = d.winN := rfl
@[simp] theorem raiseH_raw (e : HEvent) (d : Decoder) : (raiseH e d).raw = d.raw := rfl
@[simp] theorem raiseH_smp (e : HEvent) (d : Decoder) : (raiseH e d).smp = d.smp := rfl
@[simp] theorem raiseH_hev (e : HEvent) (d : Decoder) : (raiseH e d).hev = d.hev ++ [e] := rfl

/-! ## `consume` -/

@[simp] theorem consume_buf (n : Nat) (d : Decoder) : (consume n d).buf = d.buf.drop n := rfl
@[simp] theorem consume_started (n : Nat) (d : Decoder) : (consume n d).started = d.started := rfl
@[simp] theorem consume_win (n : Nat) (d : Decoder) : (consume n d).win = d.win := rfl
@[simp] theorem consume_winN (n : Nat) (d : Decoder) : (consume n d).winN = d.winN := rfl
@[simp] theorem consume_raw (n : Nat) (d : Decoder) : (consume n d).raw = d.raw := rfl
@[simp] theorem consume_smp (n : Nat) (d : Decoder) : (consume n d).smp = d.smp := rfl
@[simp] theorem consume_hev (n : Nat) (d : Decoder) : (consume n d).hev = d.hev := rfl

/-! ## `shiftWindow` -/

@[simp] theorem shiftWindow_buf (b : Byte) (d : Decoder) : (shiftWindow b d).buf = d.buf := rfl
@[simp] theorem shiftWindow_started (b : Byte) (d : Decoder) : (shiftWindow b d).started = d.started := rfl
@[simp] theorem shiftWindow_win (b : Byte) (d : Decoder) :
    (shiftWindow b d).win =
      ⟨d.win.w1, d.win.w2, d.win.w3, b⟩ := rfl
@[simp] theorem shiftWindow_winN (b : Byte) (d : Decoder) :
    (shiftWindow b d).winN =
      BitVec.ofNat 3 (min (d.winN.toNat + 1) 4) := rfl
@[simp] theorem shiftWindow_raw (b : Byte) (d : Decoder) : (shiftWindow b d).raw = d.raw := rfl
@[simp] theorem shiftWindow_smp (b : Byte) (d : Decoder) : (shiftWindow b d).smp = d.smp := rfl
@[simp] theorem shiftWindow_hev (b : Byte) (d : Decoder) : (shiftWindow b d).hev = d.hev := rfl

/-! ## `endSession` -/

@[simp] theorem endSession_buf (d : Decoder) : (endSession d).buf = [] := rfl
@[simp] theorem endSession_started (d : Decoder) : (endSession d).started = false := rfl
@[simp] theorem endSession_win (d : Decoder) : (endSession d).win = d.win := rfl
@[simp] theorem endSession_winN (d : Decoder) : (endSession d).winN = 0 := rfl
@[simp] theorem endSession_raw (d : Decoder) : (endSession d).raw = d.raw ++ d.buf := rfl
@[simp] theorem endSession_smp (d : Decoder) : (endSession d).smp = d.smp := rfl
@[simp] theorem endSession_hev (d : Decoder) : (endSession d).hev = d.hev ++ [.eos d.buf.length] := rfl

/-! ## `slidePart` -/

@[simp] theorem slidePart_buf (d : Decoder) : (slidePart d).buf = d.buf.drop (slidBytes d.buf).length := rfl
@[simp] theorem slidePart_started (d : Decoder) : (slidePart d).started = d.started := rfl
@[simp] theorem slidePart_win (d : Decoder) : (slidePart d).win = d.win := rfl
@[simp] theorem slidePart_winN (d : Decoder) : (slidePart d).winN = d.winN := rfl
@[simp] theorem slidePart_raw (d : Decoder) : (slidePart d).raw = d.raw := rfl
@[simp] theorem slidePart_smp (d : Decoder) : (slidePart d).smp = d.smp := rfl
@[simp] theorem slidePart_hev (d : Decoder) : (slidePart d).hev = d.hev ++ (slidBytes d.buf).map .slide := rfl

/-! ## `acceptHeader` -/

@[simp] theorem acceptHeader_buf (d : Decoder) : (acceptHeader d).buf = d.buf.drop 6 := rfl
@[simp] theorem acceptHeader_started (d : Decoder) : (acceptHeader d).started = true := rfl
@[simp] theorem acceptHeader_win (d : Decoder) : (acceptHeader d).win = d.win := rfl
@[simp] theorem acceptHeader_winN (d : Decoder) : (acceptHeader d).winN = d.winN := rfl
@[simp] theorem acceptHeader_raw (d : Decoder) : (acceptHeader d).raw = d.raw ++ d.buf.take 6 := rfl
@[simp] theorem acceptHeader_smp (d : Decoder) : (acceptHeader d).smp = d.smp := rfl
@[simp] theorem acceptHeader_hev (d : Decoder) : (acceptHeader d).hev = d.hev ++ [.hdr (byteAt d.buf 3)] := rfl

/-! ## `acceptSamples` -/

@[simp] theorem acceptSamples_buf (d : Decoder) : (acceptSamples d).buf = d.buf.drop (unitLength d.buf) := rfl
@[simp] theorem acceptSamples_started (d : Decoder) : (acceptSamples d).started = d.started := rfl
@[simp] theorem acceptSamples_win (d : Decoder) : (acceptSamples d).win = d.win := rfl
@[simp] theorem acceptSamples_winN (d : Decoder) : (acceptSamples d).winN = d.winN := rfl
@[simp] theorem acceptSamples_raw (d : Decoder) :
    (acceptSamples d).raw =
      d.raw ++ d.buf.take (unitLength d.buf) := rfl
@[simp] theorem acceptSamples_smp (d : Decoder) :
    (acceptSamples d).smp =
      d.smp ++ payloadSamples (byteAt d.buf 3).toNat (d.buf.drop 4) := rfl
@[simp] theorem acceptSamples_hev (d : Decoder) : (acceptSamples d).hev = d.hev ++ [.smp (byteAt d.buf 3)] := rfl

/-! ## `failCandidate` -/

@[simp] theorem failCandidate_buf (d : Decoder) : (failCandidate d).buf = d.buf.drop 1 := rfl
@[simp] theorem failCandidate_started (d : Decoder) : (failCandidate d).started = d.started := rfl
@[simp] theorem failCandidate_win (d : Decoder) : (failCandidate d).win = d.win := rfl
@[simp] theorem failCandidate_winN (d : Decoder) : (failCandidate d).winN = d.winN := rfl
@[simp] theorem failCandidate_raw (d : Decoder) : (failCandidate d).raw = d.raw := rfl
@[simp] theorem failCandidate_smp (d : Decoder) : (failCandidate d).smp = d.smp := rfl
@[simp] theorem failCandidate_hev (d : Decoder) :
    (failCandidate d).hev =
      d.hev ++ [.desync (byteAt d.buf 0) (byteAt d.buf 1) (byteAt d.buf 2) (byteAt d.buf 3)] := rfl

end Sys2Proof.Machine
end

