-- ==== Sys2Proof/Laws/Ops.lean ====
section
/-! SUPPORT. For each shared operation, one lemma that says what it can do. -/

namespace Sys2Proof.Machine

/-! ## Outcomes -/

theorem whenEnabled_next {guard : Bool} {t u : State} :
    whenEnabled guard t = .next u ↔ guard = true ∧ t = u := by
  unfold whenEnabled
  split <;> simp_all

@[simp] theorem whenEnabled_true (t : State) : whenEnabled true t = .next t := rfl

@[simp] theorem whenEnabled_false (t : State) : whenEnabled false t = .refused .notEnabled := rfl

/-- An operation of H has a next state exactly when `len ≤ 600`. -/
theorem onDecoder_next {s u : State} {f : Decoder → Decoder} :
    onDecoder s f = .next u ↔ s.len.toNat ≤ 600 ∧ withDecoder s (f (decoderOf s)) = u := by
  unfold onDecoder
  by_cases h : s.len.toNat ≤ 600 <;> simp [h, Config.decBuf]

theorem onDecoder_of_le {s : State} (f : Decoder → Decoder) (h : s.len.toNat ≤ 600) :
    onDecoder s f = .next (withDecoder s (f (decoderOf s))) := onDecoder_next.mpr ⟨h, rfl⟩

theorem onDecoder_of_gt {s : State} (f : Decoder → Decoder) (h : 600 < s.len.toNat) :
    onDecoder s f = .fault .bufIndexOutOfRange := by
  unfold onDecoder
  rw [if_neg (by simpa [Config.decBuf] using h)]

theorem onCandidate_of_le {s : State} (p : Part) (f : Decoder → Decoder) (h : s.len.toNat ≤ 600) :
    onCandidate s p f =
      whenEnabled (classify s.started (decoderOf s).buf == p) (withDecoder s (f (decoderOf s))) := by
  unfold onCandidate
  rw [if_pos (by simpa [Config.decBuf] using h)]

theorem onCandidate_of_gt {s : State} (p : Part) (f : Decoder → Decoder) (h : 600 < s.len.toNat) :
    onCandidate s p f = .fault .bufIndexOutOfRange := by
  unfold onCandidate
  rw [if_neg (by simpa [Config.decBuf] using h)]

/-- A part of `RX` has a next state exactly when `len ≤ 600` and the front of `BUF` selects it. -/
theorem onCandidate_next {s u : State} {p : Part} {f : Decoder → Decoder} :
    onCandidate s p f = .next u ↔
      s.len.toNat ≤ 600 ∧ classify s.started (decoderOf s).buf = p ∧ withDecoder s (f (decoderOf s)) = u := by
  by_cases h : s.len.toNat ≤ 600
  · simp [onCandidate_of_le p f h, whenEnabled_next, h]
  · simp [onCandidate_of_gt p f (not_le.mp h), h]

/-! ## The record of H -/

/-- What is stored is read back, as long as the list fits the register `len`. -/
theorem decoderOf_withDecoder (s : State) {d : Decoder} (h : d.buf.length < 1024) :
    decoderOf (withDecoder s d) = d := by
  have hb : (decoderOf (withDecoder s d)).buf = d.buf := by
    apply List.ext_getElem
    · simp [Nat.mod_eq_of_lt h]
    · intro i h1 h2
      simp [decoderOf, bufAt, readCell_cellsFrom_zero, h2]
  cases d
  simp_all [decoderOf]

/-! ## The operand computations -/

theorem raised_true {α : Type} (e : α) : raised true e = [e] := rfl

theorem raised_false {α : Type} (e : α) : raised false e = [] := rfl

/-- Two bytes of a Sample rebuild it. -/
theorem joinBytes_of_sample (s : Sample) : joinBytes (s.setWidth 8) ((s >>> 8).setWidth 8) = s := by
  unfold joinBytes
  ext i hi
  simp only [BitVec.getElem_or, BitVec.getElem_setWidth, BitVec.getElem_shiftLeft, BitVec.getLsbD_setWidth,
    BitVec.getLsbD_ushiftRight]
  rcases Nat.lt_or_ge i 8 with h | h
  · simp [h, BitVec.getLsbD_eq_getElem hi]
  · have h1 : ¬ i < 8 := by omega
    have h2 : i - 8 < 8 := by omega
    have h3 : 8 + (i - 8) = i := by omega
    simp [h1, h2, h3, BitVec.getLsbD_eq_getElem hi]

/-- The payload of a SampleBlock, whatever follows it, gives its Samples. -/
theorem payloadSamples_of_samples (samples : List Sample) (rest : List Byte) :
    payloadSamples samples.length (samples.flatMap sampleBytes ++ rest) = samples := by
  induction samples with
  | nil => simp [payloadSamples]
  | cons v vs ih =>
    simp only [List.length_cons, List.flatMap_cons, sampleBytes, List.cons_append, List.nil_append,
      payloadSamples, joinBytes_of_sample]
    rw [ih]

theorem length_flatMap_sampleBytes (samples : List Sample) :
    (samples.flatMap sampleBytes).length = 2 * samples.length := by
  induction samples with
  | nil => rfl
  | cons v vs ih =>
    simp only [List.flatMap_cons, List.length_append, ih, sampleBytes, List.length_cons, List.length_nil]
    omega

/-- A SampleBlock has `6 + 2n` bytes (30_encoding.md R67). -/
theorem length_smpBytes (samples : List Sample) : (smpBytes samples).length = 6 + 2 * samples.length := by
  simp only [smpBytes, Config.startMarker, Config.endMarker, List.length_append, length_flatMap_sampleBytes,
    List.length_cons, List.length_nil]
  omega

/-! ## The markers -/

@[simp] theorem eq_startMarker {b0 b1 : Byte} : [b0, b1] = Config.startMarker ↔ b0 = 0x00 ∧ b1 = 0x00 := by
  simp [Config.startMarker]

@[simp] theorem eq_endMarker {b0 b1 : Byte} : [b0, b1] = Config.endMarker ↔ b0 = 0x00 ∧ b1 = 0x80 := by
  simp [Config.endMarker]

@[simp] theorem eq_eosBytes {b0 b1 b2 b3 : Byte} :
    [b0, b1, b2, b3] = eosBytes ↔ b0 = 0x00 ∧ b1 = 0x80 ∧ b2 = 0x00 ∧ b3 = 0x80 := by
  simp [eosBytes, Config.endMarker]

/-- A buffer begins with `START` exactly when its first two bytes are `00 00` (44_decoder_resync.md R144). -/
theorem beginsStart_iff {buf : List Byte} : beginsStart buf = true ↔ byteAt buf 0 = 0x00 ∧ byteAt buf 1 = 0x00 := by
  simp [beginsStart]

/-- `END` is at offset `i` exactly when the bytes there are `00 80` (44_decoder_resync.md R147, R148). -/
theorem endAt_iff {buf : List Byte} {i : Nat} :
    endAt buf i = true ↔ byteAt buf i = 0x00 ∧ byteAt buf (i + 1) = 0x80 := by
  simp [endAt]

/-! ## The parts of RX -/

theorem length_slidBytes_le (buf : List Byte) : (slidBytes buf).length ≤ buf.length := by
  induction buf with
  | nil => simp [slidBytes]
  | cons b rest ih =>
    cases rest with
    | nil => simp [slidBytes]
    | cons b1 rest =>
      simp only [slidBytes]
      split
      · simp
      · simpa using ih

/-- Sliding splits the buffer into the bytes discarded and the bytes kept. -/
theorem slidBytes_append_drop (buf : List Byte) : slidBytes buf ++ buf.drop (slidBytes buf).length = buf := by
  induction buf with
  | nil => simp [slidBytes]
  | cons b rest ih =>
    cases rest with
    | nil => simp [slidBytes]
    | cons b1 rest =>
      simp only [slidBytes]
      split
      · simp
      · simpa using ih

/-- After sliding at most one byte is left, or the buffer begins with `START` (44_decoder_resync.md R144). -/
theorem kept_after_slide (buf : List Byte) :
    (buf.drop (slidBytes buf).length).length ≤ 1 ∨ beginsStart (buf.drop (slidBytes buf).length) = true := by
  induction buf with
  | nil => simp [slidBytes]
  | cons b rest ih =>
    cases rest with
    | nil => simp [slidBytes]
    | cons b1 rest =>
      simp only [slidBytes]
      split
      · rename_i h
        right
        simpa [beginsStart_iff, byteAt] using h
      · simpa using ih

end Sys2Proof.Machine
end

