-- ==== Sys2Proof/Laws/Decoder.lean ====
section
/-! SUPPORT. What the operations of H do to H's record: which part the front of `BUF` selects, what the loop of `RX` keeps,
where it ends, and how long the buffer can be (44_decoder_resync.md R144 to R153). -/

namespace Sys2Proof.Machine

/-! ## Which part applies -/

theorem classify_slide {started : Bool} {buf : List Byte} :
    classify started buf = .slide ↔ 2 ≤ buf.length ∧ beginsStart buf = false := by
  unfold classify
  constructor
  · intro h
    by_contra hn
    rw [if_neg hn] at h
    repeat' split at h
    all_goals cases h
  · intro h
    rw [if_pos h]

theorem classify_short_length {started : Bool} {buf : List Byte} (h : classify started buf = .short) :
    buf.length < 6 := by
  unfold classify at h
  by_contra hn
  simp only [hn, if_false] at h
  repeat' split at h
  all_goals cases h

theorem classify_hdr_length {started : Bool} {buf : List Byte} (h : classify started buf = .hdr) :
    6 ≤ buf.length := by
  unfold classify at h
  by_contra hn
  rw [if_pos (show buf.length < 6 by omega)] at h
  split at h <;> cases h

theorem classify_fail_length {started : Bool} {buf : List Byte} (h : classify started buf = .fail) :
    6 ≤ buf.length := by
  unfold classify at h
  by_contra hn
  rw [if_pos (show buf.length < 6 by omega)] at h
  split at h <;> cases h

theorem classify_smp_length {started : Bool} {buf : List Byte} (h : classify started buf = .smp) :
    6 ≤ buf.length ∧ unitLength buf ≤ buf.length := by
  unfold classify at h
  repeat' split at h
  all_goals try cases h
  omega

theorem classify_wait_length {started : Bool} {buf : List Byte} (h : classify started buf = .wait) :
    6 ≤ buf.length ∧ buf.length < unitLength buf := by
  unfold classify at h
  repeat' split at h
  all_goals try cases h
  omega

/-- The longest unit is 516 bytes (R76). -/
theorem unitLength_le (buf : List Byte) : unitLength buf ≤ 516 := by
  have := (byteAt buf 3).isLt
  unfold unitLength
  omega

/-- After `RX.SLIDE` there is nothing to slide (R144). -/
theorem classify_slidePart_ne_slide (d : Decoder) (started : Bool) : classify started (slidePart d).buf ≠ .slide := by
  intro h
  obtain ⟨h1, h2⟩ := classify_slide.mp h
  rw [slidePart_buf] at h1 h2
  rcases kept_after_slide d.buf with h3 | h3
  · omega
  · rw [h3] at h2
    cases h2

/-! ## The loop of R146 -/

/-- What holds of the decoder and is kept by each part holds after the loop. -/
theorem resyncLoop_keeps {P : Decoder → Prop} (slide : ∀ d, P d → P (slidePart d))
    (hdr : ∀ d, P d → classify d.started d.buf = .hdr → P (acceptHeader d))
    (smp : ∀ d, P d → classify d.started d.buf = .smp → P (acceptSamples d))
    (fail : ∀ d, P d → classify d.started d.buf = .fail → P (failCandidate d))
    (turns : Nat) (d : Decoder) (h : P d) : P (resyncLoop turns d) := by
  induction turns generalizing d with
  | zero => exact h
  | succ n ih =>
    have hs := slide d h
    simp only [resyncLoop]
    split
    · exact hs
    · exact hs
    · exact hs
    · exact ih _ (hdr _ hs ‹_›)
    · exact ih _ (smp _ hs ‹_›)
    · exact ih _ (fail _ hs ‹_›)

theorem resyncLoop_win (turns : Nat) (d : Decoder) :
    (resyncLoop turns d).win = d.win ∧ (resyncLoop turns d).winN = d.winN :=
  resyncLoop_keeps (P := fun e => e.win = d.win ∧ e.winN = d.winN) (fun _ h => h) (fun _ h _ => h) (fun _ h _ => h)
    (fun _ h _ => h) turns d ⟨rfl, rfl⟩

theorem resyncLoop_length_le (turns : Nat) (d : Decoder) : (resyncLoop turns d).buf.length ≤ d.buf.length := by
  refine resyncLoop_keeps (P := fun e => e.buf.length ≤ d.buf.length) ?_ ?_ ?_ ?_ turns d le_rfl
  all_goals
    intro e h
    intros
    simp only [slidePart_buf, acceptHeader_buf, acceptSamples_buf, failCandidate_buf, List.length_drop]
    omega

/-- Enough turns end the loop: too few bytes to look at, or an incomplete SampleBlock in front (R146, R153). -/
theorem resyncLoop_settled (turns : Nat) (d : Decoder) (h : d.buf.length < turns) :
    Settled (resyncLoop turns d) := by
  induction turns generalizing d with
  | zero => omega
  | succ n ih =>
    have hle : (slidePart d).buf.length ≤ d.buf.length := by
      simp only [slidePart_buf, List.length_drop]
      omega
    simp only [resyncLoop]
    split
    · exact absurd ‹_› (classify_slidePart_ne_slide d _)
    · exact .inl ‹_›
    · exact .inr ‹_›
    · refine ih _ ?_
      have := classify_hdr_length ‹_›
      simp only [acceptHeader_buf, List.length_drop]
      omega
    · refine ih _ ?_
      have := classify_smp_length ‹_›
      have h6 : 6 ≤ unitLength (slidePart d).buf := by
        unfold unitLength
        omega
      simp only [acceptSamples_buf, List.length_drop]
      omega
    · refine ih _ ?_
      have := classify_fail_length ‹_›
      simp only [failCandidate_buf, List.length_drop]
      omega

theorem settled_length {d : Decoder} (h : Settled d) : d.buf.length ≤ 515 := by
  rcases h with h | h
  · have := classify_short_length h
    omega
  · have := classify_wait_length h
    have := unitLength_le d.buf
    omega

/-! ## Appending and the sentinel -/

theorem appendByte_of_room {b : Byte} {d : Decoder} (h : d.buf.length ≠ 600) :
    appendByte b d = { d with buf := d.buf ++ [b] } := by
  simp [appendByte, Config.decBuf, h]

theorem appendByte_of_full {b : Byte} {d : Decoder} (h : d.buf.length = 600) :
    appendByte b d = { d with buf := [b], hev := d.hev ++ [.bufReset] } := by
  simp [appendByte, Config.decBuf, h, raiseH]

@[simp] theorem appendByte_started (b : Byte) (d : Decoder) : (appendByte b d).started = d.started := by
  simp only [appendByte]
  split <;> rfl

@[simp] theorem appendByte_win (b : Byte) (d : Decoder) : (appendByte b d).win = d.win := by
  simp only [appendByte]
  split <;> rfl

@[simp] theorem appendByte_winN (b : Byte) (d : Decoder) : (appendByte b d).winN = d.winN := by
  simp only [appendByte]
  split <;> rfl

@[simp] theorem appendByte_raw (b : Byte) (d : Decoder) : (appendByte b d).raw = d.raw := by
  simp only [appendByte]
  split <;> rfl

@[simp] theorem appendByte_smp (b : Byte) (d : Decoder) : (appendByte b d).smp = d.smp := by
  simp only [appendByte]
  split <;> rfl

theorem appendByte_length_le {b : Byte} {d : Decoder} (h : d.buf.length ≤ 600) : (appendByte b d).buf.length ≤ 600 := by
  by_cases hf : d.buf.length = 600
  · simp [appendByte_of_full hf]
  · simp only [appendByte_of_room hf, List.length_append, List.length_cons, List.length_nil]
    omega

/-- The window matches exactly on `00 80 00 80` with at least three bytes in it before (R142). -/
theorem sentinelSeen_shiftWindow {b : Byte} {d : Decoder} :
    sentinelSeen (shiftWindow b d) = true ↔
      3 ≤ d.winN.toNat ∧ d.win.w1 = 0x00 ∧ d.win.w2 = 0x80 ∧ d.win.w3 = 0x00 ∧ b = 0x80 := by
  have hn : BitVec.ofNat 3 (min (d.winN.toNat + 1) 4) = 4 ↔ 3 ≤ d.winN.toNat := by
    rw [← BitVec.toNat_inj, BitVec.toNat_ofNat, Nat.mod_eq_of_lt (by omega)]
    change min (d.winN.toNat + 1) 4 = 4 ↔ _
    omega
  simp only [sentinelSeen, shiftWindow_winN, shiftWindow_win, Bool.and_eq_true, beq_iff_eq, hn, eq_eosBytes]

/-! ## RX -/

theorem receiveByte_of_sentinel {b : Byte} {d : Decoder} (h : sentinelSeen (shiftWindow b (appendByte b d)) = true) :
    receiveByte b d = endSession (shiftWindow b (appendByte b d)) := by
  simp [receiveByte, h]

theorem receiveByte_of_not {b : Byte} {d : Decoder} (h : ¬ sentinelSeen (shiftWindow b (appendByte b d)) = true) :
    receiveByte b d =
      resyncLoop ((appendByte b d).buf.length + 1) (shiftWindow b (appendByte b d)) := by
  simp [receiveByte, h]

/-- The three ways an `RX` ends (R153): the sentinel, with an empty buffer, or settled. -/
theorem receiveByte_cases (b : Byte) (d : Decoder) :
    receiveByte b d = endSession (shiftWindow b (appendByte b d)) ∨
      (Settled (receiveByte b d) ∧ (receiveByte b d).win = ⟨d.win.w1, d.win.w2, d.win.w3, b⟩ ∧
        (receiveByte b d).winN = BitVec.ofNat 3 (min (d.winN.toNat + 1) 4)) := by
  by_cases h : sentinelSeen (shiftWindow b (appendByte b d)) = true
  · exact .inl (receiveByte_of_sentinel h)
  · right
    rw [receiveByte_of_not h]
    refine ⟨resyncLoop_settled _ _ (by simp), ?_, ?_⟩
    · rw [(resyncLoop_win _ _).1]
      simp
    · rw [(resyncLoop_win _ _).2]
      simp

/-- Every byte received enters the window (R142). -/
theorem receiveByte_win (b : Byte) (d : Decoder) : (receiveByte b d).win = ⟨d.win.w1, d.win.w2, d.win.w3, b⟩ := by
  rcases receiveByte_cases b d with h | ⟨-, h, -⟩
  · simp [h]
  · exact h

/-- After any `RX` at most 515 bytes are held (R153). -/
theorem receiveByte_length_le (b : Byte) (d : Decoder) : (receiveByte b d).buf.length ≤ 515 := by
  rcases receiveByte_cases b d with h | ⟨h, -, -⟩
  · simp [h]
  · exact settled_length h

theorem receiveByte_winN_le (b : Byte) (d : Decoder) : (receiveByte b d).winN.toNat ≤ 4 := by
  rcases receiveByte_cases b d with h | ⟨-, -, h⟩
  · simp [h]
  · rw [h, BitVec.toNat_ofNat, Nat.mod_eq_of_lt (by omega)]
    omega

theorem receiveBytes_append (bs cs : List Byte) (d : Decoder) :
    receiveBytes (bs ++ cs) d = receiveBytes cs (receiveBytes bs d) := by
  induction bs generalizing d with
  | nil => rfl
  | cons b bs ih => simp [receiveBytes, ih]

theorem receiveBytes_length_le (bs : List Byte) (d : Decoder) (h : d.buf.length ≤ 515) :
    (receiveBytes bs d).buf.length ≤ 515 := by
  induction bs generalizing d with
  | nil => exact h
  | cons b bs ih => exact ih _ (receiveByte_length_le b d)

theorem receiveBytes_winN_le (bs : List Byte) (d : Decoder) (h : d.winN.toNat ≤ 4) :
    (receiveBytes bs d).winN.toNat ≤ 4 := by
  induction bs generalizing d with
  | nil => exact h
  | cons b bs ih => exact ih _ (receiveByte_winN_le b d)

/-! ## The outputs of H grow -/

/-- H's outputs have only grown. -/
abbrev Decoder.Grew (d e : Decoder) : Prop := d.raw <+: e.raw ∧ d.smp <+: e.smp ∧ d.hev <+: e.hev

theorem Decoder.Grew.trans {d e f : Decoder} (h : d.Grew e) (g : e.Grew f) : d.Grew f :=
  ⟨h.1.trans g.1, h.2.1.trans g.2.1, h.2.2.trans g.2.2⟩

theorem appendByte_grew (b : Byte) (d : Decoder) : d.Grew (appendByte b d) := by
  by_cases h : d.buf.length = 600
  · simp [Decoder.Grew, appendByte_of_full h]
  · simp [Decoder.Grew, appendByte_of_room h]

theorem endSession_grew (d : Decoder) : d.Grew (endSession d) := by simp [Decoder.Grew]

theorem slidePart_grew (d : Decoder) : d.Grew (slidePart d) := by simp [Decoder.Grew]

theorem acceptHeader_grew (d : Decoder) : d.Grew (acceptHeader d) := by simp [Decoder.Grew]

theorem acceptSamples_grew (d : Decoder) : d.Grew (acceptSamples d) := by simp [Decoder.Grew]

theorem failCandidate_grew (d : Decoder) : d.Grew (failCandidate d) := by simp [Decoder.Grew]

theorem resyncLoop_grew (turns : Nat) (d : Decoder) : d.Grew (resyncLoop turns d) :=
  resyncLoop_keeps (P := d.Grew) (fun e h => h.trans (slidePart_grew e)) (fun e h _ => h.trans (acceptHeader_grew e))
    (fun e h _ => h.trans (acceptSamples_grew e)) (fun e h _ => h.trans (failCandidate_grew e)) turns d (by simp [Decoder.Grew])

theorem receiveByte_grew (b : Byte) (d : Decoder) : d.Grew (receiveByte b d) := by
  have h0 : d.Grew (shiftWindow b (appendByte b d)) := appendByte_grew b d
  simp only [receiveByte]
  split
  · exact h0.trans (endSession_grew _)
  · exact h0.trans (resyncLoop_grew _ _)

theorem receiveBytes_grew (bs : List Byte) (d : Decoder) : d.Grew (receiveBytes bs d) := by
  induction bs generalizing d with
  | nil => simp [Decoder.Grew, receiveBytes]
  | cons b bs ih => exact (receiveByte_grew b d).trans (ih _)

end Sys2Proof.Machine
end

