-- ==== Sys2Proof/Laws/Step.lean ====
section
/-! SUPPORT. What one step can be: which operation it issues, and in which state (Machine/Ports.lean). -/

namespace Sys2Proof.Machine

/-- A fetch changes the environment's fields alone. -/
theorem fetch_env (s : State) : ∃ ins n, (fetch s).2 = { s with inputs := ins, envN := n } := by
  unfold fetch
  split <;> exact ⟨_, _, rfl⟩

/-- The rows of wire units and Sample words. -/
inductive WireInstr : Instr → Prop
  | hdr (v : Byte) : WireInstr (.hdr v)
  | smp (samples : List Sample) : WireInstr (.smp samples)
  | eos : WireInstr .eos
  | sampleR (delay : Delay) : WireInstr (.sampleR delay)
  | sampleF (delay : Delay) : WireInstr (.sampleF delay)

/-- Bytes decode to a wire unit or a Sample word. -/
theorem wireInstr_of_decodeWire {bytes : List Byte} {i : Instr} (h : decodeWire bytes = .ok i) : WireInstr i := by
  unfold decodeWire at h
  repeat' split at h
  all_goals try cases h
  · unfold decodeSample
    split
    · exact .sampleR _
    · exact .sampleF _
  · exact .eos
  · exact .hdr _
  · exact .smp _

/-- The operations that a step can issue in a state. -/
inductive Issued (s : State) : Instr → Prop
  | wire {i : Instr} (h : WireInstr i) : Issued s i
  | pins (level : Bool) : Issued s (decodePins s.sigQ level)
  | tick : Issued s .tick
  | reset : Issued s .reset
  | rx (b : Byte) : Issued s (.rx b)
  | sync (x : SyncStep) : Issued s (decodeSync x)
  | guards : Issued s (decodeGuards (isActive s) (batchFull s) (nonemptyR s) (expired s))

/-- What `issue` answers: the state with other environment fields, and one of the operations above. -/
theorem issue_cases (s : State) :
    ∃ ins n, (issue s).2 = { s with inputs := ins, envN := n } ∧ Issued (issue s).2 (issue s).1 := by
  obtain ⟨ins, n, h⟩ := fetch_env s
  unfold issue
  split
  · rename_i i hd
    refine ⟨ins, n, h, ?_⟩
    simp only [h] at hd ⊢
    generalize (fetch s).1 = e at hd
    cases e <;> simp only [codeOf, decode, Except.ok.injEq] at hd
    case burst => exact .wire (wireInstr_of_decodeWire hd)
    all_goals subst hd
    · exact .reset
    · exact .tick
    · exact .pins _
    · exact .rx _
    · exact .guards
    · exact .sync _
  · simp only [h]
    generalize (fetch s).1 = e
    cases e <;> simp only [splitNoise]
    · exact ⟨_, _, rfl, .reset⟩
    · exact ⟨_, _, rfl, .tick⟩
    · exact ⟨_, _, rfl, .pins _⟩
    · exact ⟨_, _, rfl, .rx _⟩
    · exact ⟨_, _, rfl, .rx _⟩
    · exact ⟨_, _, rfl, .guards⟩
    · exact ⟨_, _, rfl, .sync _⟩

/-- A property that does not read the environment's fields is kept by every step if each operation that can be issued keeps
it. -/
theorem step_keeps {P : State → Prop}
    (env : ∀ (s : State) (ins : List PortEvent) (n : Nat), P s → P { s with inputs := ins, envN := n })
    (ops : ∀ (i : Instr) (s t : State), Issued s i → P s → exec i s = .next t → P t)
    {s t : State} (hs : P s) (h : step s = .next t) : P t := by
  obtain ⟨ins, n, h1, h2⟩ := issue_cases s
  exact ops _ _ t h2 (h1 ▸ env s ins n hs) h

theorem core_run_succ (M : Host.Core) {s u : M.State} (k : Nat) (h : M.step s = .next u) :
    M.run (k + 1) s = M.run k u := by
  simp only [Host.Core.run, h]

/-- A run of one more step, when that step has a next state. -/
theorem run_succ_of_next {s u : State} (k : Nat) (h : step s = .next u) :
    Host.Core.run Sys2Proof.core (k + 1) s = Host.Core.run Sys2Proof.core k u :=
  core_run_succ Sys2Proof.core k h

/-- Operations one after another, when the first has a next state. -/
theorem execAll_cons_of_next {i : Instr} {s u : State} (is : List Instr) (h : exec i s = .next u) :
    execAll (i :: is) s = execAll is u := by
  simp only [execAll, h]

theorem execAll_append {s u : State} (is js : List Instr) (h : execAll is s = .next u) :
    execAll (is ++ js) s = execAll js u := by
  induction is generalizing s with
  | nil =>
    cases h
    rfl
  | cons i is ih =>
    simp only [List.cons_append, execAll] at h ⊢
    split at h
    · exact ih h
    · cases h
    · cases h

/-- An operation of H changes H's registers, arrays and outputs alone. -/
theorem onlyH_withDecoder (s : State) (d : Decoder) : OnlyH s (withDecoder s d) := by
  simp [OnlyH, SameP, SameQ, SameS, SameEnv]

theorem withDecoder_len_toNat (s : State) {d : Decoder} (h : d.buf.length < 1024) :
    (withDecoder s d).len.toNat = d.buf.length := by
  rw [withDecoder_len, BitVec.toNat_ofNat]
  omega

/-- Bytes one by one, as operations, are bytes one by one in H's record. -/
theorem execAll_rx (b : Byte) (bs : List Byte) (s : State) (h : s.len.toNat ≤ 600) :
    execAll ((b :: bs).map .rx) s = .next (withDecoder s (receiveBytes (b :: bs) (decoderOf s))) := by
  have hb := receiveByte_length_le b (decoderOf s)
  have h1 : exec (.rx b) s = .next (withDecoder s (receiveByte b (decoderOf s))) := onDecoder_of_le _ h
  rw [List.map_cons, execAll_cons_of_next _ h1]
  cases bs with
  | nil => rfl
  | cons c cs =>
    rw [execAll_rx c cs _ (by rw [withDecoder_len_toNat s (by omega)]; omega), decoderOf_withDecoder s (by omega)]
    rfl

end Sys2Proof.Machine
end

