-- ==== Sys2Proof/Laws/Feed.lean ====
section
/-! SUPPORT. Feeding H byte by byte: the window as the last bytes received, and bytes that only pile up in the buffer
(44_decoder_resync.md R142 to R149, R154). -/

namespace Sys2Proof.Machine

/-! ## The window -/

theorem windowBytes_shiftWindow (b : Byte) (d : Decoder) :
    windowBytes (shiftWindow b d) <:+ windowBytes d ++ [b] := by
  have h4 : (shiftWindow b d).winN.toNat = min (d.winN.toNat + 1) 4 := by
    rw [shiftWindow_winN, BitVec.toNat_ofNat, Nat.mod_eq_of_lt (by omega)]
  unfold windowBytes
  rw [h4, shiftWindow_win]
  rcases Nat.lt_or_ge d.winN.toNat 4 with h | h
  · have h5 : d.winN.toNat = 0 ∨ d.winN.toNat = 1 ∨ d.winN.toNat = 2 ∨ d.winN.toNat = 3 := by omega
    rcases h5 with h5 | h5 | h5 | h5 <;> rw [h5] <;> exact List.suffix_rfl
  · rw [show 4 - d.winN.toNat = 0 by omega, show 4 - min (d.winN.toNat + 1) 4 = 0 by omega]
    exact ⟨[d.win.w0], rfl⟩

theorem sentinel_suffix {b : Byte} {d : Decoder} (h : sentinelSeen (shiftWindow b d) = true) :
    eosBytes <:+ windowBytes d ++ [b] := by
  obtain ⟨h1, h2, h3, h4, rfl⟩ := sentinelSeen_shiftWindow.mp h
  unfold windowBytes
  rw [h2, h3, h4]
  rcases Nat.lt_or_ge d.winN.toNat 4 with h | h
  · rw [show 4 - d.winN.toNat = 1 by omega]
    exact List.suffix_rfl
  · rw [show 4 - d.winN.toNat = 0 by omega]
    exact ⟨[d.win.w0], rfl⟩

theorem not_sentinelSeen_of_noSentinel {b : Byte} {bs : List Byte} {d : Decoder} (h : NoSentinel d (b :: bs)) :
    ¬ sentinelSeen (shiftWindow b d) = true := by
  intro hs
  refine h (List.IsInfix.trans (sentinel_suffix hs).isInfix ?_)
  exact ⟨[], bs, by simp⟩

/-- The bytes that a decoder's window holds after some bytes, which no sentinel interrupted, are a suffix of what it held
with these bytes behind. -/
abbrev WindowAfter (d : Decoder) (bytes : List Byte) (e : Decoder) : Prop :=
  windowBytes e <:+ windowBytes d ++ bytes

theorem noSentinel_after {d e : Decoder} {bytes more : List Byte} (h : NoSentinel d (bytes ++ more))
    (hw : WindowAfter d bytes e) : NoSentinel e more := by
  intro hi
  obtain ⟨pre, hp⟩ := hw
  refine h (hi.trans ?_)
  rw [← List.append_assoc, ← hp, List.append_assoc]
  exact (List.suffix_append _ _).isInfix

theorem noSentinel_left {d : Decoder} {bytes more : List Byte} (h : NoSentinel d (bytes ++ more)) :
    NoSentinel d bytes := fun hi =>
  h (hi.trans (by rw [← List.append_assoc]; exact (List.prefix_append _ _).isInfix))

theorem sentinelSeen_appendByte (b c : Byte) (d : Decoder) :
    sentinelSeen (shiftWindow b (appendByte c d)) = sentinelSeen (shiftWindow b d) := by
  rw [Bool.eq_iff_iff, sentinelSeen_shiftWindow, sentinelSeen_shiftWindow, appendByte_win, appendByte_winN]

/-- What a byte that completes no sentinel does to the window, whatever it does to the buffer. -/
theorem receiveByte_window {b : Byte} {d : Decoder} (hs : ¬ sentinelSeen (shiftWindow b d) = true) :
    (receiveByte b d).win = (shiftWindow b d).win ∧ (receiveByte b d).winN = (shiftWindow b d).winN := by
  rw [receiveByte_of_not (by rwa [sentinelSeen_appendByte]), (resyncLoop_win _ _).1, (resyncLoop_win _ _).2]
  simp

/-- What bytes that complete no sentinel do to the window. -/
theorem receiveBytes_window (bytes : List Byte) (d : Decoder) (hs : NoSentinel d bytes) :
    WindowAfter d bytes (receiveBytes bytes d) ∧
      min (d.winN.toNat + bytes.length) 4 ≤ (receiveBytes bytes d).winN.toNat := by
  induction bytes generalizing d with
  | nil => exact ⟨by simp [WindowAfter, receiveBytes], by simp [receiveBytes]⟩
  | cons b bs ih =>
    obtain ⟨h1, h2⟩ := receiveByte_window (not_sentinelSeen_of_noSentinel hs)
    have hw : WindowAfter d [b] (receiveByte b d) := by
      unfold WindowAfter windowBytes
      rw [h1, h2]
      exact windowBytes_shiftWindow b d
    have hn : (receiveByte b d).winN.toNat = min (d.winN.toNat + 1) 4 := by
      rw [h2, shiftWindow_winN, BitVec.toNat_ofNat]
      omega
    obtain ⟨h3, h4⟩ := ih (receiveByte b d) (noSentinel_after (bytes := [b]) hs hw)
    refine ⟨?_, ?_⟩
    · obtain ⟨p1, e1⟩ := hw
      obtain ⟨p2, e2⟩ := h3
      exact ⟨p1 ++ p2, by rw [receiveBytes, List.append_assoc, e2, ← List.append_assoc, e1, List.append_assoc]; rfl⟩
    · simp only [receiveBytes, List.length_cons]
      omega

/-! ## Bytes that pile up -/

/-- A buffer to which neither a slide nor an accept nor a failure applies. -/
abbrev Quiet (started : Bool) (buf : List Byte) : Prop :=
  slidBytes buf = [] ∧ (classify started buf = .short ∨ classify started buf = .wait)

theorem slidePart_of_nil {d : Decoder} (h : slidBytes d.buf = []) : slidePart d = d := by
  simp [slidePart, h]

theorem resyncLoop_quiet {d : Decoder} (turns : Nat) (h : Quiet d.started d.buf) : resyncLoop turns d = d := by
  cases turns with
  | zero => rfl
  | succ n =>
    rcases h.2 with h2 | h2 <;> simp only [resyncLoop, slidePart_of_nil h.1, h2]

/-- A byte after which nothing applies goes into the buffer and the window, and does nothing else. -/
theorem receiveByte_quiet {b : Byte} {d : Decoder} (hroom : d.buf.length ≠ 600)
    (hs : ¬ sentinelSeen (shiftWindow b d) = true) (hq : Quiet d.started (d.buf ++ [b])) :
    receiveByte b d = { shiftWindow b d with buf := d.buf ++ [b] } := by
  have ha := appendByte_of_room (b := b) hroom
  have hs' : ¬ sentinelSeen (shiftWindow b (appendByte b d)) = true := by
    rw [sentinelSeen_shiftWindow] at hs ⊢
    simpa using hs
  rw [receiveByte_of_not hs', ha]
  exact resyncLoop_quiet _ hq

/-- Bytes after each of which nothing applies pile up in the buffer. -/
theorem receiveBytes_quiet (bytes : List Byte) (d : Decoder) (hroom : d.buf.length + bytes.length ≤ 600)
    (hs : NoSentinel d bytes)
    (hq : ∀ k, k < bytes.length → Quiet d.started (d.buf ++ bytes.take (k + 1))) :
    ∃ w n, receiveBytes bytes d = { d with buf := d.buf ++ bytes, win := w, winN := n } := by
  induction bytes generalizing d with
  | nil => exact ⟨d.win, d.winN, by simp [receiveBytes]⟩
  | cons b bs ih =>
    simp only [List.length_cons] at hroom
    have hs1 := not_sentinelSeen_of_noSentinel hs
    have h1 : receiveByte b d = { shiftWindow b d with buf := d.buf ++ [b] } :=
      receiveByte_quiet (by omega) hs1 (by simpa using hq 0 (by simp))
    have hw := (receiveBytes_window [b] d (noSentinel_left (bytes := [b]) hs)).1
    obtain ⟨w, n, h2⟩ := ih (receiveByte b d) (by rw [h1]; simp; omega) (noSentinel_after (bytes := [b]) hs hw)
      (fun k hk => by
        rw [h1]
        simpa using hq (k + 1) (by simpa using hk))
    refine ⟨w, n, ?_⟩
    rw [receiveBytes, h2, h1]
    simp

/-- A byte that completes a unit in front of the buffer, after which the buffer is empty. -/
theorem receiveByte_accept {b : Byte} {d e : Decoder} (hroom : d.buf.length ≠ 600)
    (hs : ¬ sentinelSeen (shiftWindow b d) = true) (hslid : slidBytes (d.buf ++ [b]) = [])
    (hacc : (classify d.started (d.buf ++ [b]) = .hdr ∧
        e = acceptHeader { shiftWindow b d with buf := d.buf ++ [b] }) ∨
      (classify d.started (d.buf ++ [b]) = .smp ∧
        e = acceptSamples { shiftWindow b d with buf := d.buf ++ [b] }))
    (hempty : e.buf = []) : receiveByte b d = e := by
  have ha := appendByte_of_room (b := b) hroom
  have hs' : ¬ sentinelSeen (shiftWindow b (appendByte b d)) = true := by
    rw [sentinelSeen_shiftWindow] at hs ⊢
    simpa using hs
  have hq : Quiet e.started e.buf := by
    rw [hempty]
    exact ⟨rfl, .inl rfl⟩
  have hd : shiftWindow b (appendByte b d) = { shiftWindow b d with buf := d.buf ++ [b] } := by rw [ha]; rfl
  rw [receiveByte_of_not hs', hd]
  have hslid' : slidePart { shiftWindow b d with buf := d.buf ++ [b] } = { shiftWindow b d with buf := d.buf ++ [b] } :=
    slidePart_of_nil hslid
  simp only [resyncLoop, hslid']
  rcases hacc with ⟨h1, rfl⟩ | ⟨h1, rfl⟩
  · simp only [shiftWindow_started, h1]
    exact resyncLoop_quiet _ hq
  · simp only [shiftWindow_started, h1]
    exact resyncLoop_quiet _ hq

/-! ## Reading the front of the buffer -/

theorem byteAt_append_left (a b : List Byte) {i : Nat} (h : i < a.length) : byteAt (a ++ b) i = byteAt a i := by
  simp [byteAt, List.getElem?_append_left h]

theorem byteAt_append_right (a b : List Byte) (i : Nat) : byteAt (a ++ b) (a.length + i) = byteAt b i := by
  simp [byteAt, List.getElem?_append_right]

theorem slidBytes_start (rest : List Byte) : slidBytes (0x00 :: 0x00 :: rest) = [] := by
  simp [slidBytes]

end Sys2Proof.Machine
end

