-- ==== Sys2Proof/Laws/PerInstr.lean ====
section
/-! SUPPORT. Statements made for each operation of the table: the length of its unit on the wire (30_encoding.md R67). -/

namespace Sys2Proof.Laws.UnitLength

open Sys2Proof Sys2Proof.Machine

/-- R67: where the operation has bytes at all, a Sample word has 2 bytes, an EndOfStream 4, a HeaderBlock 6, and a
SampleBlock an even number from 8 to 516. -/
def Statement (i : Instr) : Prop :=
  i.wellFormed = true → ∀ bytes, encode i = .wire bytes →
    bytes.length = 2 ∨ bytes.length = 4 ∨ bytes.length = 6 ∨
      (8 ≤ bytes.length ∧ bytes.length ≤ 516 ∧ bytes.length % 2 = 0)

/-- When a SampleBlock is well-formed. -/
theorem wellFormed_smp (samples : List Sample) :
    (Instr.smp samples).wellFormed = true ↔ 1 ≤ samples.length ∧ samples.length ≤ 255 := by
  simp only [Instr.wellFormed, Instr.countNotZero, Instr.countFitsByte, Bool.and_eq_true, bne_iff_ne, ne_eq,
    decide_eq_true_eq]
  rw [show Config.batchMax = 255 from rfl]
  omega

theorem hdr (version : Byte) : Statement (.hdr version) := by
  rintro - bytes h
  simp only [encode, Code.wire.injEq] at h
  subst h
  exact .inr (.inr (.inl rfl))

theorem smp (samples : List Sample) : Statement (.smp samples) := by
  rintro hwf bytes h
  simp only [encode, Code.wire.injEq] at h
  subst h
  obtain ⟨h0, h1⟩ := (wellFormed_smp samples).mp hwf
  simp only [length_smpBytes]
  omega

theorem eos : Statement .eos := by
  rintro - bytes h
  simp only [encode, Code.wire.injEq] at h
  subst h
  exact .inr (.inl rfl)

theorem sampleR (delay : Delay) : Statement (.sampleR delay) := by
  rintro - bytes h
  simp only [encode, Code.wire.injEq] at h
  subst h
  exact .inl rfl

theorem sampleF (delay : Delay) : Statement (.sampleF delay) := by
  rintro - bytes h
  simp only [encode, Code.wire.injEq] at h
  subst h
  exact .inl rfl

theorem tick : Statement .tick := by rintro - bytes ⟨⟩
theorem sense (level : Bool) : Statement (.sense level) := by rintro - bytes ⟨⟩
theorem edgeR : Statement .edgeR := by rintro - bytes ⟨⟩
theorem edgeF : Statement .edgeF := by rintro - bytes ⟨⟩
theorem enc (dir : Bool) (t : Stamp) : Statement (.enc dir t) := by rintro - bytes ⟨⟩
theorem push (v : Sample) : Statement (.push v) := by rintro - bytes ⟨⟩
theorem take : Statement .take := by rintro - bytes ⟨⟩
theorem syncHead (i : Ptr) : Statement (.syncHead i) := by rintro - bytes ⟨⟩
theorem syncDrop (i : Ptr) : Statement (.syncDrop i) := by rintro - bytes ⟨⟩
theorem syncTs (i : Stamp) : Statement (.syncTs i) := by rintro - bytes ⟨⟩
theorem syncRd (i : Ptr) : Statement (.syncRd i) := by rintro - bytes ⟨⟩
theorem qFlush : Statement .qFlush := by rintro - bytes ⟨⟩
theorem qStart : Statement .qStart := by rintro - bytes ⟨⟩
theorem qPop : Statement .qPop := by rintro - bytes ⟨⟩
theorem qTimeout : Statement .qTimeout := by rintro - bytes ⟨⟩
theorem qIdle : Statement .qIdle := by rintro - bytes ⟨⟩
theorem rx (b : Byte) : Statement (.rx b) := by rintro - bytes ⟨⟩
theorem rxAppend (b : Byte) : Statement (.rxAppend b) := by rintro - bytes ⟨⟩
theorem rxEos (b : Byte) : Statement (.rxEos b) := by rintro - bytes ⟨⟩
theorem rxSlide : Statement .rxSlide := by rintro - bytes ⟨⟩
theorem rxHdr : Statement .rxHdr := by rintro - bytes ⟨⟩
theorem rxSmp : Statement .rxSmp := by rintro - bytes ⟨⟩
theorem rxWait : Statement .rxWait := by rintro - bytes ⟨⟩
theorem rxFail : Statement .rxFail := by rintro - bytes ⟨⟩
theorem reset : Statement .reset := by rintro - bytes ⟨⟩

end Sys2Proof.Laws.UnitLength
end

