-- ==== Sys2Proof/Laws/Runs.lean ====
section
/-! SUPPORT. What the premises on infinite runs in Safety.lean give: a fair run takes every operation of Q that stays
enabled, and brings the shadow of a source that stops up to date (10_state.md R14, 42_ring_buffer.md R112). -/

namespace Sys2Proof.Machine

/-! ## Agent Q -/

/-- An operation of Q that has a next state is the one that Q's guards select (43_session_framer.md R123). -/
theorem decodeGuards_of_enabled {i : Instr} {s t : State} (hi : i ∈ [Instr.qFlush, .qStart, .qPop, .qTimeout, .qIdle])
    (h : exec i s = .next t) : decodeGuards (isActive s) (batchFull s) (nonemptyR s) (expired s) = i := by
  simp only [List.mem_cons, List.not_mem_nil, or_false] at hi
  rcases hi with rfl | rfl | rfl | rfl | rfl <;>
    (have guard := (whenEnabled_next.mp h).1
     simp_all [decodeGuards])

/-- A step on the event of Q issues what the guards of the state select. -/
theorem opAt_of_polling {run : Nat → State} {n : Nat} (h : (fetch (run n)).1 = .polling) :
    opAt run n =
      decodeGuards (isActive (run n)) (batchFull (run n)) (nonemptyR (run n)) (expired (run n)) := by
  obtain ⟨ins, k, hf⟩ := fetch_env (run n)
  simp only [opAt, issue, h, codeOf, decode, hf]
  rfl

/-- In a fair run each operation of Q that stays enabled is eventually taken (10_state.md R14). -/
theorem fairRun_takes_operations_of_q {run : Nat → State} (hf : FairRun run) {i : Instr}
    (hi : i ∈ [Instr.qFlush, .qStart, .qPop, .qTimeout, .qIdle]) : FairOperation run i := by
  intro n hn
  obtain ⟨m, hm, he⟩ := hf.2.2.1 n fun _ _ => trivial
  obtain ⟨t, ht⟩ := hn m hm
  exact ⟨m, hm, (opAt_of_polling he).trans (decodeGuards_of_enabled hi ht)⟩

/-! ## Agent S -/

/-- The largest amount makes a shadow current (42_ring_buffer.md R112). -/
theorem syncPath_of_le {w : Nat} {src sh i : BitVec w} (h : src - sh ≤ i) : syncPath src sh i = src := by
  unfold syncPath
  split
  · rename_i hi
    rw [BitVec.le_antisymm hi h, BitVec.add_comm, BitVec.sub_add_cancel]
  · rfl

/-- What a step of a run does is `exec` of its operation in a state that differs in the environment's fields alone. -/
theorem exec_opAt {run : Nat → State} (hr : Run run) (n : Nat) :
    ∃ ins k, exec (opAt run n) { run n with inputs := ins, envN := k } = .next (run (n + 1)) := by
  obtain ⟨ins, k, h, -⟩ := issue_cases (run n)
  exact ⟨ins, k, by rw [← h]; exact hr n⟩

/-- In a fair run the shadow of a source that stops is eventually current (20_memory.md R61), whatever the synchroniser. -/
theorem fairSync_current {w : Nat} {run : Nat → State} {op : BitVec w → Instr} {src sh : State → BitVec w}
    (hr : Run run) (hf : FairSync run op src sh)
    (hop : ∀ i ins k s t, exec (op i) { s with inputs := ins, envN := k } = .next t →
      sh t = syncPath (src s) (sh s) i)
    {n : Nat} {v : BitVec w} (hv : ∀ m, n ≤ m → src (run m) = v) : ∃ m, n ≤ m ∧ sh (run m) = v := by
  obtain ⟨m, hm, i, hi, hle⟩ := hf.2 v n hv
  obtain ⟨ins, k, he⟩ := exec_opAt hr m
  rw [hi] at he
  exact ⟨m + 1, by omega, (hop i ins k _ _ he).trans ((syncPath_of_le hle).trans (hv m hm))⟩

/-- The four shadows of a fair run (42_ring_buffer.md R113 to R116). -/
theorem fairRun_makes_shadows_current {run : Nat → State} (hr : Run run) (hf : FairRun run) (n : Nat) :
    (∀ v, (∀ m, n ≤ m → (run m).head = v) → ∃ m, n ≤ m ∧ (run m).headR = v) ∧
      (∀ v, (∀ m, n ≤ m → (run m).drop = v) → ∃ m, n ≤ m ∧ (run m).dropR = v) ∧
      (∀ v, (∀ m, n ≤ m → (run m).ts = v) → ∃ m, n ≤ m ∧ (run m).tsR = v) ∧
      ∀ v, (∀ m, n ≤ m → (run m).rd = v) → ∃ m, n ≤ m ∧ (run m).rdW = v := by
  obtain ⟨-, -, -, h1, h2, h3, h4⟩ := hf
  refine ⟨fun v => fairSync_current hr h1 ?_, fun v => fairSync_current hr h2 ?_,
    fun v => fairSync_current hr h3 ?_, fun v => fairSync_current hr h4 ?_⟩ <;>
    (rintro i ins k s t h; cases h; rfl)

/-! ## The lag of a shadow -/

/-- A run in which the source moves at every step advances once a step. -/
theorem advances_eq {w : Nat} {run : Nat → State} {src : State → BitVec w} (a b : Nat)
    (h : ∀ k, src (run (k + 1)) ≠ src (run k)) : advances run src a b = b - a := by
  unfold advances
  rw [List.countP_eq_length.mpr fun k _ => by simpa using h k, List.length_range']

end Sys2Proof.Machine
end

