-- ==== Sys2Proof/Tests/Slice0.lean ====
section
/-! SUPPORT. Tests of the model: ill-formed terms, words written out from the spec's encodings, one step of each operation
with results taken from spec/, and for every statement with hypotheses a state that meets them. `V<n>`, `T<n>` and `E<n>`
are the vectors of 95_test_vectors.md. -/

namespace Sys2Proof.Tests

open Sys2Proof Sys2Proof.Machine

/-! ## Helpers -/

/-- The next state, if there is one. -/
def after (o : Host.Outcome State Fault Refusal) : Option State :=
  match o with
  | .next t => some t
  | .fault _ => none
  | .refused _ => none

/-- Whether the operation has no step. -/
def disabled (o : Host.Outcome State Fault Refusal) : Bool :=
  match o with
  | .next _ => false
  | .fault _ => false
  | .refused r => r == .notEnabled

/-- The reset state with these bytes in `BUF`. -/
def holding (bytes : List Byte) (started : Bool) : State :=
  withDecoder State.reset { decoderOf State.reset with buf := bytes, started := started }

/-- The reset state with this port event next. -/
def event (e : PortEvent) : State := { State.reset with inputs := [e] }

/-- An Active session with a visible Sample. -/
def popping (cnt : BitVec 8) : State := { State.reset with sess := .active, head := 1, headR := 1, cnt := cnt, ring := [(0, 0x8000)] }

/-- An Active session that nothing is visible to, `ts_r` this far behind its last activity. -/
def silent (cnt : BitVec 8) (tsR : Stamp) : State := { State.reset with sess := .active, cnt := cnt, tsR := tsR }

/-- One Sample, visible, in slot 5. -/
def oneSample : State := { State.reset with rd := 5, rdW := 5, head := 6, headR := 6, ring := [(5, 0x8064)] }

/-! ## The parameters (00_scope.md R6, R7) -/

theorem test_parameters_consistent : Config.built.Consistent := by decide

/-- R6: the record of parameters holds the two markers. -/
theorem test_markers_are_parameters :
    Config.built.startMarker = [0x00, 0x00] ∧ Config.built.endMarker = [0x00, 0x80] := by decide

/-! ## WellFormed: each check refuses an ill-formed term (30_encoding.md R74, R83) -/

theorem test_count_zero_ill_formed : (Instr.smp []).countNotZero = false ∧ (Instr.smp []).wellFormed = false := by decide

set_option maxRecDepth 16000 in
theorem test_count_256_ill_formed :
    (Instr.smp (List.replicate 256 0)).countFitsByte = false ∧ (Instr.smp (List.replicate 256 0)).wellFormed = false := by
  decide

set_option maxRecDepth 16000 in
theorem test_count_255_well_formed : (Instr.smp (List.replicate 255 0)).wellFormed = true := by decide

/-! ## Decode: a word or code of each row, written out from the spec (30_encoding.md R68 to R80; V3, R123) -/

theorem test_decode_hdr : decodeTableWord 48 0x000000010080 = some (.hdr 0x01) := by decide
theorem test_decode_smp :
    decode (.wire [0x00, 0x00, 0x01, 0x01, 0xC8, 0x80, 0x00, 0x80]) = .ok (.smp [0x80C8]) := by decide
theorem test_decode_eos : decodeTableWord 32 0x00800080 = some .eos := by decide
theorem test_decode_sampleR : decodeTableWord 16 0x8064 = some (.sampleR 100) := by decide
theorem test_decode_sampleF : decodeTableWord 16 0x0096 = some (.sampleF 150) := by decide
theorem test_decode_tick : decode .usTick = .ok .tick := rfl
theorem test_decode_sense : decodeTableWord 8 0 = some (.sense false) ∧ decodeTableWord 8 3 = some (.sense true) := by decide
theorem test_decode_edgeR : decodeTableWord 8 1 = some .edgeR := by decide
theorem test_decode_edgeF : decodeTableWord 8 2 = some .edgeF := by decide
theorem test_decode_enc : decode (.call (.enc true 250)) = .ok (.enc true 250) := rfl
theorem test_decode_push : decode (.call (.push 0x8064)) = .ok (.push 0x8064) := rfl
theorem test_decode_take : decode (.call .take) = .ok .take := rfl
theorem test_decode_syncHead : decode (.sync (.head 3)) = .ok (.syncHead 3) := rfl
theorem test_decode_syncDrop : decode (.sync (.drop 1)) = .ok (.syncDrop 1) := rfl
theorem test_decode_syncTs : decode (.sync (.ts 5000001)) = .ok (.syncTs 5000001) := rfl
theorem test_decode_syncRd : decode (.sync (.rd 3)) = .ok (.syncRd 3) := rfl
/-- V6: Active, `cnt` 255, view not empty, expired. -/
theorem test_decode_qFlush : decode (.guards true true true true) = .ok .qFlush := rfl
theorem test_decode_qStart : decode (.guards false false true false) = .ok .qStart := rfl
/-- V6: a waiting Sample comes before the timer. -/
theorem test_decode_qPop : decode (.guards true false true true) = .ok .qPop := rfl
theorem test_decode_qTimeout : decode (.guards true false false true) = .ok .qTimeout := rfl
/-- V6: an Idle session does not look at the timer. -/
theorem test_decode_qIdle : decode (.guards false false false true) = .ok .qIdle := rfl
theorem test_decode_rx : decode (.rxData 0x80) = .ok (.rx 0x80) := rfl
theorem test_decode_rxAppend : decode (.call (.rxAppend 0x55)) = .ok (.rxAppend 0x55) := rfl
theorem test_decode_rxEos : decode (.call (.rxEos 0x80)) = .ok (.rxEos 0x80) := rfl
theorem test_decode_rxSlide : decode (.candidate false [0x12, 0x34]) = .ok .rxSlide := by decide
theorem test_decode_rxHdr : decode (.candidate false [0x00, 0x00, 0x00, 0x02, 0x00, 0x80]) = .ok .rxHdr := by decide
theorem test_decode_rxSmp :
    decode (.candidate true [0x00, 0x00, 0x01, 0x01, 0xC8, 0x80, 0x00, 0x80]) = .ok .rxSmp := by decide
theorem test_decode_rxWait : decode (.candidate true [0x00, 0x00, 0x01, 0x01, 0xC8, 0x80]) = .ok .rxWait := by decide
/-- T3: the `END` is `00 81`. -/
theorem test_decode_rxFail :
    decode (.candidate true [0x00, 0x00, 0x01, 0x02, 0x64, 0x80, 0x96, 0x00, 0x00, 0x81]) = .ok .rxFail := by decide
theorem test_decode_reset : decode .rst = .ok .reset := rfl

/-! ## One step of each operation -/

set_option maxRecDepth 16000 in
/-- V7 T1, byte 5, and T11: a HeaderBlock is reported with its VERSION, whatever it is. -/
theorem test_hdr : (after (exec (.hdr 0x02) State.reset)).map (fun t => (t.hev, t.raw, t.started, t.len)) =
    some ([.hdr 0x02], [0x00, 0x00, 0x00, 0x02, 0x00, 0x80], true, 0) := by decide

set_option maxRecDepth 16000 in
/-- V7 T7: a SampleBlock while not started fails, and nothing reaches `smp`. -/
theorem test_smp_not_started : (after (exec (.smp [0x8064]) State.reset)).map (fun t => (t.smp, t.started, t.hev.head?)) =
    some ([], false, some (.desync 0x00 0x00 0x01 0x01)) := by decide

set_option maxRecDepth 16000 in
/-- V7 T1, byte 23: `SMP[1](R/200)`. -/
theorem test_smp_started : (after (exec (.smp [0x80C8]) (holding [] true))).map (fun t => (t.smp, t.hev, t.len)) =
    some ([0x80C8], [.smp 1], 0) := by decide

/-- V7 T15: a bare sentinel is seen whole, after two slides; residue `00 80`. -/
theorem test_eos : (after (exec .eos State.reset)).map (fun t => (t.hev, t.raw, t.winN)) =
    some ([.slide 0x00, .slide 0x80, .eos 2], [0x00, 0x80], 0) := by decide

/-- R70: the low byte arrives first; `64 80` is no `START`, so `64` is slid out. -/
theorem test_sampleR : (after (exec (.sampleR 100) State.reset)).map (fun t => (t.hev, (decoderOf t).buf)) =
    some ([.slide 0x64], [0x80]) := by decide

/-- V7 T12, bytes 0 and 1: `96 00`. -/
theorem test_sampleF : (after (exec (.sampleF 150) State.reset)).map (fun t => (t.hev, (decoderOf t).buf)) =
    some ([.slide 0x96], [0x00]) := by decide

/-- V1: the wrap is silent. -/
theorem test_tick_wraps : (after (exec .tick { State.reset with ts := 0xFFFFFFFF })).map (fun t => (t.ts, t.pev)) =
    some (0, []) := by decide

/-- V1: no edge. -/
theorem test_sense_no_edge : (after (exec (.sense false) State.reset)).map (fun t => (t.sigQ, t.head, t.prevTs)) =
    some (false, 0, 0) := by decide

/-- V1: `EDGE.R` at `ts` = 100 pushes `0x8064`. -/
theorem test_edgeR : (after (exec .edgeR { State.reset with ts := 100 })).map
    (fun t => (readCell t.ring 0, t.head, t.prevTs, t.sigQ)) = some (some 0x8064, 1, 100, true) := by decide

/-- V1: `EDGE.F` at `ts` = 250 after an edge at 100 pushes `0x0096`. -/
theorem test_edgeF : (after (exec .edgeF { State.reset with sigQ := true, ts := 250, prevTs := 100, head := 1 })).map
    (fun t => (readCell t.ring 1, t.head, t.prevTs, t.sigQ)) = some (some 0x0096, 2, 250, false) := by decide

/-- E1: the counter has wrapped. -/
theorem test_enc_wrap : (after (exec (.enc true 5) { State.reset with prevTs := 0xFFFFFFF0 })).map
    (fun t => (readCell t.ring 0, t.pev, t.prevTs)) = some (some 0x8015, [], 5) := by decide

/-- V2: saturation begins at 32768. -/
theorem test_enc_saturates : (after (exec (.enc false 32768) State.reset)).map (fun t => (readCell t.ring 0, t.pev)) =
    some (some 0x7FFF, [.saturated 32768]) := by decide

/-- V4, row 2: `head` wraps. -/
theorem test_push_wraps : (after (exec (.push 0x0001) { State.reset with head := 1023, rdW := 10, rd := 10 })).map
    (fun t => (readCell t.ring 1023, t.head, t.drop)) = some (some 0x0001, 0, 0) := by decide

/-- V4, row 4: the view is full; `drop` wraps. -/
theorem test_push_overflow : (after (exec (.push 0x0001) { State.reset with head := 0, rdW := 2, drop := 1023 })).map
    (fun t => (readCell t.ring 0, t.head, t.drop, t.pev)) = some (some 0x0001, 1, 0, [.overflow]) := by decide

/-- V4, row 6. -/
theorem test_take : (after (exec .take { State.reset with
    rd := 5, rdW := 5, head := 6, headR := 6, ring := [(5, 0x8064)] })).map
    (fun t => (t.taken, t.rd, nonemptyR t)) = some (0x8064, 6, false) := by decide

/-- V4, row 12: the slot is the free slot: the next free value, whatever it is. -/
theorem test_take_free : (after (exec .take { State.reset with head := 1, drop := 2, headR := 0, dropR := 1 })).map
    (fun t => (t.rd, t.draws)) = some (1, 1) := by decide

/-- V5: from 1022 towards 2, two steps along the path. -/
theorem test_syncHead : (after (exec (.syncHead 2) { State.reset with head := 2, headR := 1022 })).map State.headR =
    some 0 := by decide

/-- V5: current. -/
theorem test_syncDrop : (after (exec (.syncDrop 3) { State.reset with drop := 3 })).map State.dropR = some 3 := by decide

/-- V5: across the wrap of `ts`. -/
theorem test_syncTs : (after (exec (.syncTs 21) { State.reset with ts := 5, tsR := 0xFFFFFFF0 })).map State.tsR =
    some 5 := by decide

/-- V5: from 1020, three steps along the path. -/
theorem test_syncRd : (after (exec (.syncRd 3) { State.reset with rd := 0, rdW := 1020 })).map State.rdW =
    some 1023 := by decide

/-- R125's example. -/
theorem test_qStart : (after (exec .qStart { State.reset with head := 3, headR := 3, tsR := 250 })).map
    (fun t => (t.tx, t.cnt, t.lastAct, t.sess, t.rd)) =
      some ([0x00, 0x00, 0x00, 0x01, 0x00, 0x80], 0, 250, .active, 0) := by decide

/-- R126's example. -/
theorem test_qPop : (after (exec .qPop { State.reset with
    sess := .active, head := 3, headR := 3, tsR := 250, ring := [(0, 0x8000)] })).map
    (fun t => (readCell t.blk 0, t.cnt, t.rd, t.lastAct)) = some (some 0x8000, 1, 1, 250) := by decide

/-- R128's example. -/
theorem test_qTimeout : (after (exec .qTimeout { State.reset with
    sess := .active, cnt := 3, blk := [(0, 0x8000), (1, 0x0064), (2, 0x8096)], lastAct := 250, tsR := 5000251 })).map
    (fun t => (t.tx, t.cnt, t.sess)) =
      some ([0x00, 0x00, 0x01, 0x03, 0x00, 0x80, 0x64, 0x00, 0x96, 0x80, 0x00, 0x80, 0x00, 0x80, 0x00, 0x80],
        0, .idle) := by decide

/-- V6: at a difference of exactly 5 000 000 the window has not passed. -/
theorem test_qTimeout_not_expired :
    disabled (exec .qTimeout { State.reset with sess := .active, lastAct := 0xFFFFFF00, tsR := 0x004C4A40 }) = true := by
  decide

set_option maxRecDepth 16000 in
/-- V6: a full batch is sent first; only the batch is emptied. -/
theorem test_qFlush : (after (exec .qFlush { State.reset with sess := .active, cnt := 255, lastAct := 7 })).map
    (fun t => (t.tx.take 4, t.cnt, t.lastAct, t.sess)) = some ([0x00, 0x00, 0x01, 0xFF], 0, 7, .active) := by decide

/-- V6: Idle, empty view, whatever the timer says. -/
theorem test_qIdle : (after (exec .qIdle { State.reset with tsR := 5000001 })).map (fun t => (t.tx, t.sess)) =
    some ([], .idle) := by decide

/-- R141: the byte goes behind the others. -/
theorem test_rxAppend : (after (exec (.rxAppend 0x55) (holding [0x00, 0x00] true))).map
    (fun t => ((decoderOf t).buf, t.len, t.started)) = some ([0x00, 0x00, 0x55], 3, true) := by decide

/-- R142: three bytes in the window are no sentinel yet. -/
theorem test_rxEos_short_window : (after (exec (.rxEos 0x80) { State.reset with win := ⟨0x00, 0x80, 0x00, 0x00⟩, winN := 2 })).map
    (fun t => (t.winN, t.hev)) = some (3, []) := by decide

/-- R143: on a match the residue goes to `raw`. -/
theorem test_rxEos_match :
    (after (exec (.rxEos 0x80) { holding [0x00, 0x80] true with win := ⟨0x11, 0x00, 0x80, 0x00⟩, winN := 4 })).map
      (fun t => (t.winN, t.hev, t.raw, t.started, t.len)) = some (0, [.eos 2], [0x00, 0x80], false, 0) := by decide

/-- T16: noise is slid over up to the next `00 00`. -/
theorem test_rxSlide : (after (exec .rxSlide (holding [0x12, 0x00, 0x56, 0x00, 0x00, 0x78] false))).map
    (fun t => (t.hev, (decoderOf t).buf)) = some ([.slide 0x12, .slide 0x00, .slide 0x56], [0x00, 0x00, 0x78]) := by decide

/-- R147's example. -/
theorem test_rxHdr : (after (exec .rxHdr (holding [0x00, 0x00, 0x00, 0x01, 0x00, 0x80] false))).map
    (fun t => (t.hev, t.started, t.len)) = some ([.hdr 0x01], true, 0) := by decide

/-- R148's example. -/
theorem test_rxSmp :
    (after (exec .rxSmp (holding [0x00, 0x00, 0x01, 0x02, 0x64, 0x80, 0x96, 0x00, 0x00, 0x80] true))).map
      (fun t => (t.smp, t.hev, t.len, t.raw.length)) = some ([0x8064, 0x0096], [.smp 2], 0, 10) := by decide

/-- R149: an incomplete block changes nothing. -/
theorem test_rxWait : (after (exec .rxWait (holding [0x00, 0x00, 0x01, 0x02, 0x64, 0x80] true))).map
    (fun t => (t.len, t.hev)) = some (6, []) := by decide

/-- R151 (d): a header inside a session; exactly one byte goes. -/
theorem test_rxFail : (after (exec .rxFail (holding [0x00, 0x00, 0x00, 0x01, 0x00, 0x80] true))).map
    (fun t => (t.hev, (decoderOf t).buf)) = some ([.desync 0x00 0x00 0x00 0x01], [0x00, 0x00, 0x01, 0x00, 0x80]) := by decide

/-- T3, byte 15: the `END` is damaged. -/
theorem test_rx_bad_end :
    (after (exec (.rx 0x81) (holding [0x00, 0x00, 0x01, 0x02, 0x64, 0x80, 0x96, 0x00, 0x00] true))).map
      (fun t => (t.hev, (decoderOf t).buf)) =
        some ([.desync 0x00 0x00 0x01 0x02, .slide 0x00, .slide 0x01, .slide 0x02, .slide 0x64, .slide 0x80, .slide 0x96],
          [0x00, 0x00, 0x81]) := by decide

/-- T17, byte 17: a false candidate that fits is accepted. -/
theorem test_rx_false_candidate :
    (after (exec (.rx 0x80) (holding [0x00, 0x00, 0x01, 0x01, 0x34, 0x12, 0x00] true))).map (fun t => (t.smp, t.len)) =
      some ([0x1234], 0) := by decide

/-- R181. -/
theorem test_reset : (after (exec .reset { State.reset with
    ts := 7, sigQ := true, tx := [0x00], started := true, win := ⟨1, 2, 3, 4⟩, winN := 4, ring := [(0, 0x8000)] })).map
    (fun t => (t.ts, t.sigQ, t.tx, t.started, t.winN)) = some (0, false, [], false, 0) := by decide

/-! ## The step -/

/-- R170: in one cycle `SENSE` comes before `TICK`: the edge is stamped with the old `ts`. -/
theorem test_step_sense_before_tick :
    (after (step { State.reset with ts := 99, inputs := capCycle true true })).map
      (fun t => (readCell t.ring 0, t.ts, t.inputs)) = some (some 0x8063, 99, [.usTick]) := by decide

/-- R84: bytes that are no unit are received one by one. -/
theorem test_step_noise :
    (after (step (event (.burst 0x12 [])))).map (fun t => ((decoderOf t).buf, t.inputs)) = some ([0x12], []) := by decide

/-- A table word placed for the next step is what the next step runs. -/
theorem test_withFetchWord : (after (step (State.reset.withFetchWord 48 0x000000010080))).map (fun t => (t.hev, t.started)) =
    some ([.hdr 0x01], true) ∧
    (after (step (State.reset.withFetchWord 8 2))).map (fun t => (t.sigQ, t.head)) = some (false, 1) := by decide

/-! ## For each statement with hypotheses, concrete values that meet them -/

theorem witness_StepKeepsInvariant :
    Inv (event .usTick) ∧ (after (step (event .usTick))).isSome = true := by decide

theorem witness_EveryStepAnswersANextState :
    ({ State.reset with len := 600 } : State).len.toNat ≤ 600 ∧ State.reset.len.toNat ≤ 600 := by decide

theorem witness_StepRunsTheSelectedOperation :
    (event (.rxData 0x55)).inputs = [.rxData 0x55] ∧ State.reset.inputs = [] ∧
      decode (codeOf (fetch (event (.rxData 0x55))).2 (fetch (event (.rxData 0x55))).1) = .ok (.rx 0x55) ∧
      fetch (event .rst) = (.rst, State.reset) ∧ fetch (event .usTick) = (.usTick, State.reset) ∧
      fetch (event (.sigIn true)) = (.sigIn true, State.reset) ∧
      fetch (event .polling) = (.polling, State.reset) ∧
      fetch (event (.sync (.head 0))) = (.sync (.head 0), State.reset) ∧
      fetch (event (.burst 0x64 [0x80])) = (.burst 0x64 [0x80], State.reset) ∧
      decode (.wire [0x64, 0x80]) = .ok (.sampleR 100) ∧
      fetch (event (.burst 0x12 [])) = (.burst 0x12 [], State.reset) ∧
      decode (.wire [0x12]) = .error .noUnitOfThisLength := by decide

theorem witness_OnlyTheOwnerWritesARegister :
    (after (exec .tick State.reset)).isSome = true ∧ agentOf .tick = .p ∧
      (after (exec (.rxAppend 0x55) State.reset)).isSome = true ∧ agentOf (.rxAppend 0x55) = .h := by decide

theorem witness_OutputsOnlyGrow : Instr.tick ≠ .reset ∧ (after (exec .tick State.reset)).isSome = true := by decide

theorem witness_StepKeepsTheStreamGrammar :
    TxShape (event .usTick).sess (event .usTick).tx ∧ (after (step (event .usTick))).isSome = true :=
  ⟨.empty, by decide⟩

theorem witness_StepKeepsDirectionsAlternating :
    DirectionsAlternate (event (.sigIn true)) ∧ (after (step (event (.sigIn true)))).isSome = true :=
  ⟨⟨fun _ h => (nomatch h), fun _ _ _ _ h => (nomatch h)⟩, by decide⟩

theorem witness_DisabledOperationsHaveNoStep :
    ({ State.reset with sigQ := true } : State).sigQ = true ∧ State.reset.sigQ = false ∧
      tailR State.reset = State.reset.headR ∧ State.reset.sess = .idle ∧ (popping 254).cnt ≠ 255 ∧
      (popping 0).sess = .active ∧ (popping 255).cnt = 255 ∧ tailR (popping 0) ≠ (popping 0).headR ∧
      expired (silent 0 5000000) = false ∧ expired (silent 0 5000001) = true ∧
      (decoderOf (holding [0x00, 0x00, 0x00, 0x01, 0x00] false)).buf.length < 6 ∧
      ¬ [0x00, 0x00] <+: (decoderOf (holding [0x00, 0x01, 0x00, 0x01, 0x00, 0x80] false)).buf ∧
      byteAt (decoderOf (holding [0x00, 0x00, 0x00, 0x01, 0x00, 0x81] false)).buf 5 ≠ 0x80 ∧
      byteAt (decoderOf (holding [0x00, 0x00, 0x01, 0x00, 0x00, 0x80] true)).buf 3 = 0 ∧
      6 + 2 * 1 ≤ (decoderOf (holding [0x00, 0x00, 0x01, 0x01, 0x64, 0x80, 0x00, 0x80] true)).buf.length ∧
      byteAt (decoderOf (holding [0x00, 0x00, 0x00, 0x01, 0x00, 0x80] false)).buf 2 = 0x00 := by decide

theorem witness_DecoderFaultsOnlyBeyondItsBuffer :
    agentOf .rxSlide = .h ∧ 600 < ({ State.reset with len := 601 } : State).len.toNat ∧
      ({ State.reset with len := 600 } : State).len.toNat ≤ 600 ∧ agentOf .tick ≠ .h := by decide

set_option maxRecDepth 16000 in
theorem witness_DecodeOfEncodeIsTheOperation :
    (Instr.smp [0x8000]).wellFormed = true ∧ (Instr.smp (List.replicate 255 0x8000)).wellFormed = true := by decide

theorem witness_AUnitsBytesAreItsEncoding :
    decode (.wire [0x00, 0x00, 0x01, 0x01, 0x00, 0x80, 0x00, 0x80]) = .ok (.smp [0x8000]) := by decide

theorem witness_ReservedTypeAndZeroCountAreNoUnit : 2 ≤ (0x02 : Byte).toNat ∧ 2 ≤ (0xFF : Byte).toNat := by decide

theorem witness_TicksCountMicroseconds :
    ({ State.reset with inputs := [.usTick, .usTick, .usTick] } : State).inputs = List.replicate 3 .usTick := by decide

theorem witness_DeltaIsTheDifferenceModulo : (0x00000005 : Stamp) < 0xFFFFFFF0 := by decide

theorem witness_SenseEncodesEdgesOnly :
    false = State.reset.sigQ ∧ true ≠ State.reset.sigQ ∧ false ≠ ({ State.reset with sigQ := true } : State).sigQ ∧
      (event (.sigIn true)).inputs = [.sigIn true] := by decide

theorem witness_PushWritesThenPublishes :
    ({ State.reset with head := 1023 } : State).head + 1 =
        ({ State.reset with head := 1023 } : State).rdW + ({ State.reset with head := 1023 } : State).drop ∧
      State.reset.head + 1 ≠ State.reset.rdW + State.reset.drop := by decide

theorem witness_PushAddsOneUnlessItOverflows : (after (exec (.push 0x8000) State.reset)).isSome = true := by decide

theorem witness_PushAppendsToTheQueue :
    ProducerCurrent State.reset ∧ (occ State.reset).toNat = 0 ∧
      ProducerCurrent { State.reset with head := 1023 } ∧ (occ { State.reset with head := 1023 }).toNat = 1023 ∧
      (after (exec (.push 0x8000) { State.reset with head := 1023 })).isSome = true := by decide

theorem witness_OverflowKeepsTheLast1023 :
    1023 ≤ (List.replicate 1026 (0x8000 : Sample)).length ∧ occ State.reset = 0 ∧ ProducerCurrent State.reset :=
  ⟨by rw [List.length_replicate]; omega, by decide, by decide⟩

theorem witness_TakeRemovesTheOldest :
    ConsumerCurrent State.reset ∧ occ State.reset = 0 ∧
      ConsumerCurrent { State.reset with head := 2, headR := 2, ring := [(0, 0x8064), (1, 0x0096)] } ∧
      ringQueue { State.reset with head := 2, headR := 2, ring := [(0, 0x8064), (1, 0x0096)] } =
        some 0x8064 :: [some 0x0096] := by decide

/-- V4, row 12: the visible slot is the free slot. -/
def staleDrop : State := { State.reset with head := 1, drop := 2, headR := 0, dropR := 1 }

theorem witness_TakeReturnsTheSlotOrAFreeValue :
    (oneSample.rd + oneSample.dropR ≠ oneSample.headR ∧ occupied oneSample (oneSample.rd + oneSample.dropR) = true ∧
      readCell oneSample.ring (oneSample.rd + oneSample.dropR).toNat = some 0x8064) ∧
      staleDrop.rd + staleDrop.dropR ≠ staleDrop.headR ∧ occupied staleDrop (staleDrop.rd + staleDrop.dropR) = false := by
  decide

theorem witness_SyncShorthandMakesShadowsCurrent :
    ({ State.reset with inputs := syncAll } : State).inputs = syncAll ++ [] := by decide

/-- The six rows of R132, each with a step of Q next. -/
def polled (sess : Session) (cnt : BitVec 8) (headR : Ptr) (tsR : Stamp) : State :=
  { State.reset with sess := sess, cnt := cnt, headR := headR, tsR := tsR, inputs := [.polling] }

theorem witness_PollingRunsTheFirstEnabledOperation :
    ((polled .active 255 1 5000001).inputs = [.polling] ∧ (polled .active 255 1 5000001).sess = .active ∧
      (polled .active 255 1 5000001).cnt = 255) ∧
      ((polled .idle 0 1 0).sess = .idle ∧ tailR (polled .idle 0 1 0) ≠ (polled .idle 0 1 0).headR) ∧
      ((polled .active 254 1 5000001).sess = .active ∧ (polled .active 254 1 5000001).cnt ≠ 255 ∧
        tailR (polled .active 254 1 5000001) ≠ (polled .active 254 1 5000001).headR) ∧
      ((polled .active 254 0 5000001).sess = .active ∧ expired (polled .active 254 0 5000001) = true ∧
        tailR (polled .active 254 0 5000001) = (polled .active 254 0 5000001).headR ∧
        (polled .active 254 0 5000001).cnt ≠ 255) ∧
      ((polled .idle 0 0 5000001).sess = .idle ∧ tailR (polled .idle 0 0 5000001) = (polled .idle 0 0 5000001).headR) ∧
      (polled .active 254 0 5000000).sess = .active ∧ expired (polled .active 254 0 5000000) = false ∧
      tailR (polled .active 254 0 5000000) = (polled .active 254 0 5000000).headR ∧
      (polled .active 254 0 5000000).cnt ≠ 255 := by decide

theorem witness_StartOpensTheSession :
    oneSample.sess = .idle ∧ oneSample.rd + oneSample.dropR ≠ oneSample.headR := by decide

theorem witness_PopMovesOneSampleToTheBatch :
    ((popping 0).sess = .active ∧ (popping 0).rd + (popping 0).dropR ≠ (popping 0).headR ∧ (popping 0).cnt ≠ 255) ∧
      (popping 254).sess = .active ∧ (popping 254).rd + (popping 254).dropR ≠ (popping 254).headR ∧
      (popping 254).cnt ≠ 255 ∧ (popping 254).cnt = 254 := by decide

theorem witness_FlushSendsTheFullBatch : (popping 255).sess = .active ∧ (popping 255).cnt = 255 := by decide

/-- The hypotheses of `TimeoutClosesTheSession`. -/
abbrev TimesOut (s : State) : Prop :=
  s.sess = .active ∧ s.rd + s.dropR = s.headR ∧ expired s = true ∧ s.cnt ≠ 255

theorem witness_TimeoutClosesTheSession :
    (TimesOut (silent 0 5000001) ∧ (silent 0 5000001).cnt = 0) ∧
      TimesOut (silent 254 5000001) ∧ (silent 254 5000001).cnt ≠ 0 := by decide

theorem witness_IdleChangesNothing :
    (State.reset.rd + State.reset.dropR = State.reset.headR ∧ State.reset.sess ≠ .active) ∧
      (silent 254 5000000).rd + (silent 254 5000000).dropR = (silent 254 5000000).headR ∧
      ((silent 254 5000000).sess = .active → (silent 254 5000000).cnt ≠ 255 ∧ expired (silent 254 5000000) = false) := by
  decide

theorem witness_AppendStoresTheByte :
    ({ State.reset with len := 599 } : State).len.toNat < 600 ∧ ({ State.reset with len := 600 } : State).len.toNat = 600 := by
  decide

/-- The window matches when `80` comes. -/
def almost (winN : BitVec 3) : State := { State.reset with win := ⟨0x11, 0x00, 0x80, 0x00⟩, winN := winN }

theorem witness_SentinelEndsTheSession :
    ((almost 3).len.toNat ≤ 600 ∧ 3 ≤ (almost 3).winN.toNat ∧ (almost 3).win.w1 = 0x00 ∧ (almost 3).win.w2 = 0x80 ∧
      (almost 3).win.w3 = 0x00 ∧ (0x80 : Byte) = 0x80) ∧
      (almost 2).len.toNat ≤ 600 ∧ ¬ 3 ≤ (almost 2).winN.toNat := by decide

theorem witness_SlideHuntsForTheNextStart : ({ State.reset with len := 600 } : State).len.toNat ≤ 600 := by decide

theorem witness_HeaderIsAccepted :
    (holding [0x00, 0x00, 0x00, 0x02, 0x00, 0x80, 0x55] false).len.toNat ≤ 600 ∧
      (holding [0x00, 0x00, 0x00, 0x02, 0x00, 0x80, 0x55] false).started = false ∧
      (decoderOf (holding [0x00, 0x00, 0x00, 0x02, 0x00, 0x80, 0x55] false)).buf =
        [0x00, 0x00, 0x00, 0x02, 0x00, 0x80] ++ [0x55] := by decide

theorem witness_SampleBlockIsAccepted :
    (holding [0x00, 0x00, 0x01, 0x01, 0x64, 0x80, 0x00, 0x80, 0x55] true).len.toNat ≤ 600 ∧
      (holding [0x00, 0x00, 0x01, 0x01, 0x64, 0x80, 0x00, 0x80, 0x55] true).started = true ∧ (0x01 : Byte) ≠ 0 ∧
      [(0x64 : Byte), 0x80].length = 2 * (0x01 : Byte).toNat ∧
      (decoderOf (holding [0x00, 0x00, 0x01, 0x01, 0x64, 0x80, 0x00, 0x80, 0x55] true)).buf =
        [0x00, 0x00, 0x01, 0x01] ++ [0x64, 0x80] ++ [0x00, 0x80] ++ [0x55] := by decide

theorem witness_IncompleteBlockWaits :
    (holding [0x00, 0x00, 0x01, 0x01, 0x64, 0x80] true).len.toNat ≤ 600 ∧
      (holding [0x00, 0x00, 0x01, 0x01, 0x64, 0x80] true).started = true ∧ (0x01 : Byte) ≠ 0 ∧
      (decoderOf (holding [0x00, 0x00, 0x01, 0x01, 0x64, 0x80] true)).buf = [0x00, 0x00, 0x01, 0x01] ++ [0x64, 0x80] ∧
      2 ≤ [(0x64 : Byte), 0x80].length ∧ [(0x64 : Byte), 0x80].length < 2 + 2 * (0x01 : Byte).toNat := by decide

/-- The hypotheses of `FailedCandidateLosesOneByte`. -/
abbrev Fails (type par : Byte) (rest : List Byte) (s : State) : Prop :=
  s.len.toNat ≤ 600 ∧ (decoderOf s).buf = [0x00, 0x00, type, par] ++ rest ∧ 2 ≤ rest.length ∧
    (type = 0x00 ∧ s.started = false ∧ rest.take 2 ≠ [0x00, 0x80] ∨
      type = 0x01 ∧ s.started = true ∧ par ≠ 0 ∧ 2 * par.toNat + 2 ≤ rest.length ∧
        (rest.drop (2 * par.toNat)).take 2 ≠ [0x00, 0x80] ∨
      type = 0x01 ∧ s.started = true ∧ par = 0 ∨
      type = 0x00 ∧ s.started = true ∨
      type = 0x01 ∧ s.started = false ∨
      2 ≤ type.toNat)

/-- Each of the six cases (a) to (f) of R151. -/
theorem witness_FailedCandidateLosesOneByte :
    Fails 0x00 0x01 [0x00, 0x81] (holding [0x00, 0x00, 0x00, 0x01, 0x00, 0x81] false) ∧
      Fails 0x01 0x01 [0x64, 0x80, 0x00, 0x81] (holding [0x00, 0x00, 0x01, 0x01, 0x64, 0x80, 0x00, 0x81] true) ∧
      Fails 0x01 0x00 [0x00, 0x80] (holding [0x00, 0x00, 0x01, 0x00, 0x00, 0x80] true) ∧
      Fails 0x00 0x01 [0x00, 0x80] (holding [0x00, 0x00, 0x00, 0x01, 0x00, 0x80] true) ∧
      Fails 0x01 0x01 [0x64, 0x80] (holding [0x00, 0x00, 0x01, 0x01, 0x64, 0x80] false) ∧
      Fails 0x02 0x01 [0x11, 0x22] (holding [0x00, 0x00, 0x02, 0x01, 0x11, 0x22] false) :=
  ⟨by decide, by decide, by decide, by decide, by decide, by decide⟩

theorem witness_ExactlyOnePartApplies :
    (holding [0x00, 0x00, 0x01, 0x01, 0x64, 0x80] true).len.toNat ≤ 600 ∧
      (decoderOf (holding [0x00, 0x00, 0x01, 0x01, 0x64, 0x80] true)).buf = [0x00, 0x00] ++ [0x01, 0x01, 0x64, 0x80] ∧
      4 ≤ [(0x01 : Byte), 0x01, 0x64, 0x80].length := by decide

theorem witness_ReceiveIsItsPartsInOrder : ({ State.reset with len := 600 } : State).len.toNat ≤ 600 := by decide

theorem witness_ReceiveNeverFillsTheBuffer : ({ State.reset with len := 515 } : State).len.toNat ≤ 515 := by decide

theorem witness_SentinelBeatsTheBlockItCompletes :
    (almost 3).len.toNat < 600 ∧ 3 ≤ (almost 3).winN.toNat ∧ (almost 3).win.w1 = 0x00 ∧ (almost 3).win.w2 = 0x80 ∧
      (almost 3).win.w3 = 0x00 := by decide

theorem witness_OperationsDependOnWhatTheirAgentReads :
    agentOf .tick = .p ∧ (after (exec .tick State.reset)).isSome = true ∧
      SameP State.reset { State.reset with len := 7 } ∧ State.reset.rdW = ({ State.reset with len := 7 } : State).rdW ∧
      agentOf .qPop = .q ∧ (after (exec .qPop (popping 0))).isSome = true ∧
      SameQ (popping 0) { popping 0 with ts := 7 } ∧ ({ popping 0 with ts := 7 } : State).ring = (popping 0).ring ∧
      agentOf (.rx 0x55) = .h ∧ (after (exec (.rx 0x55) State.reset)).isSome = true ∧
      decoderOf State.reset = decoderOf { State.reset with ts := 7 } ∧
      (after (exec (.syncTs 3) State.reset)).isSome = true := by
  decide

theorem witness_WireUnitsAreOneReceiveForEachByte :
    ({ State.reset with len := 515 } : State).len.toNat ≤ 515 := by decide

theorem witness_SampleBlockRoundTrip :
    1 ≤ [(0x8064 : Sample), 0x0096].length ∧ [(0x8064 : Sample), 0x0096].length ≤ 255 ∧ (holding [] true).started = true ∧
      (holding [] true).len = 0 ∧ NoSentinel (decoderOf (holding [] true)) (smpBytes [0x8064, 0x0096]) := by decide

theorem witness_HeaderRoundTrip :
    State.reset.started = false ∧ State.reset.len = 0 ∧ NoSentinel (decoderOf State.reset) (hdrBytes 0xFF) := by decide

/-- An `END` was received last. -/
def afterEnd : State := { State.reset with win := ⟨0x11, 0x22, 0x00, 0x80⟩, winN := 2 }

theorem witness_SentinelAfterAnEndLeavesOneByte :
    afterEnd.len = 0 ∧ 2 ≤ afterEnd.winN.toNat ∧ afterEnd.win.w2 = 0x00 ∧ afterEnd.win.w3 = 0x80 := by decide

theorem witness_ZeroRisingLastSampleIsAFalseSentinel :
    [(0x0064 : Sample)].length ≤ 254 ∧ (holding [] true).started = true ∧ (holding [] true).len = 0 ∧
      NoSentinel (decoderOf (holding [] true)) (smpBytes ([0x0064] ++ [0x8000])).dropLast := by decide

theorem witness_CleanSessionIsDecoded :
    (∀ b ∈ [[(0x8064 : Sample), 0x0096], [0x80C8]], 1 ≤ b.length ∧ b.length ≤ 255) ∧ State.reset.started = false ∧
      State.reset.len = 0 ∧
      NoSentinel (decoderOf State.reset) (hdrBytes 0x01 ++ [[(0x8064 : Sample), 0x0096], [0x80C8]].flatMap smpBytes) := by
  decide

theorem witness_RawCaptureReproducesTheSamples :
    (∀ b ∈ [[(0x8064 : Sample)]], 1 ≤ b.length ∧ b.length ≤ 255) ∧ State.reset.started = false ∧ State.reset.len = 0 ∧
      NoSentinel (decoderOf State.reset) (hdrBytes 0x01 ++ [[(0x8064 : Sample)]].flatMap smpBytes) := by decide

/-! ## The premises on runs -/

/-- The states before the steps of a producer that pushes at every step while no synchroniser steps. -/
def pushing (k : Nat) : State := { State.reset with head := BitVec.ofNat 10 k, inputs := [.usTick] }

/-- R190 (a): 1024 pushes without a `SYNC.HEAD` break the bound, although the registers then show no distance. -/
theorem test_full_wrap_breaks_the_bound :
    (pushing 1024).head = (pushing 1024).headR ∧ ¬ SourceWithinWrap pushing .syncHead State.head := by
  refine ⟨by decide, fun h => ?_⟩
  have moves : ∀ k, (pushing (k + 1)).head ≠ (pushing k).head := fun k hk => by
    have := congrArg BitVec.toNat hk
    simp only [pushing, BitVec.toNat_ofNat] at this
    omega
  have := h 0 1024 (by decide) fun k _ _ => ⟨by simp [opAt, issue, fetch, pushing, codeOf, decode],
    by simp [opAt, issue, fetch, pushing, codeOf, decode]⟩
  rw [advances_eq 0 1024 moves] at this
  exact absurd this (by decide)

/-- R190 (b): a run in which only time passes keeps the bound. -/
theorem test_only_ticks_keep_the_lag_below_the_ring :
    LagBelowRing fun k => { State.reset with ts := BitVec.ofNat 32 k } := by
  rintro (_ | n) <;> simp [advancesSinceCurrent, Config.ringSlots, State.reset]

end Sys2Proof.Tests
end

/-! Proofs of the statements about the state: what an operation may write, agent by agent, and from that who writes
which register (10_state.md R15, 60_exceptions.md R177) and that outputs only grow (R31, R35). -/

namespace Sys2Proof.Machine

/-! ## Frames: beside `OnlyH`, the same for the other agents -/

/-- Every register, array and output that is not P's is unchanged: the frame of an operation of P. -/
abbrev OnlyP (s t : State) : Prop := SameQ s t ∧ SameS s t ∧ SameH s t ∧ SameEnv s t

/-- Every register, array and output that is not Q's is unchanged: the frame of an operation of Q. -/
abbrev OnlyQ (s t : State) : Prop := SameP s t ∧ SameS s t ∧ SameH s t ∧ SameEnv s t

/-- Every register, array and output that is not S's is unchanged: the frame of an operation of S. -/
abbrev OnlyS (s t : State) : Prop := SameP s t ∧ SameQ s t ∧ SameH s t ∧ SameEnv s t

theorem onlyP_pushSample (v : Sample) (s : State) : OnlyP s (pushSample v s) := by
  simp [OnlyP, SameQ, SameS, SameH, SameEnv]

theorem onlyP_encodeEdge (dir : Bool) (t : Stamp) (s : State) : OnlyP s (encodeEdge dir t s) := by
  simp [OnlyP, SameQ, SameS, SameH, SameEnv]

theorem onlyP_senseLevel (level : Bool) (s : State) : OnlyP s (senseLevel level s) := by
  unfold senseLevel
  split
  · exact onlyP_encodeEdge level s.ts s
  · simp [OnlyP, SameQ, SameS, SameH, SameEnv]

theorem onlyQ_takeSample (s : State) : OnlyQ s (takeSample s) := by
  simp [OnlyQ, SameP, SameS, SameH, SameEnv]

/-! ## Growth of the outputs -/

theorem encodeEdge_pev_grew (dir : Bool) (t : Stamp) (s : State) : s.pev <+: (encodeEdge dir t s).pev :=
  (List.prefix_append _ _).trans (List.prefix_append _ _)

theorem senseLevel_pev_grew (level : Bool) (s : State) : s.pev <+: (senseLevel level s).pev := by
  unfold senseLevel
  split
  · exact encodeEdge_pev_grew level s.ts s
  · exact List.prefix_rfl

theorem sentinelPart_grew (b : Byte) (d : Decoder) : d.Grew (sentinelPart b d) := by
  simp only [sentinelPart]
  split
  · exact endSession_grew (shiftWindow b d)
  · simp [Decoder.Grew]

/-! ## What an operation of each agent may do -/

/-- An operation of P writes what P owns alone, and `pev` only grows. -/
theorem exec_p {i : Instr} {s t : State} (hi : agentOf i = .p) (h : exec i s = .next t) :
    OnlyP s t ∧ s.pev <+: t.pev := by
  cases i <;> cases hi
  case tick =>
    cases h
    simp [OnlyP, SameQ, SameS, SameH, SameEnv]
  case sense level =>
    cases h
    exact ⟨onlyP_senseLevel level s, senseLevel_pev_grew level s⟩
  case edgeR =>
    obtain ⟨-, rfl⟩ := whenEnabled_next.mp h
    exact ⟨onlyP_senseLevel true s, senseLevel_pev_grew true s⟩
  case edgeF =>
    obtain ⟨-, rfl⟩ := whenEnabled_next.mp h
    exact ⟨onlyP_senseLevel false s, senseLevel_pev_grew false s⟩
  case enc dir τ =>
    cases h
    exact ⟨onlyP_encodeEdge dir τ s, encodeEdge_pev_grew dir τ s⟩
  case push v =>
    cases h
    exact ⟨onlyP_pushSample v s, List.prefix_append _ _⟩

/-- An operation of Q writes what Q owns alone, and `tx` only grows. -/
theorem exec_q {i : Instr} {s t : State} (hi : agentOf i = .q) (h : exec i s = .next t) :
    OnlyQ s t ∧ s.tx <+: t.tx := by
  cases i <;> cases hi
  all_goals obtain ⟨-, rfl⟩ := whenEnabled_next.mp h
  case take => exact ⟨onlyQ_takeSample s, List.prefix_rfl⟩
  case qPop => exact ⟨onlyQ_takeSample s, List.prefix_rfl⟩
  all_goals simp [OnlyQ, SameP, SameS, SameH, SameEnv]

/-- An operation of S writes the shadows alone. -/
theorem exec_s {i : Instr} {s t : State} (hi : agentOf i = .s) (h : exec i s = .next t) : OnlyS s t := by
  cases i <;> cases hi
  all_goals
    cases h
    simp [OnlyS, SameP, SameQ, SameH, SameEnv]

theorem onDecoder_effect {s t : State} {f : Decoder → Decoder} (hf : ∀ d : Decoder, d.Grew (f d))
    (h : onDecoder s f = .next t) : OnlyH s t ∧ (decoderOf s).Grew (decoderOf t) := by
  obtain ⟨-, rfl⟩ := onDecoder_next.mp h
  exact ⟨onlyH_withDecoder s _, hf (decoderOf s)⟩

theorem onCandidate_effect {s t : State} {p : Part} {f : Decoder → Decoder} (hf : ∀ d : Decoder, d.Grew (f d))
    (h : onCandidate s p f = .next t) : OnlyH s t ∧ (decoderOf s).Grew (decoderOf t) := by
  obtain ⟨-, -, rfl⟩ := onCandidate_next.mp h
  exact ⟨onlyH_withDecoder s _, hf (decoderOf s)⟩

/-- `RX.WAIT` changes nothing (44_decoder_resync.md R149). -/
theorem execRxWait_next {s t : State} (h : execRxWait s = .next t) : t = s := by
  unfold execRxWait at h
  split at h
  · exact (whenEnabled_next.mp h).2.symm
  · cases h

/-- An operation of H writes what H owns alone, and `raw`, `smp` and `hev` only grow. -/
theorem exec_h {i : Instr} {s t : State} (hi : agentOf i = .h) (h : exec i s = .next t) :
    OnlyH s t ∧ (decoderOf s).Grew (decoderOf t) := by
  cases i <;> cases hi
  case hdr version => exact onDecoder_effect (receiveBytes_grew _) h
  case smp samples => exact onDecoder_effect (receiveBytes_grew _) h
  case eos => exact onDecoder_effect (receiveBytes_grew _) h
  case sampleR delay => exact onDecoder_effect (receiveBytes_grew _) h
  case sampleF delay => exact onDecoder_effect (receiveBytes_grew _) h
  case rx b => exact onDecoder_effect (receiveByte_grew b) h
  case rxAppend b => exact onDecoder_effect (appendByte_grew b) h
  case rxEos b => exact onDecoder_effect (sentinelPart_grew b) h
  case rxSlide => exact onDecoder_effect slidePart_grew h
  case rxHdr => exact onCandidate_effect acceptHeader_grew h
  case rxSmp => exact onCandidate_effect acceptSamples_grew h
  case rxFail => exact onCandidate_effect failCandidate_grew h
  case rxWait =>
    obtain rfl := execRxWait_next h
    simp [OnlyH, SameP, SameQ, SameS, SameEnv, Decoder.Grew]

theorem agentOf_eq_all {i : Instr} : agentOf i = .all ↔ i = .reset := by
  cases i <;> simp [agentOf]

/-- `RESET` keeps the environment's fields (log 17). -/
theorem exec_reset_env {s t : State} (h : exec .reset s = .next t) : SameEnv s t := by
  cases h
  exact ⟨rfl, rfl⟩

/-! ## The statements -/

/-- Settles O8, by the agent whose step the operation is. -/
theorem onlyTheOwnerWritesARegister : Obligations.OnlyTheOwnerWritesARegister := by
  unfold Obligations.OnlyTheOwnerWritesARegister
  intro i s t h
  cases hi : agentOf i
  case p =>
    obtain ⟨⟨hq, hs, hh, henv⟩, -⟩ := exec_p hi h
    exact ⟨fun hp => absurd rfl hp, fun _ _ => hq, fun _ _ => hh, fun _ _ => hs, henv⟩
  case q =>
    obtain ⟨⟨hp, hs, hh, henv⟩, -⟩ := exec_q hi h
    exact ⟨fun _ _ => hp, fun hq => absurd rfl hq, fun _ _ => hh, fun _ _ => hs, henv⟩
  case h =>
    obtain ⟨⟨hp, hq, hs, henv⟩, -⟩ := exec_h hi h
    exact ⟨fun _ _ => hp, fun _ _ => hq, fun hh => absurd rfl hh, fun _ _ => hs, henv⟩
  case s =>
    obtain ⟨hp, hq, hh, henv⟩ := exec_s hi h
    exact ⟨fun _ _ => hp, fun _ _ => hq, fun _ _ => hh, fun hs => absurd rfl hs, henv⟩
  case all =>
    obtain rfl := agentOf_eq_all.mp hi
    simpa using exec_reset_env h

/-- Settles O9: the agent's own outputs grow, and the others' are as before. -/
theorem outputsOnlyGrow : Obligations.OutputsOnlyGrow := by
  unfold Obligations.OutputsOnlyGrow
  intro i s t hreset h
  cases hi : agentOf i
  case p =>
    obtain ⟨⟨hq, -, hh, -⟩, grew⟩ := exec_p hi h
    simp [OutputsGrew, hq, hh, grew]
  case q =>
    obtain ⟨⟨hp, -, hh, -⟩, grew⟩ := exec_q hi h
    simp [OutputsGrew, hp, hh, grew]
  case h =>
    obtain ⟨⟨hp, hq, -, -⟩, raw, smp, hev⟩ := exec_h hi h
    exact ⟨by simp [hq], raw, smp, hev, by simp [hp]⟩
  case s =>
    obtain ⟨hp, hq, hh, -⟩ := exec_s hi h
    simp [OutputsGrew, hp, hq, hh]
  case all => exact absurd (agentOf_eq_all.mp hi) hreset

/-- Settles O1: each value is read off the field of `State.reset`. -/
theorem resetStateHasTheValuesOfTheSpec : Obligations.ResetStateHasTheValuesOfTheSpec := by
  unfold Obligations.ResetStateHasTheValuesOfTheSpec
  and_intros <;> rfl

end Sys2Proof.Machine

/-! Proof of the statement about the Sample word: its two fields read back (30_encoding.md R69, R98), and its two wire
bytes, low byte first, rebuild it (20_memory.md R50). -/

namespace Sys2Proof.Machine

/-! ## The Sample word -/

/-- The two fields of a Sample share no bit, so packing them is concatenation. -/
theorem packSample_eq_append (dir : Bool) (delay : Delay) :
    packSample dir delay = BitVec.ofBool dir ++ delay := by
  rw [packSample, BitVec.append_def, BitVec.shiftLeftZeroExtend_eq, BitVec.setWidth'_eq]

theorem packSample_toNat (dir : Bool) (delay : Delay) :
    (packSample dir delay).toNat = dir.toNat * 32768 + delay.toNat := by
  rw [packSample_eq_append, BitVec.toNat_append, BitVec.toNat_ofBool,
    ← Nat.shiftLeft_add_eq_or_of_lt delay.isLt, Nat.shiftLeft_eq]

@[simp] theorem sampleDir_packSample (dir : Bool) (delay : Delay) : sampleDir (packSample dir delay) = dir := by
  rw [packSample_eq_append, sampleDir, BitVec.getLsbD_append]
  simp

@[simp] theorem sampleDelay_packSample (dir : Bool) (delay : Delay) :
    sampleDelay (packSample dir delay) = delay := by
  rw [packSample_eq_append]
  exact BitVec.setWidth_append_eq_right

/-! ## Its bytes on the wire -/

/-- The bytes of a Sample are its remainder and its quotient by 256, the remainder first (20_memory.md R50). -/
theorem sampleBytes_eq_ofNat (s : Sample) :
    sampleBytes s = [BitVec.ofNat 8 (s.toNat % 256), BitVec.ofNat 8 (s.toNat / 256)] := by
  have low : s.setWidth 8 = BitVec.ofNat 8 (s.toNat % 256) := by
    apply BitVec.eq_of_toNat_eq
    simp
  have high : (s >>> 8).setWidth 8 = BitVec.ofNat 8 (s.toNat / 256) := by
    apply BitVec.eq_of_toNat_eq
    simp [Nat.shiftRight_eq_div_pow]
  rw [sampleBytes, low, high]

/-! ## The statement -/

/-- Settles O18, from the fields of the packed word and from the bytes of any word. -/
theorem sampleFieldsAndBytesReadBack : Obligations.SampleFieldsAndBytesReadBack := by
  unfold Obligations.SampleFieldsAndBytesReadBack
  exact ⟨fun dir delay =>
      ⟨packSample_toNat dir delay, sampleDir_packSample dir delay, sampleDelay_packSample dir delay⟩,
    fun s => ⟨sampleBytes_eq_ofNat s, joinBytes_of_sample s⟩⟩

end Sys2Proof.Machine

/-! Proof of the statement about the stream's grammar: what an operation of Q sends in each session state
(30_encoding.md R77, 43_session_framer.md R133), and that no other operation reaches `tx` or `sess`. -/

namespace Sys2Proof.Machine

theorem isActive_iff {s : State} : isActive s = true ↔ s.sess = .active := by
  simp [isActive]

theorem isActive_eq_false_iff {s : State} : isActive s = false ↔ s.sess = .idle := by
  cases h : s.sess <;> simp [isActive, h]

theorem batchFull_iff {s : State} : batchFull s = true ↔ s.cnt = 255 := by
  simp [batchFull]

@[simp] theorem length_batch (s : State) : (batch s).length = s.cnt.toNat := by
  simp [batch]

/-- A batch that is neither empty nor full has the 1 to 254 Samples of a last SampleBlock (43_session_framer.md R128). -/
theorem length_batch_of_partial {s : State} (hzero : s.cnt ≠ 0) (hfull : batchFull s = false) :
    1 ≤ (batch s).length ∧ (batch s).length ≤ 254 := by
  have hne : s.cnt ≠ 255 := by simpa [batchFull] using hfull
  rw [length_batch]
  bv_omega

/-! ## The operations of Q -/

/-- A full batch extends an Active session by `SMP[255]` (43_session_framer.md R127). -/
theorem txShape_execQFlush {s t : State} (hs : TxShape s.sess s.tx) (h : execQFlush s = .next t) :
    TxShape t.sess t.tx := by
  obtain ⟨guard, rfl⟩ := whenEnabled_next.mp h
  obtain ⟨hactive, hfull⟩ := Bool.and_eq_true_iff.mp guard
  rw [isActive_iff] at hactive
  have hlen : (batch s).length = 255 := by simp [batchFull_iff.mp hfull]
  simp only [hactive] at hs ⊢
  exact .full hs hlen

/-- A HeaderBlock starts a session when the last one is closed (43_session_framer.md R125). -/
theorem txShape_execQStart {s t : State} (hs : TxShape s.sess s.tx) (h : execQStart s = .next t) :
    TxShape t.sess t.tx := by
  obtain ⟨guard, rfl⟩ := whenEnabled_next.mp h
  have hidle : s.sess = .idle := by
    rw [← isActive_eq_false_iff]
    simpa using (Bool.and_eq_true_iff.mp guard).1
  rw [hidle] at hs
  exact .header hs

/-- The EndOfStream closes an Active session, after a SampleBlock exactly when the batch is not empty
(43_session_framer.md R128). -/
theorem txShape_execQTimeout {s t : State} (hs : TxShape s.sess s.tx) (h : execQTimeout s = .next t) :
    TxShape t.sess t.tx := by
  obtain ⟨guard, rfl⟩ := whenEnabled_next.mp h
  simp only [Bool.and_eq_true, Bool.not_eq_true'] at guard
  obtain ⟨⟨⟨hactive, -⟩, -⟩, hfull⟩ := guard
  rw [isActive_iff.mp hactive] at hs
  by_cases hzero : s.cnt = 0
  · simpa [hzero] using TxShape.closed hs
  · obtain ⟨hlow, hhigh⟩ := length_batch_of_partial hzero hfull
    rw [if_neg hzero]
    exact .closedPartial hs hlow hhigh

/-- `TAKE`, `Q.POP` and `Q.IDLE` send nothing and leave the session as it is. -/
theorem txShape_exec_q {i : Instr} {s t : State} (hi : agentOf i = .q) (hs : TxShape s.sess s.tx)
    (h : exec i s = .next t) : TxShape t.sess t.tx := by
  cases i <;> cases hi
  case qFlush => exact txShape_execQFlush hs h
  case qStart => exact txShape_execQStart hs h
  case qTimeout => exact txShape_execQTimeout hs h
  case take | qPop | qIdle =>
    obtain ⟨-, rfl⟩ := whenEnabled_next.mp h
    exact hs

/-! ## Every operation -/

theorem txShape_of_sameQ {s t : State} (hs : TxShape s.sess s.tx) (h : SameQ s t) : TxShape t.sess t.tx := by
  obtain ⟨-, hsess, -, -, -, htx, -, -⟩ := h
  rwa [hsess, htx]

/-- Every operation keeps the grammar, those that `step` never issues alone included. -/
theorem txShape_exec {i : Instr} {s t : State} (hs : TxShape s.sess s.tx) (h : exec i s = .next t) :
    TxShape t.sess t.tx := by
  cases hi : agentOf i
  case p =>
    obtain ⟨⟨hq, -⟩, -⟩ := exec_p hi h
    exact txShape_of_sameQ hs hq
  case q => exact txShape_exec_q hi hs h
  case h =>
    obtain ⟨⟨-, hq, -⟩, -⟩ := exec_h hi h
    exact txShape_of_sameQ hs hq
  case s =>
    obtain ⟨-, hq, -⟩ := exec_s hi h
    exact txShape_of_sameQ hs hq
  case all =>
    obtain rfl := agentOf_eq_all.mp hi
    cases h
    exact .empty

/-! ## The statement -/

/-- Settles O10: each operation that a step can issue keeps the grammar. -/
theorem stepKeepsTheStreamGrammar : Obligations.StepKeepsTheStreamGrammar := by
  unfold Obligations.StepKeepsTheStreamGrammar
  intro s t hs h
  exact step_keeps (P := fun s => TxShape s.sess s.tx) (fun _ _ _ hs => hs)
    (fun _ _ _ _ hs h => txShape_exec hs h) hs h

end Sys2Proof.Machine

/-! Proofs of the statements about what the port events select: the event a step fetches, the operation it runs
(30_encoding.md R79, R80), a level at `sig_in` as `SENSE` (40_timestamp_edge.md R90), and the shorthand `SYNC`
(30_encoding.md R86). -/

namespace Sys2Proof.Machine

/-! ## The fetch and the selection -/

theorem fetch_of_inputs_cons {s : State} {e : PortEvent} {es : List PortEvent} (h : s.inputs = e :: es) :
    fetch s = (e, { s with inputs := es }) := by
  simp only [fetch, h]

theorem fetch_of_inputs_nil {s : State} (h : s.inputs = []) :
    fetch s = (Config.environment s.envN, { s with envN := s.envN + 1 }) := by
  simp only [fetch, h]

/-- A fetched event whose code decodes runs the decoded operation. -/
theorem step_of_decode_ok {s u : State} {e : PortEvent} {i : Instr} (hf : fetch s = (e, u))
    (hd : decode (codeOf u e) = .ok i) : step s = exec i u := by
  simp only [step, issue, hf, hd]

/-- A fetched event whose code does not decode is noise (30_encoding.md R84; log 3). -/
theorem step_of_decode_error {s u : State} {e : PortEvent} {err : DecodeError} (hf : fetch s = (e, u))
    (hd : decode (codeOf u e) = .error err) : step s = exec (splitNoise u e).1 (splitNoise u e).2 := by
  simp only [step, issue, hf, hd]

/-- A level at `sig_in` runs the row of the table of 30_encoding.md R79. -/
theorem step_of_sigIn {s u : State} {level : Bool} (hf : fetch s = (.sigIn level, u)) :
    step s = exec (decodePins u.sigQ level) u := step_of_decode_ok hf rfl

/-- A step of S runs its `SYNC.x` (42_ring_buffer.md R113 to R116). -/
theorem step_of_sync {s u : State} {x : SyncStep} (hf : fetch s = (.sync x, u)) :
    step s = exec (decodeSync x) u := step_of_decode_ok hf rfl

theorem decodePins_same (level : Bool) : decodePins level level = .sense level := by
  cases level <;> rfl

/-- Settles O7: every event but a burst of noise has a code that decodes. -/
theorem stepRunsTheSelectedOperation : Obligations.StepRunsTheSelectedOperation := by
  unfold Obligations.StepRunsTheSelectedOperation
  refine ⟨fun s e es h => fetch_of_inputs_cons h, fun s h => fetch_of_inputs_nil h,
    fun s i hd => step_of_decode_ok rfl hd, fun s u e hf => ?_⟩
  refine ⟨?rst, ?usTick, ?sigIn, ?rxData, ?head, ?drop, ?ts, ?rd, ?polling, ?unit, ?noise⟩
  case rst | usTick | polling =>
    rintro rfl
    exact step_of_decode_ok hf rfl
  case rxData =>
    rintro b rfl
    exact step_of_decode_ok hf rfl
  case head | drop | ts | rd =>
    rintro i rfl
    exact step_of_sync hf
  case sigIn =>
    rintro level rfl
    rw [step_of_sigIn hf]
    refine ⟨?_, ?_, ?_⟩
    · rintro rfl
      rw [decodePins_same]
    · rintro hq rfl
      rw [hq]
      rfl
    · rintro hq rfl
      rw [hq]
      rfl
  case unit =>
    rintro b rest i rfl hd
    exact step_of_decode_ok hf hd
  case noise =>
    rintro b rest err rfl hd
    exact step_of_decode_error hf hd

/-! ## A level at the input -/

/-- No edge: `sig_q` already is the level. -/
theorem senseLevel_same (s : State) : senseLevel s.sigQ s = s := by
  simp [senseLevel]

/-- An edge: the Sample is encoded with the time of this step, then `sig_q` is the level. -/
theorem senseLevel_of_ne {level : Bool} {s : State} (h : level ≠ s.sigQ) :
    senseLevel level s = { encodeEdge level s.ts s with sigQ := level } := by
  simp [senseLevel, h]

theorem exec_edgeR_of_low {s : State} (h : s.sigQ = false) : exec .edgeR s = exec (.sense true) s := by
  simp [exec, execEdgeR, execSense, h]

theorem exec_edgeF_of_high {s : State} (h : s.sigQ = true) : exec .edgeF s = exec (.sense false) s := by
  simp [exec, execEdgeF, execSense, h]

/-- Whichever row the pair {`sig_q`, `level`} names, it is `SENSE` of the level in that state. -/
theorem exec_decodePins (level : Bool) (s : State) : exec (decodePins s.sigQ level) s = exec (.sense level) s := by
  cases hq : s.sigQ <;> cases level
  · rfl
  · exact exec_edgeR_of_low hq
  · exact exec_edgeF_of_high hq
  · rfl

/-- Settles O23: the two cases of `SENSE`, and the rows of the table as `SENSE`. -/
theorem senseEncodesEdgesOnly : Obligations.SenseEncodesEdgesOnly := by
  unfold Obligations.SenseEncodesEdgesOnly
  intro level s
  refine ⟨?noEdge, fun hedge => ?edge, fun es h => ?step⟩
  case noEdge =>
    rintro rfl
    exact congrArg Host.Outcome.next (senseLevel_same s)
  case edge =>
    have hsense : exec (.sense level) s = .next { encodeEdge level s.ts s with sigQ := level } :=
      congrArg Host.Outcome.next (senseLevel_of_ne hedge)
    refine ⟨encodeEdge level s.ts s, rfl, hsense, ?_, ?_⟩
    · rintro rfl
      rw [exec_edgeR_of_low (by simpa using hedge.symm), hsense]
    · rintro rfl
      rw [exec_edgeF_of_high (by simpa using hedge.symm), hsense]
  case step =>
    rw [step_of_sigIn (fetch_of_inputs_cons h), exec_decodePins]

/-! ## The shorthand `SYNC` -/

/-- The largest amount reaches the source from every shadow (log 13). -/
theorem syncPath_neg_one {w : Nat} (src sh : BitVec w) : syncPath src sh (-1) = src := by
  apply syncPath_of_le
  change src - sh ≤ -1#w
  rw [BitVec.neg_one_eq_allOnes, BitVec.le_def, BitVec.toNat_allOnes]
  exact Nat.le_sub_one_of_lt (src - sh).isLt

/-- A run whose next event is a step of S goes on from that step. -/
theorem run_succ_of_sync {s t : State} {x : SyncStep} {es : List PortEvent} (k : Nat)
    (h : s.inputs = .sync x :: es) (hx : exec (decodeSync x) { s with inputs := es } = .next t) :
    Host.Core.run Sys2Proof.core (k + 1) s = Host.Core.run Sys2Proof.core k t :=
  run_succ_of_next k ((step_of_sync (fetch_of_inputs_cons h)).trans hx)

/-- Settles O32, one synchroniser after another. -/
theorem syncShorthandMakesShadowsCurrent : Obligations.SyncShorthandMakesShadowsCurrent := by
  unfold Obligations.SyncShorthandMakesShadowsCurrent
  intro s es h
  rw [run_succ_of_sync 3 h rfl, run_succ_of_sync 2 rfl rfl, run_succ_of_sync 1 rfl rfl, run_succ_of_sync 0 rfl rfl]
  simp only [Host.Core.run, syncPath_neg_one]
  rfl

end Sys2Proof.Machine

/-! Proofs of the statements about the timestamp and the edge detector: `TICK` (40_timestamp_edge.md R88), the count of
microseconds (R89), and the alternation of directions (R91). -/

namespace Sys2Proof.Machine

/-! ## The microsecond counter -/

/-- `TICK` has no guard, and writes `ts` alone. -/
theorem exec_tick (s : State) : exec .tick s = .next { s with ts := s.ts + 1 } := rfl

/-- Settles O19, from the equation of `TICK`. -/
theorem tickAddsOneMicrosecond : Obligations.TickAddsOneMicrosecond := by
  unfold Obligations.TickAddsOneMicrosecond
  intro s
  refine ⟨_, exec_tick s, ?_, rfl⟩
  exact BitVec.toNat_add s.ts 1

/-- A run whose next event is `us_tick` goes on from the state after `TICK`. -/
theorem run_succ_of_usTick {s : State} {es : List PortEvent} (k : Nat) (h : s.inputs = .usTick :: es) :
    Host.Core.run Sys2Proof.core (k + 1) s =
      Host.Core.run Sys2Proof.core k { s with ts := s.ts + 1, inputs := es } :=
  run_succ_of_next k ((step_of_decode_ok (fetch_of_inputs_cons h) rfl).trans (exec_tick _))

/-- The state in which `n` ticks end, in the arithmetic of the counter. -/
theorem run_usTicks (n : Nat) {s : State} (h : s.inputs = List.replicate n .usTick) :
    Host.Core.run Sys2Proof.core n s = .next { s with ts := s.ts + BitVec.ofNat 32 n, inputs := [] } := by
  induction n generalizing s with
  | zero =>
    have hts : s.ts + BitVec.ofNat 32 0 = s.ts := BitVec.add_zero s.ts
    rw [hts, ← (show s.inputs = [] from h)]
    rfl
  | succ n ih =>
    have hts : s.ts + 1 + BitVec.ofNat 32 n = s.ts + BitVec.ofNat 32 (n + 1) := by
      rw [BitVec.add_assoc, BitVec.add_comm 1, BitVec.ofNat_add]
      rfl
    rw [run_succ_of_usTick n h, ih rfl, hts]

/-- Settles O20, by induction on the number of ticks. -/
theorem ticksCountMicroseconds : Obligations.TicksCountMicroseconds := by
  unfold Obligations.TicksCountMicroseconds
  intro n s h
  refine ⟨_, run_usTicks n h, ?_, rfl⟩
  simp [BitVec.toNat_add]

/-! ## The directions in the ring -/

/-- A slot after a `PUSH`: the old `head` holds the new Sample, every other slot is as before
(42_ring_buffer.md R105). -/
theorem readCell_pushSample (v : Sample) (s : State) (k : Ptr) :
    readCell (pushSample v s).ring k.toNat = if k = s.head then some v else readCell s.ring k.toNat := by
  rw [pushSample_ring, readCell_writeCell]
  simp only [BitVec.toNat_inj, eq_comm]

/-- The alternation reads nothing but `sig_q`, `head` and `RING`, all P's. -/
theorem directionsAlternate_of_sameP {s t : State} (hs : DirectionsAlternate s) (h : SameP s t) :
    DirectionsAlternate t := by
  obtain ⟨-, hsigQ, -, hhead, -, hring, -⟩ := h
  unfold DirectionsAlternate at hs ⊢
  rwa [hsigQ, hhead, hring]

/-- A Sample whose direction is the new level, pushed on a change of level, keeps the alternation: the only new pair of
neighbours is the Sample that was newest, of direction `sig_q`, and the one pushed. -/
theorem directionsAlternate_of_push {v : Sample} {level : Bool} {s : State} (hs : DirectionsAlternate s)
    (hv : sampleDir v = level) (hedge : level ≠ s.sigQ) :
    DirectionsAlternate { pushSample v s with sigQ := level } := by
  obtain ⟨hnewest, hpairs⟩ := hs
  have hlast : s.head + 1 - 1 = s.head := BitVec.add_sub_cancel s.head 1
  refine ⟨fun w hw => ?newest, fun k u w hk hu hw => ?pair⟩
  case newest =>
    simp only [pushSample_head, hlast, readCell_pushSample, if_true, Option.some.injEq] at hw
    rwa [← hw]
  case pair =>
    simp only [pushSample_head, hlast] at hk
    simp only [readCell_pushSample, if_neg hk] at hu
    simp only [readCell_pushSample] at hw
    split at hw
    next hnext =>
      have hprev : k = s.head - 1 := by rw [← hnext]; exact (BitVec.add_sub_cancel k 1).symm
      obtain rfl := Option.some.inj hw
      rw [hv, hnewest u (hprev ▸ hu)]
      exact hedge.symm
    next hnext =>
      have hprev : k ≠ s.head - 1 := fun h => hnext (by rw [h]; exact BitVec.sub_add_cancel s.head 1)
      exact hpairs k u w hprev hu hw

/-- `SENSE` pushes on an edge alone, and the Sample it pushes has the new level as its direction
(40_timestamp_edge.md R90). -/
theorem directionsAlternate_senseLevel (level : Bool) {s : State} (hs : DirectionsAlternate s) :
    DirectionsAlternate (senseLevel level s) := by
  by_cases hedge : level = s.sigQ
  · rwa [hedge, senseLevel_same]
  · rw [senseLevel_of_ne hedge]
    exact directionsAlternate_of_push
      (s := { s with
        prevTs := s.ts
        pev := s.pev ++ raised (saturates (delta32 s.prevTs s.ts)) (.saturated (delta32 s.prevTs s.ts)) })
      hs (sampleDir_packSample level _) hedge

/-- An operation of another agent than P, other than `RESET`, keeps the alternation. -/
theorem directionsAlternate_exec_of_not_p {i : Instr} {s t : State} (hi : agentOf i ≠ .p ∧ agentOf i ≠ .all)
    (hs : DirectionsAlternate s) (h : exec i s = .next t) : DirectionsAlternate t := by
  obtain ⟨hsame, -⟩ := onlyTheOwnerWritesARegister i s t h
  exact directionsAlternate_of_sameP hs (hsame hi.1 hi.2)

/-! ## The agents of the operations a step can issue -/

theorem agentOf_of_wireInstr {i : Instr} (h : WireInstr i) : agentOf i = .h := by
  cases h <;> rfl

theorem agentOf_decodeSync (x : SyncStep) : agentOf (decodeSync x) = .s := by
  cases x <;> rfl

theorem agentOf_decodeGuards (active full nonempty expired : Bool) :
    agentOf (decodeGuards active full nonempty expired) = .q := by
  unfold decodeGuards
  split_ifs <;> rfl

/-! ## Every operation a step can issue -/

/-- Every operation that a step can issue keeps the alternation. `ENC` and `PUSH` of an arbitrary direction, which no
step issues alone (log 5), need not. -/
theorem directionsAlternate_exec_of_issued {i : Instr} {s t : State} (hi : Issued s i) (hs : DirectionsAlternate s)
    (h : exec i s = .next t) : DirectionsAlternate t := by
  cases hi with
  | pins level =>
    rw [exec_decodePins] at h
    cases h
    exact directionsAlternate_senseLevel level hs
  | tick =>
    cases h
    exact hs
  | reset =>
    cases h
    exact ⟨fun _ hv => (nomatch hv), fun _ _ _ _ hv => (nomatch hv)⟩
  | wire hwire => exact directionsAlternate_exec_of_not_p (by simp [agentOf_of_wireInstr hwire]) hs h
  | rx b => exact directionsAlternate_exec_of_not_p (by simp [agentOf]) hs h
  | sync x => exact directionsAlternate_exec_of_not_p (by simp [agentOf_decodeSync]) hs h
  | guards => exact directionsAlternate_exec_of_not_p (by simp [agentOf_decodeGuards]) hs h

/-- Settles O11: the operations that a step can issue keep the alternation, and it does not read what a fetch writes. -/
theorem stepKeepsDirectionsAlternating : Obligations.StepKeepsDirectionsAlternating := by
  unfold Obligations.StepKeepsDirectionsAlternating
  intro s t hs h
  exact step_keeps (P := DirectionsAlternate) (fun _ _ _ hs => hs)
    (fun _ _ _ hi hs h => directionsAlternate_exec_of_issued hi hs h) hs h

end Sys2Proof.Machine

/-! Proofs of the statements about the edge encoder: the delta of an edge and its saturation (41_edge_encoder.md R95 to
R97), and what `ENC` writes. -/

namespace Sys2Proof.Machine

/-! ## The delta and the delay -/

/-- `0xFFFFFFFF` is `-1` modulo 2^32, so the branch for a counter that wrapped is the plain difference too. -/
theorem wrapped_delta_eq_sub (prev t : Stamp) : (0xFFFFFFFF - prev) + t + 1 = t - prev := by
  have hones : (0xFFFFFFFF : Stamp) = -1 := rfl
  rw [hones]
  ring

theorem delta32_of_lt {prev t : Stamp} (h : t < prev) : delta32 prev t = (0xFFFFFFFF - prev) + t + 1 :=
  if_neg (BitVec.not_le.mpr h)

/-- Both branches of R95 are the difference modulo 2^32 (R96). -/
theorem delta32_eq_sub (prev t : Stamp) : delta32 prev t = t - prev := by
  unfold delta32
  split
  · rfl
  · exact wrapped_delta_eq_sub prev t

theorem delta32_toNat (prev t : Stamp) :
    (delta32 prev t).toNat = (t.toNat + 2 ^ 32 - prev.toNat) % 2 ^ 32 := by
  rw [delta32_eq_sub, BitVec.toNat_sub', ← Nat.add_sub_assoc prev.isLt.le]

/-- The saturated delta fits the 15 bits of the delay (R97). -/
theorem delayOf_toNat (delta : Stamp) : (delayOf delta).toNat = min delta.toNat 32767 :=
  Nat.mod_eq_of_lt (Nat.lt_succ_of_le (Nat.min_le_right _ _))

/-- Settles O21, from the delta as a difference and from the width of the delay. -/
theorem deltaIsTheDifferenceModulo : Obligations.DeltaIsTheDifferenceModulo := by
  unfold Obligations.DeltaIsTheDifferenceModulo
  intro prev t
  refine ⟨delta32_of_lt, delta32_toNat prev t, delta32_eq_sub prev t, ?_⟩
  rw [delayOf_toNat, delta32_toNat]

/-! ## The guards of the two events -/

/-- The producer's view is full when `next_head == tail_w` (42_ring_buffer.md R105). -/
theorem fullW_iff {s : State} : fullW s = true ↔ s.head + 1 = s.rdW + s.drop := beq_iff_eq

theorem saturates_iff {delta : Stamp} : saturates delta = true ↔ 32767 < delta.toNat := decide_eq_true_iff

/-- A `raise` under a guard, in the guard's own terms. -/
theorem raised_of_iff {α : Type} {cond : Bool} {p : Prop} [Decidable p] (h : cond = true ↔ p) (e : α) :
    raised cond e = if p then [e] else [] := if_congr h rfl rfl

/-! ## `ENC` -/

/-- `ENC` has no guard. -/
theorem exec_enc (dir : Bool) (time : Stamp) (s : State) : exec (.enc dir time) s = .next (encodeEdge dir time s) := rfl

/-- Settles O22: each field of the state after `ENC`, its delta read as the difference. -/
theorem encPushesTheSaturatedDelta : Obligations.EncPushesTheSaturatedDelta := by
  unfold Obligations.EncPushesTheSaturatedDelta
  intro dir time s
  refine ⟨encodeEdge dir time s, exec_enc dir time s, rfl, rfl, ?sample, fun j hj => ?others, ?pev, ?drop, rfl⟩
  case sample =>
    rw [encodeEdge_ring, readCell_writeCell_same, delta32_eq_sub]
    rfl
  case others => rw [encodeEdge_ring, readCell_writeCell_other _ _ hj]
  case pev => rw [encodeEdge_pev, raised_of_iff saturates_iff, raised_of_iff fullW_iff, delta32_eq_sub]
  case drop => rw [encodeEdge_drop, if_congr fullW_iff rfl rfl]

end Sys2Proof.Machine

/-! Proofs of the statements about `PUSH`: what it writes (42_ring_buffer.md R105), what it does to the occupancy (R106)
and to the queue (R120), and drop-oldest over a run of pushes (R107). -/

namespace Sys2Proof.Machine

/-! ## The elements of consecutive slots -/

/-- The elements of the `n` slots from `a` on, modulo `C`. -/
def slotsFrom (ring : List (Nat × Sample)) (a : Ptr) (n : Nat) : List (Option Sample) :=
  (List.range n).map fun i => readCell ring (a + BitVec.ofNat 10 i).toNat

/-- The queue is what stands in the `occ` slots from the true tail on (42_ring_buffer.md R103). -/
theorem ringQueue_eq_slotsFrom (s : State) : ringQueue s = slotsFrom s.ring (trueTail s) (occ s).toNat := rfl

@[simp] theorem length_ringQueue (s : State) : (ringQueue s).length = (occ s).toNat := by
  simp [ringQueue]

theorem slotsFrom_succ_last (ring : List (Nat × Sample)) (a : Ptr) (n : Nat) :
    slotsFrom ring a (n + 1) = slotsFrom ring a n ++ [readCell ring (a + BitVec.ofNat 10 n).toNat] := by
  simp [slotsFrom, List.range_succ]

theorem slotsFrom_succ_first (ring : List (Nat × Sample)) (a : Ptr) (n : Nat) :
    slotsFrom ring a (n + 1) = readCell ring a.toNat :: slotsFrom ring (a + 1) n := by
  have hnext (i : Nat) : a + BitVec.ofNat 10 (i + 1) = a + 1 + BitVec.ofNat 10 i := by
    rw [BitVec.add_assoc, BitVec.add_comm 1, BitVec.ofNat_add]
    rfl
  have hfirst : a + BitVec.ofNat 10 0 = a := BitVec.add_zero a
  rw [slotsFrom, List.range_succ_eq_map, List.map_cons, List.map_map, hfirst]
  exact congrArg _ (List.map_congr_left fun i _ => congrArg (fun k : Ptr => readCell ring k.toNat) (hnext i))

/-- Of fewer than `C` consecutive slots, none is the one behind the last. -/
theorem slotsFrom_writeCell_behind (ring : List (Nat × Sample)) (a : Ptr) (v : Sample) {n : Nat} (hn : n < 1024) :
    slotsFrom (writeCell ring (a + BitVec.ofNat 10 n).toNat v) a n = slotsFrom ring a n := by
  refine List.map_congr_left fun i hi => readCell_writeCell_other _ _ ?_
  have hlt : i < n := List.mem_range.mp hi
  bv_omega

/-- The slots up to and with a written one: those before it as they were, and the element written. -/
theorem slotsFrom_writeCell_last (ring : List (Nat × Sample)) (a : Ptr) (v : Sample) {n : Nat} (hn : n < 1024) :
    slotsFrom (writeCell ring (a + BitVec.ofNat 10 n).toNat v) a (n + 1) = slotsFrom ring a n ++ [some v] := by
  rw [slotsFrom_succ_last, slotsFrom_writeCell_behind ring a v hn, readCell_writeCell_same]

/-! ## One `PUSH` -/

/-- `PUSH` has no guard. -/
theorem exec_push (v : Sample) (s : State) : exec (.push v) s = .next (pushSample v s) := rfl

/-- Settles O24: each field of the state after `PUSH`, in both cases of the view. -/
theorem pushWritesThenPublishes : Obligations.PushWritesThenPublishes := by
  unfold Obligations.PushWritesThenPublishes
  intro v s
  refine ⟨pushSample v s, exec_push v s, ?written, fun j hj => ?others, rfl, fun hfull => ?full, fun hroom => ?room, rfl⟩
  case written => rw [pushSample_ring, readCell_writeCell_same]
  case others => rw [pushSample_ring, readCell_writeCell_other _ _ hj]
  case full => simp [fullW_iff.mpr hfull, raised_true]
  case room => simp [Bool.eq_false_iff.mpr (mt fullW_iff.mp hroom), raised_false]

/-- A drop moves the true tail along with `head`; a push without one moves `head` alone (42_ring_buffer.md R106 (c)). -/
theorem occ_pushSample (v : Sample) (s : State) :
    occ (pushSample v s) = if fullW s = true then occ s else occ s + 1 := by
  simp only [occ, trueTail, pushSample_head, pushSample_rd, pushSample_drop]
  split <;> ring

/-- Settles O25, by the two cases of the view. -/
theorem pushAddsOneUnlessItOverflows : Obligations.PushAddsOneUnlessItOverflows := by
  unfold Obligations.PushAddsOneUnlessItOverflows
  intro v s t h
  cases h
  rw [occ_pushSample, if_congr fullW_iff rfl rfl]

/-! ## `PUSH` on the queue -/

/-- The slot behind the queue is `head`. -/
theorem trueTail_add_occ (s : State) : trueTail s + BitVec.ofNat 10 (occ s).toNat = s.head := by
  rw [BitVec.ofNat_toNat, BitVec.setWidth_eq]
  exact add_sub_cancel (trueTail s) s.head

theorem occ_le (s : State) : (occ s).toNat ≤ 1023 := Nat.le_of_lt_succ (occ s).isLt

/-- With a current shadow the producer's view is full exactly when the ring is (42_ring_buffer.md R104, R108). -/
theorem fullW_iff_occ {s : State} (hs : ProducerCurrent s) : fullW s = true ↔ (occ s).toNat = 1023 := by
  rw [fullW_iff, hs, occ, trueTail]
  bv_omega

/-- How many Samples are dropped when `n` come to a ring that holds `occ`. -/
def overrun (s : State) (n : Nat) : Nat := (occ s).toNat + n - 1023

theorem overrun_one (s : State) : overrun s 1 = if (occ s).toNat = 1023 then 1 else 0 := by
  have hocc := occ_le s
  unfold overrun
  split <;> omega

/-- The queue after a `PUSH`: the queue before, without its oldest Sample if there is no room, and the Sample pushed. -/
theorem ringQueue_pushSample (v : Sample) {s : State} (hs : ProducerCurrent s) :
    ringQueue (pushSample v s) = (ringQueue s).drop (overrun s 1) ++ [some v] := by
  have hocc := occ_le s
  have hall := slotsFrom_writeCell_last s.ring (trueTail s) v (Nat.lt_succ_of_le hocc)
  rw [trueTail_add_occ, ← ringQueue_eq_slotsFrom, ← pushSample_ring] at hall
  rw [ringQueue_eq_slotsFrom (pushSample v s), occ_pushSample, overrun_one]
  by_cases hfull : (occ s).toNat = 1023
  case pos =>
    have htail : trueTail (pushSample v s) = trueTail s + 1 := by
      simp [trueTail, (fullW_iff_occ hs).mpr hfull, BitVec.add_assoc]
    have hne : 1 ≤ (ringQueue s).length := by rw [length_ringQueue, hfull]; decide
    rw [slotsFrom_succ_first] at hall
    rw [htail, if_pos ((fullW_iff_occ hs).mpr hfull), if_pos hfull, ← List.drop_append_of_le_length hne, ← hall,
      List.drop_one, List.tail_cons]
  case neg =>
    have hview := mt (fullW_iff_occ hs).mp hfull
    have htail : trueTail (pushSample v s) = trueTail s := by
      simp [trueTail, hview]
    have hnext : (occ s + 1).toNat = (occ s).toNat + 1 := by bv_omega
    rw [htail, if_neg hview, if_neg hfull, hnext, hall, List.drop_zero]

/-- Settles O26, from the queue after a push. -/
theorem pushAppendsToTheQueue : Obligations.PushAppendsToTheQueue := by
  unfold Obligations.PushAppendsToTheQueue
  intro v s t hs h
  cases h
  rw [ringQueue_pushSample v hs, overrun_one]
  split
  · rw [List.drop_one]
  · rw [List.drop_zero]

/-! ## A run of pushes -/

/-- `PUSH` of each Sample in order. -/
def pushSamples : List Sample → State → State
  | [], s => s
  | v :: vs, s => pushSamples vs (pushSample v s)

theorem execAll_push (samples : List Sample) (s : State) :
    execAll (samples.map .push) s = .next (pushSamples samples s) := by
  induction samples generalizing s with
  | nil => rfl
  | cons v vs ih => exact (execAll_cons_of_next _ (exec_push v s)).trans (ih _)

/-- Of `n + 1` Samples the first and the others drop their shares one after the other. -/
theorem overrun_succ (v : Sample) (n : Nat) {s : State} (hs : ProducerCurrent s) :
    overrun s (n + 1) = overrun s 1 + overrun (pushSample v s) n := by
  have hocc := occ_le s
  rw [overrun_one]
  unfold overrun
  rw [occ_pushSample, if_congr (fullW_iff_occ hs) rfl rfl]
  split
  · omega
  · have hnext : (occ s + 1).toNat = (occ s).toNat + 1 := by bv_omega
    omega

theorem drop_pushSample (v : Sample) {s : State} (hs : ProducerCurrent s) :
    (pushSample v s).drop = s.drop + BitVec.ofNat 10 (overrun s 1) := by
  rw [pushSample_drop, overrun_one, if_congr (fullW_iff_occ hs) rfl rfl]
  split
  · rfl
  · exact (BitVec.add_zero s.drop).symm

theorem pev_pushSample (v : Sample) {s : State} (hs : ProducerCurrent s) :
    (pushSample v s).pev = s.pev ++ List.replicate (overrun s 1) .overflow := by
  rw [pushSample_pev, overrun_one, raised_of_iff (fullW_iff_occ hs)]
  split <;> rfl

/-- After pushes without a take the queue is the end of what it held and what was pushed (42_ring_buffer.md R107). -/
theorem ringQueue_pushSamples (samples : List Sample) {s : State} (hs : ProducerCurrent s) :
    ringQueue (pushSamples samples s) =
      (ringQueue s ++ samples.map some).drop (overrun s samples.length) := by
  induction samples generalizing s with
  | nil =>
    have hnone : overrun s 0 = 0 := Nat.sub_eq_zero_of_le (occ_le s)
    simp [pushSamples, hnone]
  | cons v vs ih =>
    have hone : overrun s 1 ≤ (ringQueue s).length := by
      rw [length_ringQueue, overrun_one]
      split <;> omega
    calc ringQueue (pushSamples vs (pushSample v s))
        = ((ringQueue s).drop (overrun s 1) ++ [some v] ++ vs.map some).drop
            (overrun (pushSample v s) vs.length) := by rw [ih (s := pushSample v s) hs, ringQueue_pushSample v hs]
      _ = (ringQueue s ++ (v :: vs).map some).drop (overrun s (v :: vs).length) := by
          rw [List.length_cons, overrun_succ v vs.length hs, ← List.drop_drop, List.drop_append_of_le_length hone]
          simp

/-- Each Sample without room drops one and records one overflow (42_ring_buffer.md R107). -/
theorem overflows_pushSamples (samples : List Sample) {s : State} (hs : ProducerCurrent s) :
    (pushSamples samples s).drop = s.drop + BitVec.ofNat 10 (overrun s samples.length) ∧
      (pushSamples samples s).pev = s.pev ++ List.replicate (overrun s samples.length) .overflow := by
  induction samples generalizing s with
  | nil =>
    have hnone : overrun s 0 = 0 := Nat.sub_eq_zero_of_le (occ_le s)
    simp [pushSamples, hnone]
  | cons v vs ih =>
    obtain ⟨hdrop, hpev⟩ := ih (s := pushSample v s) hs
    rw [List.length_cons, overrun_succ v vs.length hs]
    constructor
    · rw [pushSamples, hdrop, drop_pushSample v hs, BitVec.ofNat_add, BitVec.add_assoc]
    · rw [pushSamples, hpev, pev_pushSample v hs, List.append_assoc, List.replicate_append_replicate]

/-- Settles O27: an empty ring drops what is over 1023, and the queue that is left is not empty. -/
theorem overflowKeepsTheLast1023 : Obligations.OverflowKeepsTheLast1023 := by
  unfold Obligations.OverflowKeepsTheLast1023
  intro samples s hlen hempty hs
  have hzero : (occ s).toNat = 0 := by rw [hempty]; rfl
  have hnil : ringQueue s = [] := List.length_eq_zero_iff.mp ((length_ringQueue s).trans hzero)
  have hover : overrun s samples.length = samples.length - 1023 := by
    unfold overrun
    omega
  have hqueue := ringQueue_pushSamples samples hs
  obtain ⟨hdrop, hpev⟩ := overflows_pushSamples samples hs
  rw [hnil, hover, List.nil_append, ← List.map_drop] at hqueue
  rw [hover] at hdrop hpev
  refine ⟨_, execAll_push samples s, hqueue, hdrop, hpev, fun hsame => ?_⟩
  have hocc : occ (pushSamples samples s) = 0 := by rw [occ, hsame]; exact sub_self _
  have hlength := congrArg List.length hqueue
  rw [length_ringQueue, hocc, List.length_map, List.length_drop] at hlength
  change 0 = _ at hlength
  omega

end Sys2Proof.Machine

/-! Proofs of the statements about `TAKE`: the value it returns (42_ring_buffer.md R110, R111; 70_reset_and_hazards.md
R193), and what it does to the queue with current shadows (R120). -/

namespace Sys2Proof.Machine

/-! ## One `TAKE` -/

theorem nonemptyR_iff {s : State} : nonemptyR s = true ↔ tailR s ≠ s.headR := bne_iff_ne

theorem nonemptyR_eq_false_iff {s : State} : nonemptyR s = false ↔ tailR s = s.headR := bne_eq_false_iff_eq

/-- An operation whose guard is false is refused (log 6). -/
theorem whenEnabled_of_eq_false {guard : Bool} (t : State) (h : guard = false) :
    whenEnabled guard t = .refused .notEnabled := by
  rw [h, whenEnabled_false]

theorem exec_take_of_nonempty {s : State} (h : tailR s ≠ s.headR) : exec .take s = .next (takeSample s) :=
  whenEnabled_next.mpr ⟨nonemptyR_iff.mpr h, rfl⟩

theorem exec_take_of_empty {s : State} (h : tailR s = s.headR) : exec .take s = .refused .notEnabled :=
  whenEnabled_of_eq_false _ (nonemptyR_eq_false_iff.mpr h)

theorem promisedSample_eq_some {s : State} {slot : Ptr} {v : Sample} (hslot : occupied s slot = true)
    (hv : readCell s.ring slot.toNat = some v) : promisedSample s slot = some v := by
  rw [promisedSample, if_pos hslot, hv]

theorem promisedSample_eq_none {s : State} {slot : Ptr}
    (h : occupied s slot = false ∨ readCell s.ring slot.toNat = none) : promisedSample s slot = none := by
  unfold promisedSample
  split
  next hslot =>
    obtain hfree | hunwritten := h
    · exact absurd hslot (Bool.eq_false_iff.mp hfree)
    · exact hunwritten
  next => rfl

/-- A promised Sample is returned, and no free value is used (42_ring_buffer.md R111). -/
theorem takeSample_of_promised {s : State} {v : Sample} (h : promisedSample s (tailR s) = some v) :
    (takeSample s).taken = v ∧ (takeSample s).draws = s.draws := by
  simp [takeSample_taken, takeSample_draws, h]

/-- Where no Sample is promised, the next free value is returned and used up (42_ring_buffer.md R111). -/
theorem takeSample_of_not_promised {s : State} (h : promisedSample s (tailR s) = none) :
    (takeSample s).taken = Config.draw16 s.draws ∧ (takeSample s).draws = s.draws + 1 := by
  simp [takeSample_taken, takeSample_draws, h]

/-- Settles O29, by whether the slot's Sample is promised. -/
theorem takeReturnsTheSlotOrAFreeValue : Obligations.TakeReturnsTheSlotOrAFreeValue := by
  unfold Obligations.TakeReturnsTheSlotOrAFreeValue
  intro s h
  exact ⟨takeSample s, exec_take_of_nonempty h, rfl,
    fun v hslot hv => takeSample_of_promised (promisedSample_eq_some hslot hv),
    fun hfree => takeSample_of_not_promised (promisedSample_eq_none hfree), rfl⟩

/-! ## `TAKE` on the queue -/

/-- With current shadows the consumer's view of the tail is the true tail (42_ring_buffer.md R111). -/
theorem tailR_of_current {s : State} (hs : ConsumerCurrent s) : tailR s = trueTail s := by
  rw [tailR, trueTail, hs.2]

/-- With current shadows the consumer's view is empty exactly when the ring is (42_ring_buffer.md R120). -/
theorem tailR_eq_headR_iff_occ {s : State} (hs : ConsumerCurrent s) : tailR s = s.headR ↔ occ s = 0 := by
  rw [tailR_of_current hs, hs.1, occ]
  exact eq_comm.trans sub_eq_zero.symm

/-- A queue that is not empty begins with the Sample at the true tail, and `TAKE` leaves the others. -/
theorem ringQueue_eq_cons {s : State} (h : occ s ≠ 0) :
    ringQueue s = readCell s.ring (trueTail s).toNat :: ringQueue (takeSample s) := by
  have hocc : (occ s).toNat = (occ (takeSample s)).toNat + 1 := by
    simp only [occ, trueTail, takeSample_head, takeSample_rd, takeSample_drop] at h ⊢
    bv_omega
  have htail : trueTail (takeSample s) = trueTail s + 1 := by
    simp only [trueTail, takeSample_rd, takeSample_drop]
    ring
  rw [ringQueue_eq_slotsFrom, ringQueue_eq_slotsFrom, hocc, slotsFrom_succ_first, htail, takeSample_ring]

theorem occupied_trueTail {s : State} (h : occ s ≠ 0) : occupied s (trueTail s) = true := by
  rw [occupied, BitVec.sub_self, decide_eq_true_eq]
  bv_omega

/-- Settles O28: the slot that the view names is the true tail, which is occupied while the queue is not empty. -/
theorem takeRemovesTheOldest : Obligations.TakeRemovesTheOldest := by
  unfold Obligations.TakeRemovesTheOldest
  intro s hs
  refine ⟨fun hempty => exec_take_of_empty ((tailR_eq_headR_iff_occ hs).mpr hempty), fun v rest hqueue => ?_⟩
  have hocc : occ s ≠ 0 := fun hempty => by
    have hlength := congrArg List.length hqueue
    simp [hempty] at hlength
  obtain ⟨hv, hrest⟩ := List.cons.inj ((ringQueue_eq_cons hocc).symm.trans hqueue)
  have hpromised : promisedSample s (tailR s) = some v := by
    rw [tailR_of_current hs]
    exact promisedSample_eq_some (occupied_trueTail hocc) hv
  obtain ⟨htaken, hdraws⟩ := takeSample_of_promised hpromised
  refine ⟨takeSample s, exec_take_of_nonempty (mt (tailR_eq_headR_iff_occ hs).mp hocc), htaken, hrest, hdraws, ?_⟩
  conv_rhs => rw [← hdraws]
  rfl

end Sys2Proof.Machine

/-! Proofs of the statements about the synchronisers: where a step along the path can end (42_ring_buffer.md R112 to
R116), and the gray code of a crossing register (R118, R119). -/

namespace Sys2Proof.Machine

/-! ## The path of a shadow -/

/-- A step moves a shadow by the amount asked for, at most to the source. -/
theorem toNat_syncPath_sub {w : Nat} (src sh i : BitVec w) :
    (syncPath src sh i - sh).toNat = min i.toNat (src - sh).toNat := by
  unfold syncPath
  split
  next hle =>
    have hmoved : sh + i - sh = i := add_sub_cancel_left sh i
    rw [hmoved, min_eq_left hle]
  next hbeyond => rw [min_eq_right (Nat.le_of_not_le hbeyond)]

/-- The ends of a step are the values on the path, each with its own amount. -/
theorem exists_syncPath_eq_iff {w : Nat} {src sh v : BitVec w} :
    (∃ i, syncPath src sh i = v) ↔ v - sh ≤ src - sh := by
  constructor
  · rintro ⟨i, rfl⟩
    rw [BitVec.le_def, toNat_syncPath_sub]
    exact min_le_right _ _
  · intro hle
    refine ⟨v - sh, ?_⟩
    rw [syncPath, if_pos hle]
    exact add_sub_cancel sh v

/-- Settles O30: the four rows write one shadow each, by the same path. -/
theorem syncMovesOneShadowAlongItsPath : Obligations.SyncMovesOneShadowAlongItsPath := by
  unfold Obligations.SyncMovesOneShadowAlongItsPath
  intro i j s
  exact ⟨⟨_, rfl, rfl, toNat_syncPath_sub s.head s.headR i⟩, ⟨_, rfl, rfl, toNat_syncPath_sub s.drop s.dropR i⟩,
    ⟨_, rfl, rfl, toNat_syncPath_sub s.ts s.tsR j⟩, ⟨_, rfl, rfl, toNat_syncPath_sub s.rd s.rdW i⟩⟩

theorem exec_syncHead_iff {i v : Ptr} {s : State} :
    exec (.syncHead i) s = .next { s with headR := v } ↔ syncPath s.head s.headR i = v := by
  simp [exec, execSyncHead]

theorem exec_syncDrop_iff {i v : Ptr} {s : State} :
    exec (.syncDrop i) s = .next { s with dropR := v } ↔ syncPath s.drop s.dropR i = v := by
  simp [exec, execSyncDrop]

theorem exec_syncTs_iff {i v : Stamp} {s : State} :
    exec (.syncTs i) s = .next { s with tsR := v } ↔ syncPath s.ts s.tsR i = v := by
  simp [exec, execSyncTs]

theorem exec_syncRd_iff {i v : Ptr} {s : State} :
    exec (.syncRd i) s = .next { s with rdW := v } ↔ syncPath s.rd s.rdW i = v := by
  simp [exec, execSyncRd]

/-- Settles O31: each row ends where its path does. -/
theorem syncReachesEveryValueOnThePath : Obligations.SyncReachesEveryValueOnThePath := by
  unfold Obligations.SyncReachesEveryValueOnThePath
  intro s
  exact ⟨fun _ => (exists_congr fun _ => exec_syncHead_iff).trans exists_syncPath_eq_iff,
    fun _ => (exists_congr fun _ => exec_syncDrop_iff).trans exists_syncPath_eq_iff,
    fun _ => (exists_congr fun _ => exec_syncTs_iff).trans exists_syncPath_eq_iff,
    fun _ => (exists_congr fun _ => exec_syncRd_iff).trans exists_syncPath_eq_iff⟩

/-! ## The gray code and its inverse, bit by bit -/

theorem getLsbD_gray {w : Nat} (b : BitVec w) (i : Nat) :
    (gray b).getLsbD i = (b.getLsbD i ^^ b.getLsbD (i + 1)) := by
  simp [gray, Nat.add_comm]

theorem getLsbD_ungray {w : Nat} (g : BitVec w) (i : Nat) : (ungray g).getLsbD i = grayPrefix g i (w - i) := by
  rw [ungray, BitVec.getLsbD_ofFnLE]
  split
  next => rfl
  next hi => rw [Nat.sub_eq_zero_of_le (Nat.le_of_not_lt hi), grayPrefix]

/-- The recursion of R118; above the highest bit all three terms are 0. -/
theorem getLsbD_ungray_eq_xor {w : Nat} (g : BitVec w) (i : Nat) :
    (ungray g).getLsbD i = ((ungray g).getLsbD (i + 1) ^^ g.getLsbD i) := by
  rw [getLsbD_ungray, getLsbD_ungray]
  by_cases hi : i < w
  · have hbits : w - i = w - (i + 1) + 1 := by omega
    rw [hbits, grayPrefix, Bool.xor_comm]
  · have hnone : w - i = 0 := by omega
    have hnext : w - (i + 1) = 0 := by omega
    rw [hnone, hnext, grayPrefix, grayPrefix, BitVec.getLsbD_of_ge g i (Nat.le_of_not_lt hi)]
    rfl

/-- The exclusive or of `n` neighbouring bits of a gray code telescopes. -/
theorem grayPrefix_gray {w : Nat} (b : BitVec w) (i n : Nat) :
    grayPrefix (gray b) i n = (b.getLsbD i ^^ b.getLsbD (i + n)) := by
  induction n generalizing i with
  | zero => simp [grayPrefix]
  | succ n ih =>
    have hend : i + 1 + n = i + (n + 1) := by omega
    rw [grayPrefix, getLsbD_gray, ih, hend, Bool.xor_assoc, ← Bool.xor_assoc (b.getLsbD (i + 1)), Bool.xor_self,
      Bool.false_xor]

theorem ungray_gray {w : Nat} (b : BitVec w) : ungray (gray b) = b := by
  refine BitVec.eq_of_getLsbD_eq fun i hi => ?_
  have htop : i + (w - i) = w := by omega
  rw [getLsbD_ungray, grayPrefix_gray, htop, BitVec.getLsbD_of_ge b w le_rfl, Bool.xor_false]

theorem gray_ungray {w : Nat} (g : BitVec w) : gray (ungray g) = g := by
  refine BitVec.eq_of_getLsbD_eq fun i _ => ?_
  rw [getLsbD_gray, getLsbD_ungray_eq_xor, Bool.xor_right_comm, Bool.xor_self, Bool.false_xor]

/-- Settles O33, from the recursion and the two inverses. -/
theorem grayCodeIsInverted : Obligations.GrayCodeIsInverted := by
  unfold Obligations.GrayCodeIsInverted
  intro w b
  refine ⟨rfl, fun i hi => ?highest, fun i _ => getLsbD_ungray_eq_xor b i, ungray_gray b, gray_ungray b⟩
  case highest =>
    rw [getLsbD_ungray_eq_xor, BitVec.getLsbD_of_ge (ungray b) (i + 1) hi.ge, Bool.false_xor]

/-! ## Neighbours -/

theorem gray_xor {w : Nat} (a b : BitVec w) : gray a ^^^ gray b = gray (a ^^^ b) := by
  refine BitVec.eq_of_getLsbD_eq fun i _ => ?_
  simp only [BitVec.getLsbD_xor, getLsbD_gray]
  rw [Bool.xor_assoc, Bool.xor_left_comm (a.getLsbD (i + 1)), ← Bool.xor_assoc]

/-- Adding one changes a bit exactly when every bit below it is 1. -/
theorem getLsbD_xor_add_one {w : Nat} (b : BitVec w) {i : Nat} (hi : i < w) :
    (b ^^^ (b + 1)).getLsbD i = decide (∀ j < i, b.getLsbD j = true) := by
  have hneg : b + 1 = -(~~~b) := by
    rw [BitVec.neg_eq_not_add, BitVec.not_not]
    rfl
  have hbelow : (∃ j < i, (~~~b).getLsbD j = true) ↔ ¬ ∀ j < i, b.getLsbD j = true := by
    push Not
    refine exists_congr fun j => and_congr_right fun hj => ?_
    simp [hj.trans hi]
  rw [hneg, BitVec.getLsbD_xor, BitVec.getLsbD_neg, BitVec.getLsbD_not, decide_eq_decide.mpr hbelow, decide_not]
  simp [hi]

/-- The run of 1s at the low end of a word stops at a 0 or at the highest bit. -/
theorem exists_end_of_low_ones {w : Nat} (b : BitVec (w + 1)) :
    ∃ k ≤ w, ∀ i ≤ w, (∀ j < i, b.getLsbD j = true) ↔ i ≤ k := by
  have hstop : ∃ k, b.getLsbD k = false ∨ k = w := ⟨w, .inr rfl⟩
  refine ⟨Nat.find hstop, Nat.find_min' hstop (.inr rfl), fun i hi => ⟨fun hones => ?within, fun hik j hj => ?ones⟩⟩
  case within =>
    by_contra hbeyond
    have hone := hones (Nat.find hstop) (by omega)
    obtain hzero | htop := Nat.find_spec hstop
    · simp [hzero] at hone
    · omega
  case ones =>
    have hnot := Nat.find_min hstop (hj.trans_le hik)
    exact Bool.eq_true_of_not_eq_false (mt Or.inl hnot)

/-- The gray code of a run of 1s at the low end is the highest bit of the run. -/
theorem gray_of_low_ones {w k : Nat} {m : BitVec w} (hk : k < w) (hm : ∀ i, m.getLsbD i = decide (i ≤ k)) :
    gray m = BitVec.twoPow w k := by
  refine BitVec.eq_of_getLsbD_eq fun i _ => ?_
  rw [getLsbD_gray, hm, hm, BitVec.getLsbD_twoPow]
  obtain hlt | rfl | hgt := Nat.lt_trichotomy i k
  · simp [hlt.le, Nat.succ_le_of_lt hlt, hlt.ne']
  · simp [hk]
  · simp [hgt.not_ge, (hgt.trans (Nat.lt_succ_self i)).not_ge, hgt.ne]

/-- Settles O34: the bits that adding one changes are a run from bit 0 up, and its highest bit is the one that the gray
codes differ in. -/
theorem grayNeighboursDifferInOneBit : Obligations.GrayNeighboursDifferInOneBit := by
  unfold Obligations.GrayNeighboursDifferInOneBit
  intro w b
  obtain ⟨k, hk, hones⟩ := exists_end_of_low_ones b
  refine ⟨k, Nat.lt_succ_of_le hk, ?_⟩
  rw [gray_xor]
  refine gray_of_low_ones (Nat.lt_succ_of_le hk) fun i => ?_
  by_cases hi : i ≤ w
  · rw [getLsbD_xor_add_one b (Nat.lt_succ_of_le hi), decide_eq_decide]
    exact hones i hi
  · rw [BitVec.getLsbD_of_ge _ i (by omega), eq_comm, decide_eq_false_iff_not]
    omega

end Sys2Proof.Machine

/-! Proof of the statement about disabled operations: an operation whose guard is false has no step (42_ring_buffer.md R110,
43_session_framer.md R123, 44_decoder_resync.md R145; log 6). -/

namespace Sys2Proof.Machine

/-! ## The guards of Q -/

theorem exec_qFlush_of_not {s : State} (h : s.sess = .idle ∨ s.cnt ≠ 255) : exec .qFlush s = .refused .notEnabled := by
  refine whenEnabled_of_eq_false _ ?_
  obtain hidle | hcnt := h
  · simp [isActive_eq_false_iff.mpr hidle]
  · simp [Bool.eq_false_iff.mpr (mt batchFull_iff.mp hcnt)]

theorem exec_qStart_of_not {s : State} (h : s.sess = .active ∨ tailR s = s.headR) :
    exec .qStart s = .refused .notEnabled := by
  refine whenEnabled_of_eq_false _ ?_
  obtain hactive | hempty := h
  · simp [isActive_iff.mpr hactive]
  · simp [nonemptyR_eq_false_iff.mpr hempty]

theorem exec_qPop_of_not {s : State} (h : s.sess = .idle ∨ tailR s = s.headR ∨ s.cnt = 255) :
    exec .qPop s = .refused .notEnabled := by
  refine whenEnabled_of_eq_false _ ?_
  obtain hidle | hempty | hfull := h
  · simp [isActive_eq_false_iff.mpr hidle]
  · simp [nonemptyR_eq_false_iff.mpr hempty]
  · simp [batchFull_iff.mpr hfull]

theorem exec_qTimeout_of_not {s : State}
    (h : s.sess = .idle ∨ tailR s ≠ s.headR ∨ expired s = false ∨ s.cnt = 255) :
    exec .qTimeout s = .refused .notEnabled := by
  refine whenEnabled_of_eq_false _ ?_
  obtain hidle | hnonempty | hwindow | hfull := h
  · simp [isActive_eq_false_iff.mpr hidle]
  · simp [nonemptyR_iff.mpr hnonempty]
  · simp [hwindow]
  · simp [batchFull_iff.mpr hfull]

/-- Each guard that comes before `Q.IDLE` in the priority list selects another row (43_session_framer.md R123). -/
theorem decodeGuards_ne_qIdle : ∀ {active full nonempty expired : Bool},
    active = true ∧ full = true ∨ nonempty = true ∨ active = true ∧ expired = true →
      decodeGuards active full nonempty expired ≠ .qIdle := by
  decide

theorem exec_qIdle_of_not {s : State}
    (h : s.sess = .active ∧ s.cnt = 255 ∨ tailR s ≠ s.headR ∨ s.sess = .active ∧ expired s = true) :
    exec .qIdle s = .refused .notEnabled := by
  refine whenEnabled_of_eq_false _ (beq_eq_false_iff_ne.mpr ?_)
  rw [← isActive_iff, ← batchFull_iff, ← nonemptyR_iff] at h
  exact decodeGuards_ne_qIdle h

/-! ## The guards of the parts of `RX` -/

/-- What `RX` looks at: at least six bytes that begin `00 00` (44_decoder_resync.md R144, R145). -/
def Candidate (buf : List Byte) : Prop := 6 ≤ buf.length ∧ [0x00, 0x00] <+: buf

/-- A candidate that is a header where one is expected, with its END (44_decoder_resync.md R147). -/
def AtHeader (started : Bool) (buf : List Byte) : Prop :=
  byteAt buf 2 = 0x00 ∧ started = false ∧ byteAt buf 4 = 0x00 ∧ byteAt buf 5 = 0x80

/-- A candidate that is a SampleBlock where one is expected, of a COUNT that is not 0 (44_decoder_resync.md R148). -/
def AtBlock (started : Bool) (buf : List Byte) : Prop :=
  byteAt buf 2 = 0x01 ∧ started = true ∧ byteAt buf 3 ≠ 0

/-- END stands where COUNT puts it (44_decoder_resync.md R148). -/
def BlockEnds (buf : List Byte) : Prop :=
  byteAt buf (4 + 2 * (byteAt buf 3).toNat) = 0x00 ∧ byteAt buf (5 + 2 * (byteAt buf 3).toNat) = 0x80

/-- What holds of the front of `BUF` when it selects a part (44_decoder_resync.md R144 to R150). -/
def SelectedBy (started : Bool) (buf : List Byte) : Part → Prop
  | .slide => 2 ≤ buf.length ∧ beginsStart buf = false
  | .short => buf.length < 6
  | .hdr => Candidate buf ∧ AtHeader started buf
  | .smp => Candidate buf ∧ AtBlock started buf ∧ 6 + 2 * (byteAt buf 3).toNat ≤ buf.length ∧ BlockEnds buf
  | .wait => Candidate buf ∧ AtBlock started buf ∧ buf.length < 6 + 2 * (byteAt buf 3).toNat
  | .fail => Candidate buf ∧ ¬ AtHeader started buf ∧
      ¬ (AtBlock started buf ∧ (buf.length < 6 + 2 * (byteAt buf 3).toNat ∨ BlockEnds buf))

theorem start_prefix_of_beginsStart {buf : List Byte} (hlen : 2 ≤ buf.length) (h : beginsStart buf = true) :
    [0x00, 0x00] <+: buf := by
  match buf, hlen with
  | b0 :: b1 :: rest, _ =>
    obtain ⟨rfl, rfl⟩ := beginsStart_iff.mp h
    exact ⟨rest, rfl⟩

theorem candidate_of_not {buf : List Byte} (hslide : ¬ (2 ≤ buf.length ∧ beginsStart buf = false))
    (hshort : ¬ buf.length < 6) : Candidate buf := by
  have hlen : 6 ≤ buf.length := Nat.le_of_not_lt hshort
  refine ⟨hlen, start_prefix_of_beginsStart (by omega) ?_⟩
  exact Bool.eq_true_of_not_eq_false fun h => hslide ⟨by omega, h⟩

theorem atHeader_iff {started : Bool} {buf : List Byte} :
    byteAt buf 2 = Config.typeHdr ∧ started = false ∧ endAt buf 4 = true ↔ AtHeader started buf := by
  rw [endAt_iff]
  rfl

theorem blockEnds_iff {buf : List Byte} : endAt buf (unitLength buf - 2) = true ↔ BlockEnds buf := by
  have hend : unitLength buf - 2 = 4 + 2 * (byteAt buf 3).toNat := by
    unfold unitLength
    omega
  have hnext : 4 + 2 * (byteAt buf 3).toNat + 1 = 5 + 2 * (byteAt buf 3).toNat := by omega
  rw [endAt_iff, hend, hnext]
  rfl

/-- The front of `BUF` is as the part it selects requires. -/
theorem selectedBy_classify (started : Bool) (buf : List Byte) : SelectedBy started buf (classify started buf) := by
  unfold classify
  split_ifs with hslide hshort hhdr hblock hwait hend
  · exact hslide
  · exact hshort
  · exact ⟨candidate_of_not hslide hshort, atHeader_iff.mp hhdr⟩
  · exact ⟨candidate_of_not hslide hshort, hblock, hwait⟩
  · exact ⟨candidate_of_not hslide hshort, hblock, Nat.le_of_not_lt hwait, blockEnds_iff.mp hend⟩
  · refine ⟨candidate_of_not hslide hshort, mt atHeader_iff.mpr hhdr, ?_⟩
    rintro ⟨-, hshorter | hends⟩
    · exact hwait hshorter
    · exact hend (blockEnds_iff.mpr hends)
  · exact ⟨candidate_of_not hslide hshort, mt atHeader_iff.mpr hhdr, fun h => hblock h.1⟩

/-- A buffer that does not select a part does not have what the part requires. -/
theorem classify_ne_of_not {started : Bool} {buf : List Byte} {p : Part} (h : ¬ SelectedBy started buf p) :
    classify started buf ≠ p := by
  rintro rfl
  exact h (selectedBy_classify started buf)

/-- The parts that look at a candidate need one (44_decoder_resync.md R145). -/
theorem candidate_of_selectedBy {started : Bool} {buf : List Byte} {p : Part} (hp : p ≠ .slide ∧ p ≠ .short)
    (h : SelectedBy started buf p) : Candidate buf := by
  cases p
  case slide => exact absurd rfl hp.1
  case short => exact absurd rfl hp.2
  all_goals exact h.1

theorem onCandidate_of_not {s : State} {p : Part} (f : Decoder → Decoder) (hlen : s.len.toNat ≤ 600)
    (h : ¬ SelectedBy s.started (decoderOf s).buf p) : onCandidate s p f = .refused .notEnabled := by
  rw [onCandidate_of_le p f hlen]
  exact whenEnabled_of_eq_false _ (beq_eq_false_iff_ne.mpr (classify_ne_of_not h))

theorem execRxWait_of_not {s : State} (hlen : s.len.toNat ≤ 600)
    (h : ¬ SelectedBy s.started (decoderOf s).buf .wait) : execRxWait s = .refused .notEnabled := by
  have hlen' : s.len.toNat ≤ Config.decBuf := hlen
  rw [execRxWait, if_pos hlen']
  exact whenEnabled_of_eq_false _ (beq_eq_false_iff_ne.mpr (classify_ne_of_not h))

/-- Settles O12: each guard that fails, operation by operation. -/
theorem disabledOperationsHaveNoStep : Obligations.DisabledOperationsHaveNoStep := by
  unfold Obligations.DisabledOperationsHaveNoStep
  intro s
  refine ⟨fun hhigh => whenEnabled_of_eq_false _ (by simp [hhigh]), fun hlow => whenEnabled_of_eq_false _ hlow,
    exec_take_of_empty, exec_qFlush_of_not, exec_qStart_of_not, exec_qPop_of_not, exec_qTimeout_of_not,
    exec_qIdle_of_not, ?_⟩
  rintro buf rfl hlen
  rw [decoderOf_buf_length] at hlen
  refine ⟨fun h => ?front, fun h => onCandidate_of_not _ hlen ?hdr, fun h => onCandidate_of_not _ hlen ?smp,
    fun h => execRxWait_of_not hlen ?wait, fun h => onCandidate_of_not _ hlen ?fail⟩
  case front =>
    have hnone : ¬ Candidate (decoderOf s).buf := by
      rintro ⟨hsix, hstart⟩
      exact h.elim (fun hshort => absurd hsix (Nat.not_le_of_lt hshort)) (fun hother => hother hstart)
    have hparts {p : Part} (hp : p ≠ .slide ∧ p ≠ .short) : ¬ SelectedBy s.started (decoderOf s).buf p :=
      mt (candidate_of_selectedBy hp) hnone
    exact ⟨onCandidate_of_not _ hlen (hparts (by decide)), onCandidate_of_not _ hlen (hparts (by decide)),
      execRxWait_of_not hlen (hparts (by decide)), onCandidate_of_not _ hlen (hparts (by decide))⟩
  case hdr =>
    rintro ⟨-, htype, hidle, hend0, hend1⟩
    obtain htype' | hstarted | hend0' | hend1' := h
    · exact htype' htype
    · exact absurd (hstarted.symm.trans hidle) (by decide)
    · exact hend0' hend0
    · exact hend1' hend1
  case smp =>
    rintro ⟨-, ⟨htype, hstarted, hcount⟩, hwhole, hend0, hend1⟩
    obtain htype' | hidle | hcount' | hshort | hend0' | hend1' := h
    · exact htype' htype
    · exact absurd (hstarted.symm.trans hidle) (by decide)
    · exact hcount hcount'
    · exact hshort.not_ge hwhole
    · exact hend0' hend0
    · exact hend1' hend1
  case wait =>
    rintro ⟨-, ⟨htype, hstarted, hcount⟩, hshort⟩
    obtain htype' | hidle | hcount' | hwhole := h
    · exact htype' htype
    · exact absurd (hstarted.symm.trans hidle) (by decide)
    · exact hcount hcount'
    · exact hshort.not_ge hwhole
  case fail =>
    rintro ⟨-, hheader, hblock⟩
    obtain hhdr | ⟨htype, hstarted, hcount, hrest⟩ := h
    · exact hheader hhdr
    · exact hblock ⟨⟨htype, hstarted, hcount⟩, hrest⟩

end Sys2Proof.Machine

/-! Proofs of the statements about the session state machine and the block framer: which operation a step of Q is
(43_session_framer.md R123, R132), the inactivity window (R129), and what each operation of Q does under its guard (R125 to
R128, R130). -/

namespace Sys2Proof.Machine

/-! ## The inactivity window -/

/-- The difference of R129 on natural numbers. -/
theorem elapsed_toNat (s : State) : (elapsed s).toNat = (s.tsR.toNat + 2 ^ 32 - s.lastAct.toNat) % 2 ^ 32 := by
  have hlast := s.lastAct.isLt
  rw [elapsed, BitVec.toNat_sub]
  congr 1
  omega

/-- Settles O36: `expired` compares the elapsed time of R129, a difference modulo 2^32, with 5 000 000. -/
theorem expiryIsStrictlyMoreThanTheWindow : Obligations.ExpiryIsStrictlyMoreThanTheWindow := by
  unfold Obligations.ExpiryIsStrictlyMoreThanTheWindow
  intro s
  rw [← elapsed_toNat]
  exact decide_eq_true_iff

/-! ## The batch on the wire -/

/-- COUNT is `cnt`: the batch as a SampleBlock (43_session_framer.md R131). -/
theorem smpBytes_batch (s : State) :
    smpBytes (batch s) =
      [0x00, 0x00, 0x01, s.cnt] ++ ((List.range s.cnt.toNat).map (blkAt s)).flatMap sampleBytes ++ [0x00, 0x80] := by
  have hcount : BitVec.ofNat 8 (batch s).length = s.cnt := by simp
  rw [smpBytes, hcount]
  rfl

/-! ## One operation of Q, under its guard -/

theorem exec_qFlush_of_full {s : State} (hactive : s.sess = .active) (hfull : s.cnt = 255) :
    exec .qFlush s = .next { s with tx := s.tx ++ smpBytes (batch s), cnt := 0 } :=
  whenEnabled_next.mpr ⟨by simp [isActive_iff.mpr hactive, batchFull_iff.mpr hfull], rfl⟩

theorem exec_qStart_of_nonempty {s : State} (hidle : s.sess = .idle) (hsees : tailR s ≠ s.headR) :
    exec .qStart s = .next { s with
      tx := s.tx ++ hdrBytes Config.version, cnt := 0, lastAct := s.tsR, sess := .active } :=
  whenEnabled_next.mpr ⟨by simp [isActive_eq_false_iff.mpr hidle, nonemptyR_iff.mpr hsees], rfl⟩

/-- What `Q.POP` leaves: after `TAKE`, the Sample is at `BLK[cnt]` and the window restarts (43_session_framer.md R126). -/
def popSample (s : State) : State :=
  { takeSample s with
    blk := writeCell s.blk s.cnt.toNat (takeSample s).taken, cnt := s.cnt + 1, lastAct := s.tsR }

theorem exec_qPop_of_nonempty {s : State} (hactive : s.sess = .active) (hsees : tailR s ≠ s.headR)
    (hroom : s.cnt ≠ 255) : exec .qPop s = .next (popSample s) :=
  whenEnabled_next.mpr ⟨by
    simp [isActive_iff.mpr hactive, nonemptyR_iff.mpr hsees, Bool.eq_false_iff.mpr (mt batchFull_iff.mp hroom)], rfl⟩

theorem exec_qTimeout_of_expired {s : State} (hactive : s.sess = .active) (hempty : tailR s = s.headR)
    (hexpired : expired s = true) (hroom : s.cnt ≠ 255) :
    exec .qTimeout s = .next { s with
      tx := s.tx ++ (if s.cnt = 0 then [] else smpBytes (batch s)) ++ eosBytes, cnt := 0, sess := .idle } :=
  whenEnabled_next.mpr ⟨by
    simp [isActive_iff.mpr hactive, nonemptyR_eq_false_iff.mpr hempty, hexpired,
      Bool.eq_false_iff.mpr (mt batchFull_iff.mp hroom)], rfl⟩

/-- The last row of the priority list, when no guard before it holds (43_session_framer.md R123). -/
theorem decodeGuards_eq_qIdle {active full expired : Bool} (h : active = true → full = false ∧ expired = false) :
    decodeGuards active full false expired = .qIdle := by
  cases active with
  | false => rfl
  | true =>
    obtain ⟨rfl, rfl⟩ := h rfl
    rfl

theorem exec_qIdle_of_quiet {s : State} (hempty : tailR s = s.headR)
    (hquiet : s.sess = .active → s.cnt ≠ 255 ∧ expired s = false) : exec .qIdle s = .next s := by
  refine whenEnabled_next.mpr ⟨beq_iff_eq.mpr ?_, rfl⟩
  rw [nonemptyR_eq_false_iff.mpr hempty]
  refine decodeGuards_eq_qIdle fun hactive => ?_
  obtain ⟨hroom, hexpired⟩ := hquiet (isActive_iff.mp hactive)
  exact ⟨Bool.eq_false_iff.mpr (mt batchFull_iff.mp hroom), hexpired⟩

/-! ## The operation that a step of Q runs -/

/-- A step of Q runs the operation that is enabled: by `decodeGuards_of_enabled` no guard before its own holds. -/
theorem step_of_polling {s u t : State} {i : Instr} (hf : fetch s = (.polling, u))
    (hi : i ∈ [Instr.qFlush, .qStart, .qPop, .qTimeout, .qIdle]) (ht : exec i u = .next t) : step s = exec i u :=
  step_of_decode_ok hf (congrArg Except.ok (decodeGuards_of_enabled hi ht))

/-- Settles O35: in each row of R132 its own operation is enabled after the fetch. -/
theorem pollingRunsTheFirstEnabledOperation : Obligations.PollingRunsTheFirstEnabledOperation := by
  unfold Obligations.PollingRunsTheFirstEnabledOperation
  rintro s u es hs rfl
  have hf := fetch_of_inputs_cons hs
  refine ⟨?flush, ?start, ?pop, ?timeout, ?idle, ?waiting⟩
  case flush =>
    rintro ⟨hactive, hfull⟩
    exact step_of_polling hf (by simp) (exec_qFlush_of_full hactive hfull)
  case start =>
    rintro ⟨hidle, hsees⟩
    exact step_of_polling hf (by simp) (exec_qStart_of_nonempty hidle hsees)
  case pop =>
    rintro ⟨hactive, hsees, hroom⟩
    exact step_of_polling hf (by simp) (exec_qPop_of_nonempty hactive hsees hroom)
  case timeout =>
    rintro ⟨hactive, hempty, hexpired, hroom⟩
    exact step_of_polling hf (by simp) (exec_qTimeout_of_expired hactive hempty hexpired hroom)
  case idle =>
    rintro ⟨hidle, hempty⟩
    refine step_of_polling hf (by simp) (exec_qIdle_of_quiet hempty fun hactive => ?_)
    exact absurd (hidle.symm.trans hactive) (by decide)
  case waiting =>
    rintro ⟨-, hempty, hexpired, hroom⟩
    exact step_of_polling hf (by simp) (exec_qIdle_of_quiet hempty fun _ => ⟨hroom, hexpired⟩)

/-! ## The statements about the operations -/

/-- Settles O37: the bytes of `HDR(01)` are those of R125. -/
theorem startOpensTheSession : Obligations.StartOpensTheSession := by
  unfold Obligations.StartOpensTheSession
  intro s hidle hsees
  exact exec_qStart_of_nonempty hidle hsees

/-- Settles O39: the full batch is a SampleBlock of COUNT 255. -/
theorem flushSendsTheFullBatch : Obligations.FlushSendsTheFullBatch := by
  unfold Obligations.FlushSendsTheFullBatch
  intro s hactive hfull
  refine ⟨smpBytes (batch s), exec_qFlush_of_full hactive hfull, ?_, ?_⟩
  · rw [length_smpBytes, length_batch, hfull]
    rfl
  · rw [smpBytes_batch, hfull]
    rfl

/-- Settles O40: the partial batch comes first, exactly when it has a Sample. -/
theorem timeoutClosesTheSession : Obligations.TimeoutClosesTheSession := by
  unfold Obligations.TimeoutClosesTheSession
  intro s hactive hempty hexpired hroom
  have hexec := exec_qTimeout_of_expired hactive hempty hexpired hroom
  refine ⟨fun hzero => ?_, fun hsome => ?_⟩
  · rw [hexec, if_pos hzero, List.append_nil]
    rfl
  · rw [hexec, if_neg hsome, smpBytes_batch]
    rfl

/-- Settles O41: only the last guard of R123 is left. -/
theorem idleChangesNothing : Obligations.IdleChangesNothing := by
  unfold Obligations.IdleChangesNothing
  intro s hempty hquiet
  exact exec_qIdle_of_quiet hempty hquiet

/-! ## `Q.POP` on the batch -/

/-- Below 255 Samples `cnt + 1` does not wrap (43_session_framer.md R134). -/
theorem popSample_cnt_toNat {s : State} (hroom : s.cnt ≠ 255) : (popSample s).cnt.toNat = s.cnt.toNat + 1 := by
  change (s.cnt + 1).toNat = s.cnt.toNat + 1
  bv_omega

/-- The elements before `cnt` are not written. -/
theorem blkAt_popSample_of_lt {s : State} {i : Nat} (hi : i < s.cnt.toNat) : blkAt (popSample s) i = blkAt s i :=
  congrArg (·.getD (Config.unwrittenBlk i)) (readCell_writeCell_other s.blk _ hi.ne)

theorem blkAt_popSample_cnt (s : State) : blkAt (popSample s) s.cnt.toNat = (takeSample s).taken :=
  congrArg (·.getD (Config.unwrittenBlk s.cnt.toNat)) (readCell_writeCell_same s.blk _ _)

/-- The batch grows at its end by the Sample taken (43_session_framer.md R126). -/
theorem batch_popSample {s : State} (hroom : s.cnt ≠ 255) :
    batch (popSample s) = batch s ++ [(takeSample s).taken] := by
  have hkept : (List.range s.cnt.toNat).map (blkAt (popSample s)) = batch s :=
    List.map_congr_left fun _ hi => blkAt_popSample_of_lt (List.mem_range.mp hi)
  rw [batch, popSample_cnt_toNat hroom, List.range_succ, List.map_append, hkept, List.map_singleton, blkAt_popSample_cnt]

/-- Settles O38: `Q.POP` is `TAKE` and a write of `BLK` at `cnt`; with 255 Samples the next step of Q finds `Q.FLUSH`
enabled. -/
theorem popMovesOneSampleToTheBatch : Obligations.PopMovesOneSampleToTheBatch := by
  unfold Obligations.PopMovesOneSampleToTheBatch
  intro s hactive hsees hroom
  refine ⟨takeSample s, popSample s, exec_take_of_nonempty hsees, exec_qPop_of_nonempty hactive hsees hroom, rfl, rfl, rfl,
    readCell_writeCell_same _ _ _, fun j hj => readCell_writeCell_other _ _ hj, popSample_cnt_toNat hroom, rfl,
    batch_popSample hroom, rfl, fun hlast es => ?_⟩
  have hfull : (popSample s).cnt = 255 := congrArg (· + 1) hlast
  exact step_of_polling (fetch_of_inputs_cons rfl) (by simp) (exec_qFlush_of_full hactive hfull)

end Sys2Proof.Machine

/-! Proofs of the statements about the parts of `RX`, each alone (44_decoder_resync.md R141 to R151): what the front of
`BUF` must be for a part to apply, what the part then does to H's record, and from that the statement. -/

namespace Sys2Proof.Machine

/-! ## An operation of H on H's record -/

/-- An operation of H that gives the record `e` reaches a state with this record and changes nothing else. -/
theorem onDecoder_reaches {s : State} {f : Decoder → Decoder} {e : Decoder} (hlen : s.len.toNat ≤ 600)
    (he : f (decoderOf s) = e) :
    onDecoder s f = .next (withDecoder s e) ∧ OnlyH s (withDecoder s e) :=
  ⟨he ▸ onDecoder_of_le f hlen, onlyH_withDecoder s e⟩

/-- The same for a part of `RX`, when the front of `BUF` selects it. -/
theorem onCandidate_reaches {s : State} {p : Part} {f : Decoder → Decoder} {e : Decoder} (hlen : s.len.toNat ≤ 600)
    (hsel : classify s.started (decoderOf s).buf = p) (he : f (decoderOf s) = e) :
    onCandidate s p f = .next (withDecoder s e) ∧ OnlyH s (withDecoder s e) :=
  ⟨he ▸ onCandidate_next.mpr ⟨hlen, hsel, rfl⟩, onlyH_withDecoder s e⟩

theorem withDecoder_len_of_length {s : State} {d : Decoder} {n : BitVec 10} (h : d.buf.length = n.toNat) :
    (withDecoder s d).len = n := by
  rw [withDecoder_len, h, BitVec.ofNat_toNat, BitVec.setWidth_eq]

/-- What is stored is read back, and counted: the buffer as it is after an operation of H. -/
theorem buf_withDecoder (s : State) {d : Decoder} (h : d.buf.length ≤ 600) :
    (decoderOf (withDecoder s d)).buf = d.buf ∧ (withDecoder s d).len.toNat = d.buf.length :=
  ⟨congrArg Decoder.buf (decoderOf_withDecoder s (by omega)), withDecoder_len_toNat s (by omega)⟩

theorem length_le_of_buf_eq {s : State} {front rest : List Byte} (hlen : s.len.toNat ≤ 600)
    (h : (decoderOf s).buf = front ++ rest) : front.length + rest.length ≤ 600 := by
  rwa [← List.length_append, ← h, decoderOf_buf_length]

/-! ## `RX.APPEND` and `RX.EOS` -/

/-- Settles O42: the two cases of `appendByte`, with room and full. -/
theorem appendStoresTheByte : Obligations.AppendStoresTheByte := by
  unfold Obligations.AppendStoresTheByte
  intro b s hlen
  obtain ⟨hexec, hframe⟩ := onDecoder_reaches (f := appendByte b) hlen rfl
  obtain ⟨hbuf, -⟩ := buf_withDecoder s (d := appendByte b (decoderOf s)) (appendByte_length_le (by simpa using hlen))
  refine ⟨_, hexec, hframe, appendByte_started b _, appendByte_win b _, appendByte_winN b _, appendByte_raw b _,
    appendByte_smp b _, fun hroom => ?_, fun hfull => ?_⟩
  · have happ := appendByte_of_room (b := b) (d := decoderOf s) (by rw [decoderOf_buf_length]; omega)
    rw [hbuf, happ]
    refine ⟨rfl, withDecoder_len_of_length ?_, rfl⟩
    rw [List.length_append, decoderOf_buf_length]
    exact (BitVec.toNat_add_of_lt (y := 1) (by simp; omega)).symm
  · have happ := appendByte_of_full (b := b) (d := decoderOf s) (by rwa [decoderOf_buf_length])
    rw [hbuf, happ]
    exact ⟨rfl, rfl, rfl⟩

/-- Settles O43: the two branches of `sentinelPart`, told apart by the window. -/
theorem sentinelEndsTheSession : Obligations.SentinelEndsTheSession := by
  unfold Obligations.SentinelEndsTheSession
  intro b s hlen
  have hseen := sentinelSeen_shiftWindow (b := b) (d := decoderOf s)
  by_cases h : sentinelSeen (shiftWindow b (decoderOf s)) = true
  · have hpart : sentinelPart b (decoderOf s) = endSession (shiftWindow b (decoderOf s)) := if_pos h
    obtain ⟨hexec, hframe⟩ := onDecoder_reaches hlen hpart
    refine ⟨_, hexec, hframe, rfl, rfl, fun _ => ⟨rfl, ?_, rfl, rfl, rfl⟩, fun hno => absurd (hseen.mp h) hno⟩
    simp
  · have hpart : sentinelPart b (decoderOf s) = shiftWindow b (decoderOf s) := if_neg h
    obtain ⟨hexec, hframe⟩ := onDecoder_reaches hlen hpart
    have hbuf : (shiftWindow b (decoderOf s)).buf.length = s.len.toNat := decoderOf_buf_length s
    refine ⟨_, hexec, hframe, rfl, rfl, fun hyes => absurd (hseen.mpr hyes) h, fun _ => ⟨?_,
      (buf_withDecoder s (hbuf.trans_le hlen)).1, withDecoder_len_of_length hbuf, rfl, rfl, rfl⟩⟩
    rw [withDecoder_winN, shiftWindow_winN, BitVec.toNat_ofNat, Nat.mod_eq_of_lt (by omega), decoderOf_winN]

/-! ## `RX.SLIDE` -/

theorem beginsStart_of_start_prefix {buf : List Byte} (h : [0x00, 0x00] <+: buf) : beginsStart buf = true := by
  obtain ⟨rest, rfl⟩ := h
  rfl

/-- Each byte that goes stood in front of two bytes or more that were not `START` (44_decoder_resync.md R144). -/
theorem front_of_slid_byte (buf : List Byte) {k : Nat} (hk : k < (slidBytes buf).length) :
    2 ≤ (buf.drop k).length ∧ ¬ [0x00, 0x00] <+: buf.drop k := by
  induction buf using slidBytes.induct generalizing k with
  | case1 b0 b1 rest hstart => simp [slidBytes, hstart] at hk
  | case2 b0 b1 rest hother ih =>
    rw [slidBytes, if_neg hother, List.length_cons] at hk
    cases k with
    | zero =>
      refine ⟨by simp, fun hstart => hother ?_⟩
      exact beq_iff_eq.mp (beginsStart_of_start_prefix hstart)
    | succ k => exact ih (Nat.lt_of_succ_lt_succ hk)
  | case3 buf hfew =>
    rw [slidBytes.eq_2 buf hfew] at hk
    exact absurd hk (Nat.not_lt_zero k)

/-- Settles O44: the buffer splits into the bytes that go and the bytes kept. -/
theorem slideHuntsForTheNextStart : Obligations.SlideHuntsForTheNextStart := by
  unfold Obligations.SlideHuntsForTheNextStart
  intro s hlen
  have hsplit := slidBytes_append_drop (decoderOf s).buf
  obtain ⟨hexec, hframe⟩ := onDecoder_reaches (f := slidePart) hlen rfl
  obtain ⟨hbuf, hcount⟩ := buf_withDecoder s (d := slidePart (decoderOf s))
    (by rw [slidePart_buf, List.length_drop, decoderOf_buf_length]; omega)
  refine ⟨_, slidBytes (decoderOf s).buf, (decoderOf s).buf.drop (slidBytes (decoderOf s).buf).length, hexec, hframe,
    hsplit.symm, hbuf, hcount, rfl, ?_, fun k hk => hsplit.symm ▸ front_of_slid_byte _ hk, rfl, rfl, rfl, rfl, rfl⟩
  refine (Nat.lt_or_ge 1 _).symm.imp_right fun htwo => ?_
  exact start_prefix_of_beginsStart htwo ((kept_after_slide _).resolve_left (Nat.not_le_of_lt htwo))

/-! ## The part that a candidate selects -/

theorem atBlock_iff {started : Bool} {buf : List Byte} :
    byteAt buf 2 = Config.typeSmp ∧ started = true ∧ byteAt buf 3 ≠ 0 ↔ AtBlock started buf := Iff.rfl

/-- The converse of `selectedBy_classify` for the parts that look at a candidate: what they require excludes the
others. -/
theorem classify_eq_of_selectedBy {started : Bool} {buf : List Byte} {p : Part} (hp : p ≠ .slide ∧ p ≠ .short)
    (h : SelectedBy started buf p) : classify started buf = p := by
  obtain ⟨hsix, hstart⟩ := candidate_of_selectedBy hp h
  have hslide : ¬ (2 ≤ buf.length ∧ beginsStart buf = false) := fun hs =>
    absurd (hs.2.symm.trans (beginsStart_of_start_prefix hstart)) (by decide)
  have hheader : AtBlock started buf → ¬ AtHeader started buf := fun hblock hhdr =>
    absurd (hblock.1.symm.trans hhdr.1) (by decide)
  unfold classify
  rw [if_neg hslide, if_neg (Nat.not_lt_of_le hsix)]
  cases p
  case slide => exact absurd rfl hp.1
  case short => exact absurd rfl hp.2
  case hdr => exact if_pos (atHeader_iff.mpr h.2)
  case smp =>
    obtain ⟨-, hblock, (hwhole : unitLength buf ≤ buf.length), hends⟩ := h
    rw [if_neg (mt atHeader_iff.mp (hheader hblock)), if_pos (atBlock_iff.mpr hblock), if_neg (Nat.not_lt_of_le hwhole),
      if_pos (blockEnds_iff.mpr hends)]
  case wait =>
    obtain ⟨-, hblock, (hshort : buf.length < unitLength buf)⟩ := h
    rw [if_neg (mt atHeader_iff.mp (hheader hblock)), if_pos (atBlock_iff.mpr hblock), if_pos hshort]
  case fail =>
    obtain ⟨-, hnotHeader, hnotBlock⟩ := h
    rw [if_neg (mt atHeader_iff.mp hnotHeader)]
    by_cases hblock : AtBlock started buf
    · have hwhole : ¬ buf.length < unitLength buf := fun hshort => hnotBlock ⟨hblock, .inl hshort⟩
      rw [if_pos (atBlock_iff.mpr hblock), if_neg hwhole,
        if_neg fun hends => hnotBlock ⟨hblock, .inr (blockEnds_iff.mp hends)⟩]
    · exact if_neg (mt atBlock_iff.mp hblock)

theorem candidate_of_start (type par : Byte) {rest : List Byte} (h : 2 ≤ rest.length) :
    Candidate ([0x00, 0x00, type, par] ++ rest) :=
  ⟨by simp; omega, [type, par] ++ rest, rfl⟩

/-- A HeaderBlock in front selects `RX.HDR` while H is not started, whatever VERSION is (44_decoder_resync.md R147). -/
theorem classify_header (v : Byte) (rest : List Byte) :
    classify false ([0x00, 0x00, 0x00, v, 0x00, 0x80] ++ rest) = .hdr :=
  classify_eq_of_selectedBy (by decide)
    ⟨candidate_of_start 0x00 v (rest := 0x00 :: 0x80 :: rest) (by simp), rfl, rfl, rfl, rfl⟩

/-- The first bytes of a SampleBlock, but not all, select `RX.WAIT` (44_decoder_resync.md R149). -/
theorem classify_incomplete_block {n : Byte} {rest : List Byte} (hn : n ≠ 0) (htwo : 2 ≤ rest.length)
    (hshort : rest.length < 2 + 2 * n.toNat) : classify true ([0x00, 0x00, 0x01, n] ++ rest) = .wait := by
  refine classify_eq_of_selectedBy (by decide) ⟨candidate_of_start 0x01 n htwo, ⟨rfl, rfl, hn⟩, ?_⟩
  change rest.length + 4 < 6 + 2 * n.toNat
  omega

/-- END of a SampleBlock is looked for behind its `2n` payload bytes (44_decoder_resync.md R148). -/
theorem blockEnds_iff_bytes (type n : Byte) (rest : List Byte) :
    BlockEnds ([0x00, 0x00, type, n] ++ rest) ↔
      byteAt rest (2 * n.toNat) = 0x00 ∧ byteAt rest (2 * n.toNat + 1) = 0x80 := by
  have hfront (i : Nat) : byteAt ([0x00, 0x00, type, n] ++ rest) (4 + i) = byteAt rest i := byteAt_append_right _ _ i
  rw [← hfront, ← hfront, ← Nat.add_assoc, Nat.add_right_comm 4]
  rfl

/-- A whole SampleBlock in front selects `RX.SMP` while H is started (44_decoder_resync.md R148). -/
theorem classify_block {n : Byte} {payload : List Byte} (hn : n ≠ 0) (hpayload : payload.length = 2 * n.toNat)
    (rest : List Byte) : classify true ([0x00, 0x00, 0x01, n] ++ payload ++ [0x00, 0x80] ++ rest) = .smp := by
  rw [List.append_assoc, List.append_assoc]
  refine classify_eq_of_selectedBy (by decide) ⟨candidate_of_start 0x01 n (by simp; omega), ⟨rfl, rfl, hn⟩, ?_, ?_⟩
  · change 6 + 2 * n.toNat ≤ ([0x00, 0x00, 0x01, n] ++ (payload ++ ([0x00, 0x80] ++ rest))).length
    simp only [List.length_append, List.length_cons, List.length_nil]
    omega
  · rw [blockEnds_iff_bytes, ← hpayload]
    exact ⟨byteAt_append_right payload _ 0, byteAt_append_right payload _ 1⟩

/-! ## What each part does to its candidate -/

/-- `RX.HDR` on a HeaderBlock (44_decoder_resync.md R147). -/
theorem acceptHeader_of_header {d : Decoder} {v : Byte} {rest : List Byte}
    (h : d.buf = [0x00, 0x00, 0x00, v, 0x00, 0x80] ++ rest) :
    acceptHeader d = { d with
      buf := rest, started := true, raw := d.raw ++ [0x00, 0x00, 0x00, v, 0x00, 0x80], hev := d.hev ++ [.hdr v] } := by
  simp [acceptHeader, consume, raiseH, h, byteAt]

/-- The Samples of R148, read at their offsets in the payload. -/
theorem payloadSamples_eq_map (n : Nat) {payload : List Byte} (h : payload.length = 2 * n) (rest : List Byte) :
    payloadSamples n (payload ++ rest) =
      (List.range n).map fun i => joinBytes (byteAt payload (2 * i)) (byteAt payload (2 * i + 1)) := by
  induction n generalizing payload with
  | zero => rfl
  | succ n ih =>
    match payload, h with
    | b0 :: b1 :: more, h =>
      have hmore : more.length = 2 * n := by simpa [Nat.mul_succ] using h
      rw [List.range_succ_eq_map, List.map_cons, List.map_map]
      exact congrArg (joinBytes b0 b1 :: ·) (ih hmore)

/-- `RX.SMP` on a SampleBlock (44_decoder_resync.md R148). -/
theorem acceptSamples_of_block {d : Decoder} {n : Byte} {payload rest : List Byte}
    (hpayload : payload.length = 2 * n.toNat)
    (h : d.buf = [0x00, 0x00, 0x01, n] ++ payload ++ [0x00, 0x80] ++ rest) :
    acceptSamples d = { d with
      buf := rest, raw := d.raw ++ ([0x00, 0x00, 0x01, n] ++ payload ++ [0x00, 0x80]),
      smp := d.smp ++ payloadSamples n.toNat (payload ++ ([0x00, 0x80] ++ rest)), hev := d.hev ++ [.smp n] } := by
  have hcount : byteAt d.buf 3 = n := by simp [h, byteAt]
  have hunit : ([0x00, 0x00, 0x01, n] ++ payload ++ [0x00, 0x80]).length = unitLength d.buf := by
    rw [unitLength, hcount, ← hpayload]
    simp only [List.length_append, List.length_cons, List.length_nil]
    omega
  have htake : d.buf.take (unitLength d.buf) = [0x00, 0x00, 0x01, n] ++ payload ++ [0x00, 0x80] := by
    rw [← hunit, h, List.take_left]
  have hdrop : d.buf.drop (unitLength d.buf) = rest := by
    rw [← hunit, h, List.drop_left]
  have hdata : d.buf.drop 4 = payload ++ ([0x00, 0x80] ++ rest) := by simp [h]
  simp only [acceptSamples, consume, raiseH, htake, hdrop, hdata, hcount]

/-- `RX.FAIL` on a candidate (44_decoder_resync.md R150). -/
theorem failCandidate_of_start {d : Decoder} {type par : Byte} {rest : List Byte}
    (h : d.buf = [0x00, 0x00, type, par] ++ rest) :
    failCandidate d = { d with
      buf := [0x00, type, par] ++ rest, hev := d.hev ++ [.desync 0x00 0x00 type par] } := by
  simp [failCandidate, consume, raiseH, h, byteAt]

/-! ## The statements -/

/-- Settles O45, from the part that the HeaderBlock selects. -/
theorem headerIsAccepted : Obligations.HeaderIsAccepted := by
  unfold Obligations.HeaderIsAccepted
  intro v rest s hlen hidle hfront
  have hsel : classify s.started (decoderOf s).buf = .hdr := by
    rw [hidle, hfront]
    exact classify_header v rest
  obtain ⟨hexec, hframe⟩ := onCandidate_reaches hlen hsel (acceptHeader_of_header hfront)
  have hrest : rest.length ≤ 600 := (Nat.le_add_left ..).trans (length_le_of_buf_eq hlen hfront)
  obtain ⟨hbuf, hcount⟩ := buf_withDecoder s (d := { decoderOf s with buf := rest }) hrest
  exact ⟨_, hexec, hframe, rfl, rfl, rfl, hbuf, hcount, rfl, rfl, rfl⟩

/-- Settles O46, from the part that the SampleBlock selects and from the Samples at their offsets. -/
theorem sampleBlockIsAccepted : Obligations.SampleBlockIsAccepted := by
  unfold Obligations.SampleBlockIsAccepted
  intro n payload rest s hlen hstarted hn hpayload hfront
  have hsel : classify s.started (decoderOf s).buf = .smp := by
    rw [hstarted, hfront]
    exact classify_block hn hpayload rest
  obtain ⟨hexec, hframe⟩ := onCandidate_reaches hlen hsel (acceptSamples_of_block hpayload hfront)
  have hrest : rest.length ≤ 600 := (Nat.le_add_left ..).trans (length_le_of_buf_eq hlen hfront)
  obtain ⟨hbuf, hcount⟩ := buf_withDecoder s (d := { decoderOf s with buf := rest }) hrest
  exact ⟨_, hexec, hframe, rfl, rfl, congrArg (s.smp ++ ·) (payloadSamples_eq_map _ hpayload _), hbuf, hcount, hstarted,
    rfl, rfl⟩

/-- Settles O47: the guard holds, and the part has no action. -/
theorem incompleteBlockWaits : Obligations.IncompleteBlockWaits := by
  unfold Obligations.IncompleteBlockWaits
  intro n rest s hlen hstarted hn hfront htwo hshort
  have hsel : classify s.started (decoderOf s).buf = .wait := by
    rw [hstarted, hfront]
    exact classify_incomplete_block hn htwo hshort
  change execRxWait s = .next s
  rw [execRxWait, if_pos (show s.len.toNat ≤ Config.decBuf from hlen), hsel]
  rfl

/-- Two bytes at an offset, as a slice (44_decoder_resync.md R151 (a), (b)). -/
theorem take_two_drop {rest : List Byte} {i : Nat} (h : i + 2 ≤ rest.length) :
    (rest.drop i).take 2 = [byteAt rest i, byteAt rest (i + 1)] := by
  have hfirst : i < rest.length := by omega
  have hsecond : i + 1 < rest.length := by omega
  rw [byteAt, byteAt, List.getD_eq_getElem _ _ hfirst, List.getD_eq_getElem _ _ hsecond,
    List.drop_eq_getElem_cons hfirst, List.drop_eq_getElem_cons hsecond]
  rfl

/-- The six cases of R151, as the two that the guard of `RX.FAIL` names: no header, and no block that is still short or
ends as it should. -/
theorem selectedBy_fail_of_cases {started : Bool} {type par : Byte} {rest : List Byte} (htwo : 2 ≤ rest.length)
    (h : type = 0x00 ∧ started = false ∧ rest.take 2 ≠ [0x00, 0x80] ∨
      type = 0x01 ∧ started = true ∧ par ≠ 0 ∧ 2 * par.toNat + 2 ≤ rest.length ∧
        (rest.drop (2 * par.toNat)).take 2 ≠ [0x00, 0x80] ∨
      type = 0x01 ∧ started = true ∧ par = 0 ∨
      type = 0x00 ∧ started = true ∨
      type = 0x01 ∧ started = false ∨
      2 ≤ type.toNat) :
    SelectedBy started ([0x00, 0x00, type, par] ++ rest) .fail := by
  refine ⟨candidate_of_start type par htwo, ?notHeader, ?notBlock⟩
  case notHeader =>
    rintro ⟨(rfl : type = 0x00), rfl, hend0, hend1⟩
    rcases h with ⟨-, -, hend⟩ | h | h | h | h | h
    · refine hend ((take_two_drop (i := 0) htwo).trans ?_)
      exact congrArg₂ (fun x y : Byte => [x, y]) hend0 hend1
    all_goals simp at h
  case notBlock =>
    rintro ⟨⟨(rfl : type = 0x01), rfl, (hpar : par ≠ 0)⟩, hbad⟩
    rcases h with h | ⟨-, -, -, hwhole, hend⟩ | ⟨-, -, hzero⟩ | h | h | h
    · simp at h
    · rcases hbad with hshort | hends
      · change rest.length + 4 < 6 + 2 * par.toNat at hshort
        omega
      · obtain ⟨hend0, hend1⟩ := (blockEnds_iff_bytes 0x01 par rest).mp hends
        exact hend (by rw [take_two_drop hwhole, hend0, hend1])
    · exact hpar hzero
    all_goals simp at h

/-- Settles O48: in each of the six cases the candidate selects `RX.FAIL`. -/
theorem failedCandidateLosesOneByte : Obligations.FailedCandidateLosesOneByte := by
  unfold Obligations.FailedCandidateLosesOneByte
  intro type par rest s hlen hfront htwo hcases
  have hsel : classify s.started (decoderOf s).buf = .fail := by
    rw [hfront]
    exact classify_eq_of_selectedBy (by decide) (selectedBy_fail_of_cases htwo hcases)
  obtain ⟨hexec, hframe⟩ := onCandidate_reaches hlen hsel (failCandidate_of_start hfront)
  have hlength : ([0x00, type, par] ++ rest).length = 3 + rest.length := Nat.add_comm rest.length 3
  have hrest : ([0x00, type, par] ++ rest).length ≤ 600 :=
    (Nat.le_add_left ..).trans (length_le_of_buf_eq (front := [0x00]) hlen hfront)
  obtain ⟨hbuf, hcount⟩ := buf_withDecoder s (d := { decoderOf s with buf := [0x00, type, par] ++ rest }) hrest
  exact ⟨_, hexec, hframe, rfl, hbuf, hcount.trans hlength, rfl, rfl, rfl, rfl, rfl⟩

end Sys2Proof.Machine

/-! Proofs of the statements about `RX` and about the wire units at H: how many bytes are held after an `RX`
(44_decoder_resync.md R153), and what a whole unit, a whole session and its raw capture are decoded to (R154 to R156,
R159). -/

namespace Sys2Proof.Machine

/-! ## An `RX` with room raises no `EV_BUF_RESET` -/

/-- The trace has grown by events of which none is `EV_BUF_RESET`. -/
def GrewWithoutReset (d e : Decoder) : Prop := ∃ news, e.hev = d.hev ++ news ∧ .bufReset ∉ news

theorem GrewWithoutReset.trans {d e f : Decoder} (hde : GrewWithoutReset d e) (hef : GrewWithoutReset e f) :
    GrewWithoutReset d f := by
  obtain ⟨news, hnews, hno⟩ := hde
  obtain ⟨more, hmore, hnone⟩ := hef
  exact ⟨news ++ more, by rw [hmore, hnews, List.append_assoc], by simp [hno, hnone]⟩

theorem grewWithoutReset_slidePart (d : Decoder) : GrewWithoutReset d (slidePart d) :=
  ⟨(slidBytes d.buf).map .slide, rfl, by simp⟩

theorem grewWithoutReset_acceptHeader (d : Decoder) : GrewWithoutReset d (acceptHeader d) := ⟨[_], rfl, by simp⟩

theorem grewWithoutReset_acceptSamples (d : Decoder) : GrewWithoutReset d (acceptSamples d) := ⟨[_], rfl, by simp⟩

theorem grewWithoutReset_failCandidate (d : Decoder) : GrewWithoutReset d (failCandidate d) := ⟨[_], rfl, by simp⟩

theorem grewWithoutReset_endSession (d : Decoder) : GrewWithoutReset d (endSession d) := ⟨[_], rfl, by simp⟩

theorem grewWithoutReset_resyncLoop (turns : Nat) (d : Decoder) : GrewWithoutReset d (resyncLoop turns d) :=
  resyncLoop_keeps (P := GrewWithoutReset d) (fun e h => h.trans (grewWithoutReset_slidePart e))
    (fun e h _ => h.trans (grewWithoutReset_acceptHeader e)) (fun e h _ => h.trans (grewWithoutReset_acceptSamples e))
    (fun e h _ => h.trans (grewWithoutReset_failCandidate e)) turns d ⟨[], by simp, by simp⟩

/-- Only `RX.APPEND` on a full buffer raises it (44_decoder_resync.md R141). -/
theorem grewWithoutReset_receiveByte (b : Byte) {d : Decoder} (hroom : d.buf.length ≠ 600) :
    GrewWithoutReset d (receiveByte b d) := by
  have happend : GrewWithoutReset d (shiftWindow b (appendByte b d)) :=
    ⟨[], by rw [appendByte_of_room hroom, List.append_nil]; rfl, List.not_mem_nil⟩
  by_cases h : sentinelSeen (shiftWindow b (appendByte b d)) = true
  · rw [receiveByte_of_sentinel h]
    exact happend.trans (grewWithoutReset_endSession _)
  · rw [receiveByte_of_not h]
    exact happend.trans (grewWithoutReset_resyncLoop _ _)

/-- Settles O51: the sentinel empties the buffer, and otherwise `RX` ends settled. -/
theorem receiveNeverFillsTheBuffer : Obligations.ReceiveNeverFillsTheBuffer := by
  unfold Obligations.ReceiveNeverFillsTheBuffer
  intro b s hlen
  have hroom : (decoderOf s).buf.length ≠ 600 := by
    rw [decoderOf_buf_length]
    omega
  obtain ⟨news, hnews, hno⟩ := grewWithoutReset_receiveByte b hroom
  have hheld := receiveByte_length_le b (decoderOf s)
  obtain ⟨hexec, hframe⟩ := onDecoder_reaches (f := receiveByte b) (hlen.trans (by decide)) rfl
  obtain ⟨hbuf, hcount⟩ := buf_withDecoder s (hheld.trans (by decide))
  refine ⟨_, news, hexec, hframe, hcount.trans_le hheld, hnews, hno, ?_⟩
  rw [hbuf, hcount]
  rcases receiveByte_cases b (decoderOf s) with hend | ⟨hshort | hwait, -, -⟩
  · exact .inl (withDecoder_len_of_length (by rw [hend]; rfl))
  · exact .inr (.inl (classify_short_length hshort))
  · exact .inr (.inr ⟨hwait, (classify_wait_length hwait).2, unitLength_le _⟩)

/-! ## The front of a unit piles up -/

/-- Fewer than six bytes of something that begins with `START` select no part (44_decoder_resync.md R144, R145). -/
theorem quiet_of_few_bytes (started : Bool) {buf rest : List Byte} (h : buf <+: 0x00 :: 0x00 :: rest)
    (hfew : buf.length < 6) : Quiet started buf := by
  match buf, h with
  | [], _ => exact ⟨rfl, .inl rfl⟩
  | [_], _ => exact ⟨rfl, .inl rfl⟩
  | b0 :: b1 :: more, h =>
    obtain ⟨rfl, htail⟩ := List.cons_prefix_cons.mp h
    obtain ⟨rfl, -⟩ := List.cons_prefix_cons.mp htail
    refine ⟨slidBytes_start more, .inl ?_⟩
    unfold classify
    rw [if_neg (by simp [beginsStart, byteAt]), if_pos hfew]

/-- A SampleBlock without its last byte. -/
def blockFront (samples : List Sample) : List Byte :=
  [0x00, 0x00, 0x01, BitVec.ofNat 8 samples.length] ++ (samples.flatMap sampleBytes ++ [0x00])

theorem smpBytes_eq_blockFront (samples : List Sample) : smpBytes samples = blockFront samples ++ [0x80] := by
  simp [smpBytes, blockFront, Config.startMarker, Config.endMarker, Config.typeSmp]

theorem length_blockFront (samples : List Sample) : (blockFront samples).length = 5 + 2 * samples.length := by
  have h := length_smpBytes samples
  rw [smpBytes_eq_blockFront, List.length_append, List.length_singleton] at h
  omega

theorem count_toNat {samples : List Sample} (h : samples.length ≤ 255) :
    (BitVec.ofNat 8 samples.length).toNat = samples.length := by
  rw [BitVec.toNat_ofNat, Nat.mod_eq_of_lt (by omega)]

theorem count_ne_zero {samples : List Sample} (hone : 1 ≤ samples.length) (hmax : samples.length ≤ 255) :
    BitVec.ofNat 8 samples.length ≠ 0 := by
  intro h
  have hnone : samples.length = 0 := (count_toNat hmax).symm.trans (congrArg BitVec.toNat h)
  omega

/-- No part but `RX.WAIT` applies before the last byte of a SampleBlock (44_decoder_resync.md R149). -/
theorem quiet_of_blockFront {samples : List Sample} (hone : 1 ≤ samples.length) (hmax : samples.length ≤ 255)
    (k : Nat) :
    Quiet true ((blockFront samples).take k) := by
  rcases Nat.lt_or_ge ((blockFront samples).take k).length 6 with hfew | hsix
  · exact quiet_of_few_bytes true (List.take_prefix k (blockFront samples)) hfew
  · rw [List.length_take, length_blockFront] at hsix
    obtain ⟨j, rfl⟩ : ∃ j, k = j + 4 := ⟨k - 4, by omega⟩
    have hlength : ((samples.flatMap sampleBytes ++ [0x00]).take j).length = min j (2 * samples.length + 1) := by
      rw [List.length_take, List.length_append, length_flatMap_sampleBytes, List.length_singleton]
    refine ⟨slidBytes_start _, .inr (classify_incomplete_block (count_ne_zero hone hmax)
      (rest := (samples.flatMap sampleBytes ++ [0x00]).take j) ?_ ?_)⟩
    · omega
    · rw [count_toNat hmax]
      omega

theorem receiveBytes_blockFront {samples : List Sample} {d : Decoder} (hone : 1 ≤ samples.length)
    (hmax : samples.length ≤ 255) (hstarted : d.started = true) (hempty : d.buf = [])
    (hs : NoSentinel d (blockFront samples)) :
    ∃ w n, receiveBytes (blockFront samples) d = { d with buf := blockFront samples, win := w, winN := n } := by
  have hroom : d.buf.length + (blockFront samples).length ≤ 600 := by
    rw [hempty, length_blockFront, List.length_nil]
    omega
  have hquiet (k : Nat) (_ : k < (blockFront samples).length) :
      Quiet d.started (d.buf ++ (blockFront samples).take (k + 1)) := by
    rw [hempty, hstarted]
    exact quiet_of_blockFront hone hmax (k + 1)
  have h := receiveBytes_quiet _ d hroom hs hquiet
  rwa [hempty, List.nil_append] at h

/-! ## One unit -/

/-- A byte that completes no sentinel with the bytes before it, seen at the byte itself. -/
theorem not_sentinelSeen_after {bytes : List Byte} {b : Byte} {d : Decoder} (hs : NoSentinel d (bytes ++ [b])) :
    ¬ sentinelSeen (shiftWindow b (receiveBytes bytes d)) = true :=
  not_sentinelSeen_of_noSentinel (noSentinel_after hs (receiveBytes_window bytes d (noSentinel_left hs)).1)

/-- The last byte of a SampleBlock hands it over (44_decoder_resync.md R148). -/
theorem receiveByte_completes_block {samples : List Sample} {d : Decoder} (hone : 1 ≤ samples.length)
    (hmax : samples.length ≤ 255) (hstarted : d.started = true) (hfront : d.buf = blockFront samples)
    (hlast : ¬ sentinelSeen (shiftWindow 0x80 d) = true) :
    receiveByte 0x80 d = { shiftWindow 0x80 d with
      buf := [], raw := d.raw ++ smpBytes samples, smp := d.smp ++ samples,
      hev := d.hev ++ [.smp (BitVec.ofNat 8 samples.length)] } := by
  have hpayload : (samples.flatMap sampleBytes).length = 2 * (BitVec.ofNat 8 samples.length).toNat := by
    rw [length_flatMap_sampleBytes, count_toNat hmax]
  have hwhole : d.buf ++ [0x80] =
      [0x00, 0x00, 0x01, BitVec.ofNat 8 samples.length] ++ samples.flatMap sampleBytes ++ [0x00, 0x80] ++ [] := by
    rw [hfront]
    simp [blockFront]
  have hsel : classify d.started (d.buf ++ [0x80]) = .smp := by
    rw [hwhole, hstarted]
    exact classify_block (count_ne_zero hone hmax) hpayload []
  have hacc := acceptSamples_of_block (d := { shiftWindow 0x80 d with buf := d.buf ++ [0x80] }) hpayload hwhole
  rw [count_toNat hmax, payloadSamples_of_samples] at hacc
  exact receiveByte_accept (by rw [hfront, length_blockFront]; omega) hlast (by rw [hwhole]; exact slidBytes_start _)
    (.inr ⟨hsel, hacc.symm⟩) rfl

/-- A SampleBlock is decoded to its Samples (44_decoder_resync.md R154). -/
theorem receiveBytes_smpBytes {samples : List Sample} {d : Decoder} (hone : 1 ≤ samples.length)
    (hmax : samples.length ≤ 255) (hstarted : d.started = true) (hempty : d.buf = [])
    (hs : NoSentinel d (smpBytes samples)) :
    ∃ w n, receiveBytes (smpBytes samples) d = { d with
      raw := d.raw ++ smpBytes samples, smp := d.smp ++ samples,
      hev := d.hev ++ [.smp (BitVec.ofNat 8 samples.length)], win := w, winN := n } := by
  rw [smpBytes_eq_blockFront] at hs
  obtain ⟨w, n, hfront⟩ := receiveBytes_blockFront hone hmax hstarted hempty (noSentinel_left hs)
  have hbyte := receiveByte_completes_block hone hmax (by rw [hfront]; exact hstarted) (by rw [hfront])
    (not_sentinelSeen_after hs)
  have hbytes := (receiveBytes_append (blockFront samples) [0x80] d).trans hbyte
  rw [← smpBytes_eq_blockFront, hfront, ← hempty] at hbytes
  exact ⟨_, _, hbytes⟩

/-- A HeaderBlock without its last byte. -/
def headerFront (v : Byte) : List Byte := [0x00, 0x00, 0x00, v, 0x00]

theorem hdrBytes_eq_headerFront (v : Byte) : hdrBytes v = headerFront v ++ [0x80] := rfl

theorem receiveBytes_headerFront (v : Byte) {d : Decoder} (hempty : d.buf = []) (hs : NoSentinel d (headerFront v)) :
    ∃ w n, receiveBytes (headerFront v) d = { d with buf := headerFront v, win := w, winN := n } := by
  have hroom : d.buf.length + (headerFront v).length ≤ 600 := by simp [hempty, headerFront]
  have hquiet (k : Nat) (_ : k < (headerFront v).length) :
      Quiet d.started (d.buf ++ (headerFront v).take (k + 1)) := by
    rw [hempty]
    exact quiet_of_few_bytes d.started (List.take_prefix ..) ((List.length_take_le' ..).trans_lt (Nat.lt_succ_self 5))
  have h := receiveBytes_quiet _ d hroom hs hquiet
  rwa [hempty, List.nil_append] at h

/-- The last byte of a HeaderBlock hands it over (44_decoder_resync.md R147). -/
theorem receiveByte_completes_header {v : Byte} {d : Decoder} (hidle : d.started = false)
    (hfront : d.buf = headerFront v) (hlast : ¬ sentinelSeen (shiftWindow 0x80 d) = true) :
    receiveByte 0x80 d = { shiftWindow 0x80 d with
      buf := [], started := true, raw := d.raw ++ hdrBytes v, hev := d.hev ++ [.hdr v] } := by
  have hwhole : d.buf ++ [0x80] = [0x00, 0x00, 0x00, v, 0x00, 0x80] ++ [] := by
    rw [hfront]
    rfl
  have hsel : classify d.started (d.buf ++ [0x80]) = .hdr := by
    rw [hwhole, hidle]
    exact classify_header v []
  have hacc := acceptHeader_of_header (d := { shiftWindow 0x80 d with buf := d.buf ++ [0x80] }) hwhole
  exact receiveByte_accept (by simp [hfront, headerFront]) hlast (by rw [hwhole]; exact slidBytes_start _)
    (.inl ⟨hsel, hacc.symm⟩) rfl

/-- A HeaderBlock starts H (44_decoder_resync.md R154). -/
theorem receiveBytes_hdrBytes (v : Byte) {d : Decoder} (hidle : d.started = false) (hempty : d.buf = [])
    (hs : NoSentinel d (hdrBytes v)) :
    ∃ w n, receiveBytes (hdrBytes v) d = { d with
      started := true, raw := d.raw ++ hdrBytes v, hev := d.hev ++ [.hdr v], win := w, winN := n } := by
  rw [hdrBytes_eq_headerFront] at hs
  obtain ⟨w, n, hfront⟩ := receiveBytes_headerFront v hempty (noSentinel_left hs)
  have hbyte := receiveByte_completes_header (by rw [hfront]; exact hidle) (by rw [hfront]) (not_sentinelSeen_after hs)
  have hbytes := (receiveBytes_append (headerFront v) [0x80] d).trans hbyte
  rw [← hdrBytes_eq_headerFront, hfront, ← hempty] at hbytes
  exact ⟨_, _, hbytes⟩

/-! ## An `END` that nothing follows yet -/

/-- The last two bytes received are `END`. -/
def AfterEnd (d : Decoder) : Prop := 2 ≤ d.winN.toNat ∧ d.win.w2 = 0x00 ∧ d.win.w3 = 0x80

theorem afterEnd_receiveBytes {bytes : List Byte} {d : Decoder} (hend : Config.endMarker <:+ bytes)
    (hs : NoSentinel d bytes) : AfterEnd (receiveBytes bytes d) := by
  have hcount := (receiveBytes_window bytes d hs).2
  have htwo : 2 ≤ bytes.length := hend.length_le
  obtain ⟨before, rfl⟩ := hend
  refine ⟨by omega, ?_⟩
  rw [receiveBytes_append]
  simp only [Config.endMarker, receiveBytes, receiveByte_win, and_self]

/-- A byte `00` completes no sentinel, and alone in the buffer selects no part. -/
theorem receiveByte_zero_of_empty {d : Decoder} (hempty : d.buf = []) :
    receiveByte 0x00 d = { shiftWindow 0x00 d with buf := [0x00] } := by
  have hno : ¬ sentinelSeen (shiftWindow 0x00 d) = true := fun h =>
    absurd (sentinelSeen_shiftWindow.mp h).2.2.2.2 (by decide)
  have h := receiveByte_quiet (b := 0x00) (by simp [hempty]) hno (by rw [hempty]; exact ⟨rfl, .inl rfl⟩)
  rwa [hempty] at h

/-- Two `END`s in a row are the sentinel, with the second one as residue (44_decoder_resync.md R155). -/
theorem receiveBytes_end_of_afterEnd {d : Decoder} (hempty : d.buf = []) (h : AfterEnd d) :
    receiveBytes Config.endMarker d = { d with
      started := false, win := ⟨0x00, 0x80, 0x00, 0x80⟩, winN := 0, raw := d.raw ++ [0x00, 0x80],
      hev := d.hev ++ [.eos 2] } := by
  obtain ⟨hcount, hw2, hw3⟩ := h
  have hwindow : sentinelSeen (shiftWindow 0x80 (receiveByte 0x00 d)) = true := by
    rw [sentinelSeen_shiftWindow, receiveByte_zero_of_empty hempty]
    refine ⟨?_, hw2, hw3, rfl, rfl⟩
    change 3 ≤ (BitVec.ofNat 3 (min (d.winN.toNat + 1) 4)).toNat
    rw [BitVec.toNat_ofNat, Nat.mod_eq_of_lt (by omega)]
    omega
  change receiveByte 0x80 (receiveByte 0x00 d) = _
  rw [receiveByte_of_sentinel (by rwa [sentinelSeen_appendByte]), receiveByte_zero_of_empty hempty,
    appendByte_of_room (by simp)]
  simp [endSession, shiftWindow, raiseH, hempty, hw2, hw3]

/-- An `END` at an H with nothing in the buffer and the window: `00` is slid out and `80` stays (44_decoder_resync.md
R155). -/
theorem receiveBytes_end_of_empty {d : Decoder} (hempty : d.buf = []) (hwindow : d.winN = 0) :
    receiveBytes Config.endMarker d = { d with
      buf := [0x80], win := ⟨d.win.w2, d.win.w3, 0x00, 0x80⟩, winN := 2, hev := d.hev ++ [.slide 0x00] } := by
  have hno : ¬ sentinelSeen (shiftWindow 0x80 (receiveByte 0x00 d)) = true := by
    rw [sentinelSeen_shiftWindow, receiveByte_zero_of_empty hempty]
    rintro ⟨hcount, -⟩
    simp [hwindow] at hcount
  change receiveByte 0x80 (receiveByte 0x00 d) = _
  rw [receiveByte_of_not (by rwa [sentinelSeen_appendByte]), receiveByte_zero_of_empty hempty,
    appendByte_of_room (by simp)]
  simp [resyncLoop, slidePart, slidBytes, classify, shiftWindow, hwindow, Config.startMarker]

/-- `EOS` after an `END`: its first half completes the sentinel, its second half finds nothing (44_decoder_resync.md
R155). -/
theorem receiveBytes_eos_of_afterEnd {d : Decoder} (hempty : d.buf = []) (h : AfterEnd d) :
    receiveBytes eosBytes d = { d with
      buf := [0x80], started := false, win := ⟨0x00, 0x80, 0x00, 0x80⟩, winN := 2, raw := d.raw ++ [0x00, 0x80],
      hev := d.hev ++ [.eos 2, .slide 0x00] } := by
  have hfirst := receiveBytes_end_of_afterEnd hempty h
  have hsecond := receiveBytes_end_of_empty (d := receiveBytes Config.endMarker d) (by rw [hfirst]; exact hempty)
    (by rw [hfirst])
  rw [eosBytes, receiveBytes_append, hsecond, hfirst]
  simp

/-! ## A whole session -/

/-- SampleBlocks one after another are decoded to their Samples, in order. -/
theorem receiveBytes_blocks {blocks : List (List Sample)} {d : Decoder}
    (hblocks : ∀ b ∈ blocks, 1 ≤ b.length ∧ b.length ≤ 255) (hstarted : d.started = true) (hempty : d.buf = [])
    (hs : NoSentinel d (blocks.flatMap smpBytes)) :
    ∃ w n, receiveBytes (blocks.flatMap smpBytes) d = { d with
      raw := d.raw ++ blocks.flatMap smpBytes, smp := d.smp ++ blocks.flatten,
      hev := d.hev ++ blocks.map (fun b => .smp (BitVec.ofNat 8 b.length)), win := w, winN := n } := by
  induction blocks generalizing d with
  | nil => exact ⟨d.win, d.winN, by simp [receiveBytes]⟩
  | cons samples blocks ih =>
    obtain ⟨⟨hone, hmax⟩, hmore⟩ := List.forall_mem_cons.mp hblocks
    rw [List.flatMap_cons] at hs
    have hwindow := (receiveBytes_window _ d (noSentinel_left hs)).1
    have hrest := noSentinel_after hs hwindow
    obtain ⟨w, n, hfirst⟩ := receiveBytes_smpBytes hone hmax hstarted hempty (noSentinel_left hs)
    obtain ⟨w', n', h⟩ := ih hmore (by rw [hfirst]; exact hstarted) (by rw [hfirst]; exact hempty) hrest
    refine ⟨w', n', ?_⟩
    rw [List.flatMap_cons, receiveBytes_append, h, hfirst]
    simp

/-- The bytes of a session up to its sentinel. -/
def sessionBytes (v : Byte) (blocks : List (List Sample)) : List Byte := hdrBytes v ++ blocks.flatMap smpBytes

theorem endMarker_suffix_blocks {front : List Byte} (hfront : Config.endMarker <:+ front)
    (blocks : List (List Sample)) :
    Config.endMarker <:+ front ++ blocks.flatMap smpBytes := by
  induction blocks generalizing front with
  | nil => simpa using hfront
  | cons samples blocks ih =>
    rw [List.flatMap_cons, ← List.append_assoc]
    exact ih ((List.suffix_append ..).trans (List.suffix_append ..))

/-- A clean session up to its sentinel (44_decoder_resync.md R154). -/
theorem receiveBytes_sessionBytes {v : Byte} {blocks : List (List Sample)} {d : Decoder}
    (hblocks : ∀ b ∈ blocks, 1 ≤ b.length ∧ b.length ≤ 255) (hidle : d.started = false) (hempty : d.buf = [])
    (hs : NoSentinel d (sessionBytes v blocks)) :
    ∃ w n, receiveBytes (sessionBytes v blocks) d = { d with
      started := true, raw := d.raw ++ sessionBytes v blocks, smp := d.smp ++ blocks.flatten,
      hev := d.hev ++ [.hdr v] ++ blocks.map (fun b => .smp (BitVec.ofNat 8 b.length)), win := w, winN := n } := by
  have hwindow := (receiveBytes_window _ d (noSentinel_left hs)).1
  have hrest := noSentinel_after hs hwindow
  obtain ⟨w, n, hhdr⟩ := receiveBytes_hdrBytes v hidle hempty (noSentinel_left hs)
  obtain ⟨w', n', h⟩ := receiveBytes_blocks hblocks (by rw [hhdr]) (by rw [hhdr]; exact hempty) hrest
  refine ⟨w', n', ?_⟩
  rw [sessionBytes, receiveBytes_append, h, hhdr]
  simp

theorem afterEnd_sessionBytes {v : Byte} {blocks : List (List Sample)} {d : Decoder}
    (hs : NoSentinel d (sessionBytes v blocks)) : AfterEnd (receiveBytes (sessionBytes v blocks) d) :=
  afterEnd_receiveBytes (endMarker_suffix_blocks (front := hdrBytes v) (List.suffix_append ..) blocks) hs

/-! ## The statements about units -/

theorem decoderOf_buf_of_len_zero {s : State} (h : s.len = 0) : (decoderOf s).buf = [] :=
  List.length_eq_zero_iff.mp (by rw [decoderOf_buf_length, h]; rfl)

theorem len_le_of_len_zero {s : State} (h : s.len = 0) : s.len.toNat ≤ 600 := by simp [h]

/-- Settles O55: the block alone. -/
theorem sampleBlockRoundTrip : Obligations.SampleBlockRoundTrip := by
  unfold Obligations.SampleBlockRoundTrip
  intro samples s hone hmax hstarted hzero hs
  have hempty := decoderOf_buf_of_len_zero hzero
  obtain ⟨w, n, h⟩ := receiveBytes_smpBytes hone hmax hstarted hempty hs
  obtain ⟨hexec, hframe⟩ := onDecoder_reaches (len_le_of_len_zero hzero) h
  exact ⟨_, hexec, hframe, rfl, rfl, rfl, withDecoder_len_of_length (congrArg List.length hempty), hstarted⟩

/-- Settles O56: the header alone. -/
theorem headerRoundTrip : Obligations.HeaderRoundTrip := by
  unfold Obligations.HeaderRoundTrip
  intro v s hidle hzero hs
  have hempty := decoderOf_buf_of_len_zero hzero
  obtain ⟨w, n, h⟩ := receiveBytes_hdrBytes v hidle hempty hs
  obtain ⟨hexec, hframe⟩ := onDecoder_reaches (len_le_of_len_zero hzero) h
  exact ⟨_, hexec, hframe, rfl, rfl, rfl, withDecoder_len_of_length (congrArg List.length hempty), rfl⟩

/-- Settles O57: the first `END` of `EOS` completes the sentinel, the second finds nothing. -/
theorem sentinelAfterAnEndLeavesOneByte : Obligations.SentinelAfterAnEndLeavesOneByte := by
  unfold Obligations.SentinelAfterAnEndLeavesOneByte
  intro s hzero hcount hw2 hw3
  have hempty := decoderOf_buf_of_len_zero hzero
  have heos := receiveBytes_eos_of_afterEnd hempty ⟨hcount, hw2, hw3⟩
  obtain ⟨hexec, hframe⟩ := onDecoder_reaches (len_le_of_len_zero hzero) heos
  exact ⟨_, hexec, hframe, rfl, rfl, rfl, rfl, rfl, rfl, rfl⟩

/-- The front of a block whose last Sample is `0x8000` ends `00 80 00` (44_decoder_resync.md R156). -/
theorem blockFront_of_zero_rising (samples : List Sample) :
    ∃ before, blockFront (samples ++ [0x8000]) = before ++ [0x00, 0x80, 0x00] := by
  refine ⟨[0x00, 0x00, 0x01, BitVec.ofNat 8 (samples ++ [0x8000]).length] ++ samples.flatMap sampleBytes, ?_⟩
  simp [blockFront, sampleBytes]

/-- Settles O58: the whole front has piled up when its last byte completes the sentinel. -/
theorem zeroRisingLastSampleIsAFalseSentinel : Obligations.ZeroRisingLastSampleIsAFalseSentinel := by
  unfold Obligations.ZeroRisingLastSampleIsAFalseSentinel
  intro samples s hmax hstarted hzero hs
  have hempty := decoderOf_buf_of_len_zero hzero
  have hlength : (samples ++ [0x8000]).length = samples.length + 1 := List.length_append
  rw [smpBytes_eq_blockFront, List.dropLast_concat] at hs
  obtain ⟨w, n, hfront⟩ := receiveBytes_blockFront (by omega) (by omega) hstarted hempty hs
  have hcount := (receiveBytes_window _ _ hs).2
  have hseen :
      sentinelSeen (shiftWindow 0x80 (receiveBytes (blockFront (samples ++ [0x8000])) (decoderOf s))) = true := by
    rw [sentinelSeen_shiftWindow]
    rw [length_blockFront] at hcount
    refine ⟨by omega, ?_⟩
    obtain ⟨before, hbefore⟩ := blockFront_of_zero_rising samples
    rw [hbefore, receiveBytes_append]
    simp only [receiveBytes, receiveByte_win, and_self]
  rw [hfront] at hseen
  have hroom : (blockFront (samples ++ [0x8000])).length ≠ 600 := by
    rw [length_blockFront]
    omega
  have hblock := receiveBytes_append (blockFront (samples ++ [0x8000])) [0x80] (decoderOf s)
  rw [← smpBytes_eq_blockFront, hfront, receiveBytes, receiveByte_of_sentinel (by rwa [sentinelSeen_appendByte]),
    appendByte_of_room hroom] at hblock
  obtain ⟨hexec, hframe⟩ := onDecoder_reaches (len_le_of_len_zero hzero) hblock
  refine ⟨_, hexec, hframe, rfl, congrArg (s.raw ++ ·) (smpBytes_eq_blockFront _).symm, ?_, rfl, rfl⟩
  refine congrArg (fun k => s.hev ++ [HEvent.eos k]) ?_
  change (blockFront (samples ++ [0x8000]) ++ [0x80]).length = _
  rw [← smpBytes_eq_blockFront, length_smpBytes, hlength]
  omega

/-! ## The statements about sessions -/

/-- A unit delivered to an H with the record `d`. -/
theorem onDecoder_withDecoder (s : State) {d : Decoder} (f : Decoder → Decoder) (h : d.buf.length ≤ 515) :
    onDecoder (withDecoder s d) f = .next (withDecoder s (f d)) := by
  have hlen : (withDecoder s d).len.toNat ≤ 600 := by
    rw [withDecoder_len_toNat s (by omega)]
    omega
  rw [onDecoder_of_le f hlen, decoderOf_withDecoder s (by omega), withDecoder_withDecoder]

/-- SampleBlocks as operations are their bytes, block after block (30_encoding.md R67; log 3). -/
theorem execAll_smp_withDecoder (blocks : List (List Sample)) (s : State) {d : Decoder} (h : d.buf.length ≤ 515) :
    execAll (blocks.map .smp) (withDecoder s d) = .next (withDecoder s (receiveBytes (blocks.flatMap smpBytes) d)) := by
  induction blocks generalizing d with
  | nil => rfl
  | cons samples blocks ih =>
    have hsmp : exec (.smp samples) (withDecoder s d) = .next (withDecoder s (receiveBytes (smpBytes samples) d)) :=
      onDecoder_withDecoder s _ h
    rw [List.map_cons, execAll_cons_of_next _ hsmp, ih (receiveBytes_length_le _ _ h), List.flatMap_cons,
      receiveBytes_append]

/-- The units of a session as operations are its bytes. -/
theorem execAll_session (v : Byte) (blocks : List (List Sample)) {s : State} (h : s.len.toNat ≤ 515) :
    execAll ([.hdr v] ++ blocks.map .smp ++ [.eos]) s =
      .next (withDecoder s (receiveBytes (sessionBytes v blocks ++ eosBytes) (decoderOf s))) := by
  have hd : (decoderOf s).buf.length ≤ 515 := by rwa [decoderOf_buf_length]
  have hhdr : exec (.hdr v) s = .next (withDecoder s (receiveBytes (hdrBytes v) (decoderOf s))) :=
    onDecoder_of_le _ (h.trans (by decide))
  have hsmp := execAll_smp_withDecoder blocks s (receiveBytes_length_le (hdrBytes v) _ hd)
  rw [← receiveBytes_append] at hsmp
  have heos : exec .eos (withDecoder s (receiveBytes (sessionBytes v blocks) (decoderOf s))) = _ :=
    onDecoder_withDecoder s (receiveBytes eosBytes) (receiveBytes_length_le _ _ hd)
  rw [List.append_assoc, List.singleton_append, execAll_cons_of_next _ hhdr, execAll_append _ _ hsmp,
    ← sessionBytes, execAll_cons_of_next [] heos, receiveBytes_append]
  rfl

/-- Settles O59: the session as bytes, with an `EOS` that follows an `END`. -/
theorem cleanSessionIsDecoded : Obligations.CleanSessionIsDecoded := by
  unfold Obligations.CleanSessionIsDecoded
  intro v blocks s hblocks hidle hzero hs
  have hempty := decoderOf_buf_of_len_zero hzero
  obtain ⟨w, n, hsession⟩ := receiveBytes_sessionBytes hblocks hidle hempty hs
  have heos := receiveBytes_eos_of_afterEnd (by rw [hsession]; exact hempty) (afterEnd_sessionBytes hs)
  have hexec := execAll_session v blocks (s := s) (by simp [hzero])
  rw [receiveBytes_append, heos, hsession] at hexec
  refine ⟨_, hexec, onlyH_withDecoder s _, rfl, ?_, rfl, rfl, rfl⟩
  simp [sessionBytes]

/-- Settles O60: the raw capture is the session up to the `END` that ended it. -/
theorem rawCaptureReproducesTheSamples : Obligations.RawCaptureReproducesTheSamples := by
  unfold Obligations.RawCaptureReproducesTheSamples
  intro v blocks s hblocks hidle hzero hs
  have hempty := decoderOf_buf_of_len_zero hzero
  obtain ⟨w, n, hsession⟩ := receiveBytes_sessionBytes hblocks hidle hempty hs
  have hend := receiveBytes_end_of_afterEnd (by rw [hsession]; exact hempty) (afterEnd_sessionBytes hs)
  have hexec : execAll ((sessionBytes v blocks ++ Config.endMarker).map .rx) s =
      .next (withDecoder s (receiveBytes (sessionBytes v blocks ++ Config.endMarker) (decoderOf s))) :=
    execAll_rx 0x00 _ s (len_le_of_len_zero hzero)
  rw [receiveBytes_append, hend, hsession] at hexec
  exact ⟨_, hexec, rfl, List.append_assoc .., rfl, withDecoder_len_of_length (congrArg List.length hempty), rfl⟩

end Sys2Proof.Machine

/-! Proof of the statement about what the operations read (60_exceptions.md R177): an operation of P, Q, S or H, run in two
states that agree on what its agent reads, completes in both and leaves its agent's registers alike. -/

namespace Sys2Proof.Machine

/-! ## Two outcomes alike -/

/-- Where the first outcome is a next state, the second is one too, and `R` holds between the two. -/
def NextAlike (R : State → State → Prop) (o1 o2 : Host.Outcome State Fault Refusal) : Prop :=
  ∀ t1, o1 = .next t1 → ∃ t2, o2 = .next t2 ∧ R t1 t2

theorem nextAlike_next {R : State → State → Prop} {t1 t2 : State} (h : R t1 t2) : NextAlike R (.next t1) (.next t2) := by
  rintro t ⟨⟩
  exact ⟨t2, rfl, h⟩

theorem nextAlike_whenEnabled {R : State → State → Prop} {g1 g2 : Bool} {t1 t2 : State} (hg : g2 = g1) (h : R t1 t2) :
    NextAlike R (whenEnabled g1 t1) (whenEnabled g2 t2) := by
  intro t ht
  obtain ⟨hguard, rfl⟩ := whenEnabled_next.mp ht
  exact ⟨t2, whenEnabled_next.mpr ⟨hg.trans hguard, rfl⟩, h⟩

/-! ## What P reads -/

theorem fullW_of_sameP {s1 s2 : State} (h : SameP s1 s2) (hrd : s2.rdW = s1.rdW) : fullW s2 = fullW s1 := by
  obtain ⟨-, -, -, hhead, hdrop, -⟩ := h
  rw [fullW, fullW, tailW, tailW, hhead, hdrop, hrd]

theorem sameP_pushSample (v : Sample) {s1 s2 : State} (h : SameP s1 s2) (hrd : s2.rdW = s1.rdW) :
    SameP (pushSample v s1) (pushSample v s2) := by
  have hfull := fullW_of_sameP h hrd
  obtain ⟨hts, hsig, hprev, hhead, hdrop, hring, hpev⟩ := h
  simp [SameP, hfull, hts, hsig, hprev, hhead, hdrop, hring, hpev]

/-- An edge is a push after `prev_ts` and `pev` were written alike (41_edge_encoder.md R95). -/
theorem sameP_encodeEdge (dir : Bool) (time : Stamp) {s1 s2 : State} (h : SameP s1 s2) (hrd : s2.rdW = s1.rdW) :
    SameP (encodeEdge dir time s1) (encodeEdge dir time s2) := by
  obtain ⟨hts, hsig, hprev, hhead, hdrop, hring, hpev⟩ := h
  rw [encodeEdge, encodeEdge, hprev]
  refine sameP_pushSample _ ⟨hts, hsig, rfl, hhead, hdrop, hring, ?_⟩ hrd
  simp only [hpev]

/-- Both inputs see an edge or neither does. -/
theorem sameP_senseLevel (level : Bool) {s1 s2 : State} (h : SameP s1 s2) (hrd : s2.rdW = s1.rdW) :
    SameP (senseLevel level s1) (senseLevel level s2) := by
  have ⟨hts, hsig, _⟩ := h
  by_cases hlevel : level = s1.sigQ
  · have h2 : senseLevel level s2 = s2 := by rw [hlevel, ← hsig, senseLevel_same]
    rw [h2, hlevel, senseLevel_same]
    exact h
  · obtain ⟨ets, -, erest⟩ := sameP_encodeEdge level s1.ts h hrd
    rw [senseLevel_of_ne hlevel, senseLevel_of_ne (hsig ▸ hlevel), hts]
    exact ⟨ets, rfl, erest⟩

/-- P reads its own registers and `rd_w`. -/
theorem exec_p_alike {i : Instr} {s1 s2 : State} (hi : agentOf i = .p) (h : SameP s1 s2) (hrd : s2.rdW = s1.rdW) :
    NextAlike SameP (exec i s1) (exec i s2) := by
  have ⟨hts, hsig, hrest⟩ := h
  cases i <;> cases hi
  case tick => exact nextAlike_next ⟨congrArg (· + 1) hts, hsig, hrest⟩
  case sense level => exact nextAlike_next (sameP_senseLevel level h hrd)
  case edgeR => exact nextAlike_whenEnabled (congrArg (!·) hsig) (sameP_senseLevel true h hrd)
  case edgeF => exact nextAlike_whenEnabled hsig (sameP_senseLevel false h hrd)
  case enc dir time => exact nextAlike_next (sameP_encodeEdge dir time h hrd)
  case push v => exact nextAlike_next (sameP_pushSample v h hrd)

/-! ## What Q reads -/

/-- Two states agree on Q's registers and on its three shadows. -/
structure AlikeForQ (s1 s2 : State) : Prop where
  own : SameQ s1 s2
  headR : s2.headR = s1.headR
  dropR : s2.dropR = s1.dropR
  tsR : s2.tsR = s1.tsR

/-- Two states agree on what a `TAKE` reads of P's: `RING`, and what says which slots are occupied (42_ring_buffer.md R111). -/
abbrev AlikeRing (s1 s2 : State) : Prop := s2.ring = s1.ring ∧ s2.head = s1.head ∧ s2.drop = s1.drop

theorem isActive_of_sameQ {s1 s2 : State} (h : SameQ s1 s2) : isActive s2 = isActive s1 := by
  obtain ⟨-, hsess, -⟩ := h
  rw [isActive, isActive, hsess]

theorem batchFull_of_sameQ {s1 s2 : State} (h : SameQ s1 s2) : batchFull s2 = batchFull s1 := by
  obtain ⟨-, -, hcnt, -⟩ := h
  rw [batchFull, batchFull, hcnt]

theorem batch_of_sameQ {s1 s2 : State} (h : SameQ s1 s2) : batch s2 = batch s1 := by
  obtain ⟨-, -, hcnt, -, hblk, -⟩ := h
  have hat : blkAt s2 = blkAt s1 := funext fun i => by rw [blkAt, blkAt, hblk]
  rw [batch, batch, hat, hcnt]

theorem AlikeForQ.tailR_eq {s1 s2 : State} (h : AlikeForQ s1 s2) : tailR s2 = tailR s1 := by
  obtain ⟨hrd, -⟩ := h.own
  rw [tailR, tailR, hrd, h.dropR]

theorem AlikeForQ.nonemptyR_eq {s1 s2 : State} (h : AlikeForQ s1 s2) : nonemptyR s2 = nonemptyR s1 := by
  rw [nonemptyR, nonemptyR, h.tailR_eq, h.headR]

theorem AlikeForQ.expired_eq {s1 s2 : State} (h : AlikeForQ s1 s2) : expired s2 = expired s1 := by
  obtain ⟨-, -, -, hlast, -⟩ := h.own
  rw [expired, expired, elapsed, elapsed, h.tsR, hlast]

theorem promisedSample_of_alike {s1 s2 : State} (slot : Ptr) (hrd : s2.rd = s1.rd) (hring : AlikeRing s1 s2) :
    promisedSample s2 slot = promisedSample s1 slot := by
  obtain ⟨hring, hhead, hdrop⟩ := hring
  have htail : trueTail s2 = trueTail s1 := by rw [trueTail, trueTail, hrd, hdrop]
  have hocc : occ s2 = occ s1 := by rw [occ, occ, htail, hhead]
  rw [promisedSample, promisedSample, occupied, occupied, htail, hocc, hring]

/-- The same Sample is taken, and the same number of free values is used. -/
theorem sameQ_takeSample {s1 s2 : State} (h : AlikeForQ s1 s2) (hring : AlikeRing s1 s2) :
    SameQ (takeSample s1) (takeSample s2) := by
  have htail := h.tailR_eq
  obtain ⟨hrd, hsess, hcnt, hlast, hblk, htx, -, hdraws⟩ := h.own
  have hpromised := promisedSample_of_alike (tailR s1) hrd hring
  refine ⟨congrArg (· + 1) hrd, hsess, hcnt, hlast, hblk, htx, ?taken, ?draws⟩
  case taken => rw [takeSample_taken, takeSample_taken, htail, hpromised, hdraws]
  case draws => rw [takeSample_draws, takeSample_draws, htail, hpromised, hdraws]

/-- `BLK` gets the same Sample at the same index (43_session_framer.md R126). -/
theorem sameQ_popSample {s1 s2 : State} (h : AlikeForQ s1 s2) (hring : AlikeRing s1 s2) :
    SameQ (popSample s1) (popSample s2) := by
  obtain ⟨-, -, hcnt, -, hblk, -⟩ := h.own
  obtain ⟨hrd, hsess, -, -, -, htx, htaken, hdraws⟩ := sameQ_takeSample h hring
  refine ⟨hrd, hsess, congrArg (· + 1) hcnt, h.tsR, ?blk, htx, htaken, hdraws⟩
  case blk => simp only [popSample, hcnt, hblk, htaken]

/-- Q reads its own registers and its shadows, and for a `TAKE` the ring. -/
theorem exec_q_alike {i : Instr} {s1 s2 : State} (hi : agentOf i = .q) (h : AlikeForQ s1 s2)
    (hring : i = .take ∨ i = .qPop → AlikeRing s1 s2) : NextAlike SameQ (exec i s1) (exec i s2) := by
  have hactive := isActive_of_sameQ h.own
  have hfull := batchFull_of_sameQ h.own
  have hnonempty := h.nonemptyR_eq
  have hexpired := h.expired_eq
  have hbatch := batch_of_sameQ h.own
  obtain ⟨hrd, hsess, hcnt, hlast, hblk, htx, htaken, hdraws⟩ := h.own
  cases i <;> cases hi
  case take => exact nextAlike_whenEnabled hnonempty (sameQ_takeSample h (hring (.inl rfl)))
  case qPop => exact nextAlike_whenEnabled (by rw [hactive, hnonempty, hfull]) (sameQ_popSample h (hring (.inr rfl)))
  case qFlush =>
    refine nextAlike_whenEnabled (by rw [hactive, hfull]) ⟨hrd, hsess, rfl, hlast, hblk, ?_, htaken, hdraws⟩
    simp only [htx, hbatch]
  case qStart =>
    refine nextAlike_whenEnabled (by rw [hactive, hnonempty]) ⟨hrd, rfl, rfl, h.tsR, hblk, ?_, htaken, hdraws⟩
    simp only [htx]
  case qTimeout =>
    refine nextAlike_whenEnabled (by rw [hactive, hnonempty, hexpired, hfull])
      ⟨hrd, rfl, rfl, hlast, hblk, ?_, htaken, hdraws⟩
    simp only [htx, hcnt, hbatch]
  case qIdle => exact nextAlike_whenEnabled (by rw [hactive, hnonempty, hexpired, hfull]) h.own

/-! ## What H reads -/

/-- H sees the same: its registers, its outputs and `BUF[0 .. len-1]`. -/
abbrev AlikeForH (s1 s2 : State) : Prop := decoderOf s1 = decoderOf s2

theorem AlikeForH.len_eq {s1 s2 : State} (h : AlikeForH s1 s2) : s1.len.toNat = s2.len.toNat := by
  rw [← decoderOf_buf_length, ← decoderOf_buf_length, h]

theorem AlikeForH.started_eq {s1 s2 : State} (h : AlikeForH s1 s2) : s1.started = s2.started :=
  congrArg Decoder.started h

/-- What H sees after a write of its part does not depend on the state it is written into. -/
theorem alikeForH_withDecoder (s1 s2 : State) (d : Decoder) : AlikeForH (withDecoder s1 d) (withDecoder s2 d) := rfl

theorem onDecoder_alike (f : Decoder → Decoder) {s1 s2 : State} (h : AlikeForH s1 s2) :
    NextAlike AlikeForH (onDecoder s1 f) (onDecoder s2 f) := by
  intro t ht
  obtain ⟨hlen, rfl⟩ := onDecoder_next.mp ht
  refine ⟨_, onDecoder_of_le f (h.len_eq ▸ hlen), ?_⟩
  rw [h]
  exact alikeForH_withDecoder s1 s2 _

theorem onCandidate_alike (p : Part) (f : Decoder → Decoder) {s1 s2 : State} (h : AlikeForH s1 s2) :
    NextAlike AlikeForH (onCandidate s1 p f) (onCandidate s2 p f) := by
  by_cases hlen : s1.len.toNat ≤ 600
  · rw [onCandidate_of_le p f hlen, onCandidate_of_le p f (h.len_eq ▸ hlen), h, h.started_eq]
    exact nextAlike_whenEnabled rfl (alikeForH_withDecoder s1 s2 _)
  · rw [onCandidate_of_gt p f (Nat.lt_of_not_le hlen)]
    nofun

theorem execRxWait_alike {s1 s2 : State} (h : AlikeForH s1 s2) :
    NextAlike AlikeForH (execRxWait s1) (execRxWait s2) := by
  unfold execRxWait
  rw [h.len_eq, h.started_eq, h]
  split
  · exact nextAlike_whenEnabled rfl h
  · nofun

/-- H reads its own registers and buffer, and the byte. -/
theorem exec_h_alike {i : Instr} {s1 s2 : State} (hi : agentOf i = .h) (h : AlikeForH s1 s2) :
    NextAlike AlikeForH (exec i s1) (exec i s2) := by
  cases i <;> cases hi
  case rxHdr => exact onCandidate_alike .hdr acceptHeader h
  case rxSmp => exact onCandidate_alike .smp acceptSamples h
  case rxFail => exact onCandidate_alike .fail failCandidate h
  case rxWait => exact execRxWait_alike h
  all_goals exact onDecoder_alike _ h

/-! ## The statement -/

/-- Settles O53, agent by agent. -/
theorem operationsDependOnWhatTheirAgentReads : Obligations.OperationsDependOnWhatTheirAgentReads := by
  unfold Obligations.OperationsDependOnWhatTheirAgentReads
  intro i s1 s2 t1 ht
  refine ⟨?p, ?q, ?h, ?syncHead, ?syncDrop, ?syncTs, ?syncRd⟩
  case p => exact fun hi hown hrd => exec_p_alike hi hown hrd t1 ht
  case q => exact fun hi hown hhead hdrop hts hring => exec_q_alike hi ⟨hown, hhead, hdrop, hts⟩ hring t1 ht
  case h => exact fun hi hown => exec_h_alike hi hown t1 ht
  -- S: the shadow is put on the same path, from the same place, by the same amount (42_ring_buffer.md R112).
  all_goals
    rintro n rfl hsrc hsh
    cases ht
    exact ⟨_, rfl, congrArg₂ (syncPath · · n) hsrc hsh⟩

end Sys2Proof.Machine

/-! Proofs of the statements about reset: what `RESET` leaves of the state it starts from (70_reset_and_hazards.md R181),
and that the invariants hold right after reset (R183). -/

namespace Sys2Proof.Machine

/-! ## The operation `RESET` -/

/-- `RESET` has no guard; it keeps `win` and the fields of the model's own (log 17), and nothing else. -/
theorem exec_reset (s : State) :
    exec .reset s =
      .next { State.reset with win := s.win, taken := s.taken, draws := s.draws, inputs := s.inputs, envN := s.envN } :=
  rfl

/-- Settles O2: every field that `RESET` writes is the one of `State.reset`, whose values O1 lists; `win` is the old one. -/
theorem resetOperationResetsEveryAgent : Obligations.ResetOperationResetsEveryAgent := by
  unfold Obligations.ResetOperationResetsEveryAgent
  intro s
  obtain ⟨ts, sigQ, prevTs, head, drop, rdW, rd, headR, dropR, tsR, sess, cnt, lastAct, tx, len, started, winN, traces⟩ :=
    resetStateHasTheValuesOfTheSpec
  exact ⟨_, exec_reset s, ts, sigQ, prevTs, head, drop, rdW, rd, headR, dropR, tsR, sess, cnt, lastAct, tx, len, started,
    winN, rfl, traces⟩

/-! ## The invariants after reset -/

/-- An array of which no element is specified is in canonical form. -/
theorem cellsWf_nil {α : Type} (size : Nat) : CellsWf size ([] : List (Nat × α)) :=
  ⟨.nil, fun _ h => (nomatch h)⟩

/-- After reset nothing is listed in an array (log 8), and no rule can read one: `cnt` and `len` are 0. -/
theorem inv_reset : Inv State.reset := by
  refine ⟨⟨cellsWf_nil _, cellsWf_nil _, cellsWf_nil _⟩, ?len, ?winN, fun _ => rfl, ?blk, ?buf⟩
  case len => exact Nat.zero_le 515
  case winN => exact Nat.zero_le 4
  case blk => exact fun i hi => absurd hi (Nat.not_lt_zero i)
  case buf => exact fun i hi => absurd hi (Nat.not_lt_zero i)

/-- Directions alternate vacuously in a ring without a specified Sample (40_timestamp_edge.md R91). -/
theorem directionsAlternate_of_ring_nil {s : State} (h : s.ring = []) : DirectionsAlternate s := by
  unfold DirectionsAlternate
  simp only [h, readCell, reduceCtorEq, false_implies, implies_true, and_self]

/-- Settles O4: nothing has been sent, nothing is listed in an array and every count is 0. -/
theorem invariantsHoldAtReset : Obligations.InvariantsHoldAtReset := by
  unfold Obligations.InvariantsHoldAtReset
  exact ⟨inv_reset, .empty, directionsAlternate_of_ring_nil rfl⟩

end Sys2Proof.Machine

/-! Proof of the statement that every step keeps the invariant: what each agent's operations do to its own array, and that
the operations of H which a step issues end with at most 515 bytes (44_decoder_resync.md R153). -/

namespace Sys2Proof.Machine

/-! ## The invariant, agent by agent -/

/-- The part of the invariant that speaks of Q's registers and of `BLK`. -/
structure BatchInv (s : State) : Prop where
  wf : CellsWf Config.batchMax s.blk
  idle : s.sess = .idle → s.cnt = 0
  written : ∀ i < s.cnt.toNat, (readCell s.blk i).isSome

/-- The part of the invariant that speaks of H's registers and of `BUF`. -/
structure BufferInv (s : State) : Prop where
  wf : CellsWf Config.decBuf s.buf
  len : s.len.toNat ≤ 515
  winN : s.winN.toNat ≤ 4
  written : ∀ i < s.len.toNat, (readCell s.buf i).isSome

theorem inv_iff {s : State} : Inv s ↔ CellsWf Config.ringSlots s.ring ∧ BatchInv s ∧ BufferInv s := by
  constructor
  · rintro ⟨⟨hring, hblk, hbuf⟩, hlen, hwinN, hidle, hbatch, hheld⟩
    exact ⟨hring, ⟨hblk, hidle, hbatch⟩, ⟨hbuf, hlen, hwinN, hheld⟩⟩
  · rintro ⟨hring, ⟨hblk, hidle, hbatch⟩, ⟨hbuf, hlen, hwinN, hheld⟩⟩
    exact ⟨⟨hring, hblk, hbuf⟩, hlen, hwinN, hidle, hbatch, hheld⟩

theorem BatchInv.of_sameQ {s t : State} (hs : BatchInv s) (h : SameQ s t) : BatchInv t := by
  obtain ⟨-, hsess, hcnt, -, hblk, -⟩ := h
  exact ⟨hblk ▸ hs.wf, by rw [hsess, hcnt]; exact hs.idle, by rw [hcnt, hblk]; exact hs.written⟩

theorem BufferInv.of_sameH {s t : State} (hs : BufferInv s) (h : SameH s t) : BufferInv t := by
  obtain ⟨hlen, -, -, hwinN, hbuf, -⟩ := h
  exact ⟨hbuf ▸ hs.wf, hlen ▸ hs.len, hwinN ▸ hs.winN, by rw [hlen, hbuf]; exact hs.written⟩

/-! ## `RING` -/

/-- `head` has 10 bits, so a push writes a slot that exists (20_memory.md R47). -/
theorem cellsWf_writeCell_head {s : State} (hs : CellsWf Config.ringSlots s.ring) (v : Sample) :
    CellsWf Config.ringSlots (writeCell s.ring s.head.toNat v) :=
  cellsWf_writeCell v hs s.head.isLt

theorem cellsWf_ring_senseLevel (level : Bool) {s : State} (hs : CellsWf Config.ringSlots s.ring) :
    CellsWf Config.ringSlots (senseLevel level s).ring := by
  unfold senseLevel
  split
  · exact cellsWf_writeCell_head hs _
  · exact hs

theorem cellsWf_ring_exec_p {i : Instr} {s t : State} (hi : agentOf i = .p) (hs : CellsWf Config.ringSlots s.ring)
    (h : exec i s = .next t) : CellsWf Config.ringSlots t.ring := by
  cases i <;> cases hi
  case tick =>
    cases h
    exact hs
  case sense level =>
    cases h
    exact cellsWf_ring_senseLevel level hs
  case edgeR | edgeF =>
    obtain ⟨-, rfl⟩ := whenEnabled_next.mp h
    exact cellsWf_ring_senseLevel _ hs
  case enc | push =>
    cases h
    exact cellsWf_writeCell_head hs _

/-! ## `BLK` -/

/-- An empty batch asks for no element of `BLK`. -/
theorem BatchInv.of_empty {t : State} (hwf : CellsWf Config.batchMax t.blk) (hcnt : t.cnt = 0) : BatchInv t :=
  ⟨hwf, fun _ => hcnt, fun i hi => absurd hi (by simp [hcnt])⟩

/-- `Q.POP` writes the element at `cnt`, which the batch then holds (43_session_framer.md R126). -/
theorem BatchInv.popSample {s : State} (hs : BatchInv s) (hactive : s.sess = .active) (hroom : s.cnt ≠ 255) :
    BatchInv (popSample s) := by
  have hcnt : s.cnt.toNat < Config.batchMax := by
    change s.cnt.toNat < 255
    bv_omega
  refine ⟨cellsWf_writeCell _ hs.wf hcnt, fun hidle => ?idle, fun i hi => ?written⟩
  case idle => exact absurd (hactive.symm.trans hidle) (by decide)
  case written =>
    rw [popSample_cnt_toNat hroom] at hi
    change (readCell (writeCell s.blk s.cnt.toNat _) i).isSome
    obtain hlt | rfl := Nat.lt_succ_iff_lt_or_eq.mp hi
    · rw [readCell_writeCell_other _ _ hlt.ne]
      exact hs.written i hlt
    · rw [readCell_writeCell_same]
      rfl

/-- `Q.FLUSH`, `Q.START` and `Q.TIMEOUT` leave an empty batch; `TAKE` and `Q.IDLE` do not touch it. -/
theorem BatchInv.exec_q {i : Instr} {s t : State} (hs : BatchInv s) (hi : agentOf i = .q) (h : exec i s = .next t) :
    BatchInv t := by
  cases i <;> cases hi
  all_goals obtain ⟨guard, rfl⟩ := whenEnabled_next.mp h
  case take | qIdle => exact ⟨hs.wf, hs.idle, hs.written⟩
  case qFlush | qStart | qTimeout => exact .of_empty hs.wf rfl
  case qPop =>
    simp only [Bool.and_eq_true, Bool.not_eq_true', isActive_iff] at guard
    obtain ⟨⟨hactive, -⟩, hroom⟩ := guard
    exact hs.popSample hactive fun hfull => absurd (batchFull_iff.mpr hfull) (by simp [hroom])

/-! ## `BUF` -/

/-- A record of H with at most 515 bytes is stored with `len` on written elements. -/
theorem bufferInv_withDecoder (s : State) {d : Decoder} (hlen : d.buf.length ≤ 515) (hwinN : d.winN.toNat ≤ 4) :
    BufferInv (withDecoder s d) := by
  have hcount : (withDecoder s d).len.toNat = d.buf.length := withDecoder_len_toNat s (by omega)
  refine ⟨cellsWf_cellsFrom d.buf 0 ?_, hcount.trans_le hlen, hwinN, fun i hi => ?_⟩
  · change 0 + d.buf.length ≤ 600
    omega
  · rw [withDecoder_buf, readCell_cellsFrom_zero, List.getElem?_eq_getElem (hcount ▸ hi)]
    rfl

/-- What arrives at H byte by byte: each `RX` ends with at most 515 bytes (44_decoder_resync.md R153). -/
theorem BufferInv.of_received {s t : State} (hs : BufferInv s) (bytes : List Byte)
    (h : onDecoder s (receiveBytes bytes) = .next t) : BufferInv t := by
  obtain ⟨-, rfl⟩ := onDecoder_next.mp h
  exact bufferInv_withDecoder s (receiveBytes_length_le bytes _ (by rw [decoderOf_buf_length]; exact hs.len))
    (receiveBytes_winN_le bytes _ hs.winN)

theorem BufferInv.exec_wire {i : Instr} {s t : State} (hs : BufferInv s) (hi : WireInstr i) (h : exec i s = .next t) :
    BufferInv t := by
  cases hi <;> exact hs.of_received _ h

/-! ## The operations that a step can issue -/

theorem agentOf_decodePins (sigQ level : Bool) : agentOf (decodePins sigQ level) = .p := by
  cases sigQ <;> cases level <;> rfl

theorem inv_exec_p {i : Instr} {s t : State} (hi : agentOf i = .p) (hs : Inv s) (h : exec i s = .next t) : Inv t := by
  obtain ⟨hring, hbatch, hbuffer⟩ := inv_iff.mp hs
  obtain ⟨⟨hq, -, hh, -⟩, -⟩ := exec_p hi h
  exact inv_iff.mpr ⟨cellsWf_ring_exec_p hi hring h, hbatch.of_sameQ hq, hbuffer.of_sameH hh⟩

theorem inv_exec_q {i : Instr} {s t : State} (hi : agentOf i = .q) (hs : Inv s) (h : exec i s = .next t) : Inv t := by
  obtain ⟨hring, hbatch, hbuffer⟩ := inv_iff.mp hs
  obtain ⟨⟨⟨-, -, -, -, -, hsame, -⟩, -, hh, -⟩, -⟩ := exec_q hi h
  exact inv_iff.mpr ⟨hsame ▸ hring, hbatch.exec_q hi h, hbuffer.of_sameH hh⟩

theorem inv_exec_s {i : Instr} {s t : State} (hi : agentOf i = .s) (hs : Inv s) (h : exec i s = .next t) : Inv t := by
  obtain ⟨hring, hbatch, hbuffer⟩ := inv_iff.mp hs
  obtain ⟨⟨-, -, -, -, -, hsame, -⟩, hq, hh, -⟩ := exec_s hi h
  exact inv_iff.mpr ⟨hsame ▸ hring, hbatch.of_sameQ hq, hbuffer.of_sameH hh⟩

/-- An operation of H keeps the invariant if it keeps H's part. A part of `RX` alone need not: `RX.APPEND` can leave
516 bytes. -/
theorem inv_exec_h {i : Instr} {s t : State} (hi : agentOf i = .h) (hs : Inv s) (ht : BufferInv s → BufferInv t)
    (h : exec i s = .next t) : Inv t := by
  obtain ⟨hring, hbatch, hbuffer⟩ := inv_iff.mp hs
  obtain ⟨⟨⟨-, -, -, -, -, hsame, -⟩, hq, -⟩, -⟩ := exec_h hi h
  exact inv_iff.mpr ⟨hsame ▸ hring, hbatch.of_sameQ hq, ht hbuffer⟩

/-- The invariant reads nothing of what `RESET` keeps. -/
theorem inv_exec_reset {s t : State} (h : exec .reset s = .next t) : Inv t := by
  cases h
  exact inv_reset

theorem inv_exec_of_issued {i : Instr} {s t : State} (hi : Issued s i) (hs : Inv s) (h : exec i s = .next t) : Inv t := by
  cases hi with
  | wire hwire => exact inv_exec_h (agentOf_of_wireInstr hwire) hs (fun hbuffer => hbuffer.exec_wire hwire h) h
  | pins level => exact inv_exec_p (agentOf_decodePins s.sigQ level) hs h
  | tick => exact inv_exec_p rfl hs h
  | reset => exact inv_exec_reset h
  | rx b => exact inv_exec_h rfl hs (fun hbuffer => hbuffer.of_received [b] h) h
  | sync x => exact inv_exec_s (agentOf_decodeSync x) hs h
  | guards => exact inv_exec_q (agentOf_decodeGuards _ _ _ _) hs h

/-- Settles O5: the operations that a step can issue keep the invariant, and it does not read what a fetch writes. -/
theorem stepKeepsInvariant : Obligations.StepKeepsInvariant := by
  unfold Obligations.StepKeepsInvariant
  intro s t hs h
  exact step_keeps (P := Inv) (fun _ _ _ hs => hs) (fun _ _ _ hi hs h => inv_exec_of_issued hi hs h) hs h

end Sys2Proof.Machine

/-! Proofs of the statements about the decoder and the encoder: what the bytes of a unit can be (30_encoding.md R67 to R76),
and that decoding and encoding undo each other. -/

namespace Sys2Proof.Machine

/-! ## The Sample word and its two bytes -/

/-- A Sample is its two fields, packed again (30_encoding.md R69). -/
theorem packSample_fields (w : Sample) : packSample (sampleDir w) (sampleDelay w) = w := by
  apply BitVec.eq_of_toNat_eq
  have hdir : (sampleDir w).toNat = w.toNat / 32768 := by
    have hw := w.isLt
    rw [sampleDir, BitVec.getLsbD, Nat.toNat_testBit]
    omega
  have hdelay : (sampleDelay w).toNat = w.toNat % 32768 := BitVec.toNat_setWidth ..
  rw [packSample_toNat, hdir, hdelay]
  omega

theorem joinBytes_toNat (lo hi : Byte) : (joinBytes lo hi).toNat = lo.toNat + 256 * hi.toNat := by
  have happend : joinBytes lo hi = hi ++ lo := by
    unfold joinBytes
    rw [BitVec.append_def, BitVec.shiftLeftZeroExtend_eq, BitVec.setWidth'_eq, BitVec.or_comm]
  rw [happend, BitVec.toNat_append, ← Nat.shiftLeft_add_eq_or_of_lt lo.isLt, Nat.shiftLeft_eq]
  omega

/-- A word joined from two bytes is sent as these bytes (20_memory.md R50). -/
theorem sampleBytes_joinBytes (lo hi : Byte) : sampleBytes (joinBytes lo hi) = [lo, hi] := by
  have hlo := lo.isLt
  rw [sampleBytes_eq_ofNat, joinBytes_toNat]
  have hlow : (lo.toNat + 256 * hi.toNat) % 256 = lo.toNat := by omega
  have hhigh : (lo.toNat + 256 * hi.toNat) / 256 = hi.toNat := by omega
  rw [hlow, hhigh, BitVec.ofNat_toNat, BitVec.ofNat_toNat, BitVec.setWidth_eq, BitVec.setWidth_eq]

theorem decodeSample_packSample (dir : Bool) (delay : Delay) :
    decodeSample (packSample dir delay) = if dir then .sampleR delay else .sampleF delay := by
  rw [decodeSample, sampleDir_packSample, sampleDelay_packSample]

/-- The row of a Sample word is encoded as the two bytes of the word. -/
theorem encode_decodeSample (w : Sample) : encode (decodeSample w) = .wire (sampleBytes w) := by
  unfold decodeSample
  split
  next hdir => rw [encode, ← hdir, packSample_fields]
  next hdir => rw [encode, ← Bool.eq_false_iff.mpr hdir, packSample_fields]

theorem wellFormed_decodeSample (w : Sample) : (decodeSample w).wellFormed = true := by
  unfold decodeSample
  split <;> rfl

theorem decodeWire_sampleBytes (w : Sample) : decodeWire (sampleBytes w) = .ok (decodeSample w) := by
  rw [sampleBytes, decodeWire, joinBytes_of_sample]

/-! ## The payload of a SampleBlock -/

/-- The payload of a block of COUNT `n` is `n` Samples, two bytes each (30_encoding.md R74). -/
theorem payloadSamples_of_length {n : Nat} {payload : List Byte} (h : payload.length = 2 * n) (rest : List Byte) :
    (payloadSamples n (payload ++ rest)).length = n ∧
      (payloadSamples n (payload ++ rest)).flatMap sampleBytes = payload := by
  induction n generalizing payload with
  | zero =>
    obtain rfl := List.length_eq_zero_iff.mp h
    exact ⟨rfl, rfl⟩
  | succ n ih =>
    match payload, h with
    | b0 :: b1 :: more, h =>
      obtain ⟨hcount, hbytes⟩ := ih (payload := more) (by simpa [Nat.mul_succ] using h)
      refine ⟨congrArg (· + 1) hcount, ?_⟩
      change sampleBytes (joinBytes b0 b1) ++ (payloadSamples n (more ++ rest)).flatMap sampleBytes = _
      rw [hbytes, sampleBytes_joinBytes]
      rfl

/-- The block of the Samples that a payload holds is that payload, framed. -/
theorem smpBytes_payloadSamples {n : Byte} {payload : List Byte} (h : payload.length = 2 * n.toNat) (rest : List Byte) :
    smpBytes (payloadSamples n.toNat (payload ++ rest)) =
      Config.startMarker ++ [Config.typeSmp, n] ++ payload ++ Config.endMarker := by
  obtain ⟨hcount, hbytes⟩ := payloadSamples_of_length h rest
  rw [smpBytes, hcount, hbytes, BitVec.ofNat_toNat, BitVec.setWidth_eq]

/-! ## The decoder on more than four bytes: START, then TYPE -/

/-- TYPE `02` to `FF` is no unit (30_encoding.md R82). -/
theorem decodeWire_of_reserved {type : Byte} (htype : 2 ≤ type.toNat) (par b : Byte) (rest : List Byte) :
    decodeWire (0x00 :: 0x00 :: type :: par :: b :: rest) = .error .reservedType := by
  have hhdr : type ≠ Config.typeHdr := by
    rintro rfl
    exact absurd htype (by decide)
  have hsmp : type ≠ Config.typeSmp := by
    rintro rfl
    exact absurd htype (by decide)
  simp [decodeWire, hhdr, hsmp]

/-- COUNT 0 is no unit, whatever the length and the end (30_encoding.md R83). -/
theorem decodeWire_of_count_zero (b : Byte) (rest : List Byte) :
    decodeWire (0x00 :: 0x00 :: 0x01 :: 0x00 :: b :: rest) = .error .countZero := rfl

/-- What follows COUNT `n` in a SampleBlock: `2n` payload bytes and END (30_encoding.md R74). -/
theorem decodeWire_block {n : Byte} {rest : List Byte} (hn : n ≠ 0) (hlength : rest.length = 2 * n.toNat + 2)
    (hend : rest.drop (2 * n.toNat) = Config.endMarker) :
    decodeWire (0x00 :: 0x00 :: 0x01 :: n :: rest) = .ok (.smp (payloadSamples n.toNat rest)) := by
  match rest, hlength with
  | b :: more, hlength =>
    change (if n = 0 then Except.error DecodeError.countZero else _) = _
    rw [if_neg hn, if_neg (not_not.mpr hlength), if_pos hend]

theorem decodeWire_smpBytes {samples : List Sample} (hone : 1 ≤ samples.length) (hmax : samples.length ≤ 255) :
    decodeWire (smpBytes samples) = .ok (.smp samples) := by
  have hcount := count_toNat hmax
  have hpayload := length_flatMap_sampleBytes samples
  have hbytes : smpBytes samples =
      0x00 :: 0x00 :: 0x01 :: BitVec.ofNat 8 samples.length :: (samples.flatMap sampleBytes ++ Config.endMarker) := by
    rw [smpBytes, List.append_assoc]
    rfl
  rw [hbytes, decodeWire_block (count_ne_zero hone hmax), hcount, payloadSamples_of_samples]
  · rw [List.length_append, hpayload, hcount]
    rfl
  · rw [hcount, ← hpayload, List.drop_left]

/-! ## The units -/

/-- The units of the wire: these bytes are the unit of this row (30_encoding.md R67). -/
inductive IsUnit : List Byte → Instr → Prop
  | sample (w : Sample) : IsUnit (sampleBytes w) (decodeSample w)
  | eos : IsUnit eosBytes .eos
  | hdr (v : Byte) : IsUnit (hdrBytes v) (.hdr v)
  | smp {samples : List Sample} (hone : 1 ≤ samples.length) (hmax : samples.length ≤ 255) :
      IsUnit (smpBytes samples) (.smp samples)

theorem isUnit_sample_of_bytes (lo hi : Byte) : IsUnit [lo, hi] (decodeSample (joinBytes lo hi)) := by
  have h := IsUnit.sample (joinBytes lo hi)
  rwa [sampleBytes_joinBytes] at h

/-- A block with payload and END where COUNT says is the block of its Samples. -/
theorem isUnit_smp_of_bytes {n : Byte} {rest : List Byte} (hn : n ≠ 0) (hlength : rest.length = 2 * n.toNat + 2)
    (hend : rest.drop (2 * n.toNat) = Config.endMarker) :
    IsUnit (0x00 :: 0x00 :: 0x01 :: n :: rest) (.smp (payloadSamples n.toNat rest)) := by
  have hsplit : rest.take (2 * n.toNat) ++ Config.endMarker = rest := by rw [← hend, List.take_append_drop]
  have hpayload : (rest.take (2 * n.toNat)).length = 2 * n.toNat := by
    rw [List.length_take, hlength]
    omega
  have hbytes := smpBytes_payloadSamples hpayload Config.endMarker
  obtain ⟨hcount, -⟩ := payloadSamples_of_length hpayload Config.endMarker
  rw [List.append_assoc, hsplit] at hbytes
  rw [hsplit] at hcount
  have hunit : IsUnit (smpBytes (payloadSamples n.toNat rest)) (.smp (payloadSamples n.toNat rest)) :=
    .smp (by rw [hcount]; bv_omega) (by rw [hcount]; bv_omega)
  rwa [hbytes] at hunit

/-- What the decoder reads as a unit is one. -/
theorem isUnit_of_decodeWire {bytes : List Byte} {i : Instr} (h : decodeWire bytes = .ok i) : IsUnit bytes i := by
  unfold decodeWire at h
  split at h
  case h_1 lo hi =>
    cases h
    exact isUnit_sample_of_bytes lo hi
  case h_2 b0 b1 b2 b3 =>
    split at h
    next heos =>
      cases h
      rw [heos]
      exact .eos
    next => cases h
  case h_3 b0 b1 type par rest _ =>
    split_ifs at h with hstart hhdr hlength hend hsmp hzero hlength hend
    · cases h
      obtain ⟨rfl, rfl⟩ := eq_startMarker.mp (not_not.mp hstart)
      rw [hhdr, hend]
      exact .hdr par
    · cases h
      obtain ⟨rfl, rfl⟩ := eq_startMarker.mp (not_not.mp hstart)
      rw [hsmp]
      exact isUnit_smp_of_bytes hzero (not_not.mp hlength) hend
  case h_4 => cases h

/-- Every unit is decoded to its row. -/
theorem decodeWire_of_isUnit {bytes : List Byte} {i : Instr} (h : IsUnit bytes i) : decodeWire bytes = .ok i := by
  cases h with
  | sample w => exact decodeWire_sampleBytes w
  | eos => rfl
  | hdr v => rfl
  | smp hone hmax => exact decodeWire_smpBytes hone hmax

/-- A unit's row is well-formed, and the unit is its encoding. -/
theorem encode_of_isUnit {bytes : List Byte} {i : Instr} (h : IsUnit bytes i) :
    encode i = .wire bytes ∧ i.wellFormed = true := by
  cases h with
  | sample w => exact ⟨encode_decodeSample w, wellFormed_decodeSample w⟩
  | eos => exact ⟨rfl, rfl⟩
  | hdr v => exact ⟨rfl, rfl⟩
  | smp hone hmax => exact ⟨rfl, (Laws.UnitLength.wellFormed_smp _).mpr ⟨hone, hmax⟩⟩

/-- The Sample of a direction and a delay is the unit of its row (30_encoding.md R68, R98). -/
theorem isUnit_packSample (dir : Bool) (delay : Delay) :
    IsUnit (sampleBytes (packSample dir delay)) (if dir then .sampleR delay else .sampleF delay) := by
  rw [← decodeSample_packSample]
  exact .sample _

/-! ## The statements -/

/-- Settles O14: a row with bytes is encoded as its unit, and the code of any other row is the condition that selects it. -/
theorem decodeOfEncodeIsTheOperation : Obligations.DecodeOfEncodeIsTheOperation := by
  unfold Obligations.DecodeOfEncodeIsTheOperation
  intro i hwf
  cases i
  case hdr v => exact decodeWire_of_isUnit (.hdr v)
  case smp samples =>
    obtain ⟨hone, hmax⟩ := (Laws.UnitLength.wellFormed_smp samples).mp hwf
    exact decodeWire_of_isUnit (.smp hone hmax)
  case eos => exact decodeWire_of_isUnit .eos
  case sampleR delay => exact decodeWire_of_isUnit (isUnit_packSample true delay)
  case sampleF delay => exact decodeWire_of_isUnit (isUnit_packSample false delay)
  case sense level => exact congrArg Except.ok (decodePins_same level)
  all_goals rfl

/-- Settles O15: bytes that decode are a unit, and a unit is the encoding of its row. -/
theorem aUnitsBytesAreItsEncoding : Obligations.AUnitsBytesAreItsEncoding := by
  unfold Obligations.AUnitsBytesAreItsEncoding
  intro bytes i h
  exact encode_of_isUnit (isUnit_of_decodeWire h)

/-- Settles O16: the decoder computes on each word. -/
theorem wordsOfTheSpecDecode : Obligations.WordsOfTheSpecDecode := by
  unfold Obligations.WordsOfTheSpecDecode
  and_intros <;> rfl

/-- Settles O17: TYPE and COUNT are looked at before the length and the end. -/
theorem reservedTypeAndZeroCountAreNoUnit : Obligations.ReservedTypeAndZeroCountAreNoUnit := by
  unfold Obligations.ReservedTypeAndZeroCountAreNoUnit
  intro type par b0 b1 rest
  exact ⟨fun htype => decodeWire_of_reserved htype par b0 (b1 :: rest), decodeWire_of_count_zero b0 (b1 :: rest)⟩

end Sys2Proof.Machine

/-! Proofs of the statements about which operations complete: a step always has a next state (60_exceptions.md R161), the
model's one fault is H's (log 12), and `RESET` (logs 8, 9, 17). -/

namespace Sys2Proof.Machine

/-! ## The operations of H -/

/-- While `BUF` holds no more than it can, what arrives at H is received. -/
theorem exists_next_of_wire {i : Instr} {s : State} (hi : WireInstr i) (hlen : s.len.toNat ≤ 600) :
    ∃ t, exec i s = .next t := by
  cases hi <;> exact ⟨_, onDecoder_of_le _ hlen⟩

theorem execRxWait_of_gt {s : State} (h : 600 < s.len.toNat) : execRxWait s = .fault .bufIndexOutOfRange :=
  if_neg (Nat.not_le_of_lt h)

theorem execRxWait_of_le {s : State} (h : s.len.toNat ≤ 600) :
    execRxWait s = whenEnabled (classify s.started (decoderOf s).buf == .wait) s := if_pos h

/-- Beyond `DEC_BUF` bytes every operation of H would name an element of `BUF` that does not exist (20_memory.md R49). -/
theorem exec_h_of_gt {i : Instr} {s : State} (hi : agentOf i = .h) (h : 600 < s.len.toNat) :
    exec i s = .fault .bufIndexOutOfRange := by
  cases i <;> cases hi
  case rxHdr | rxSmp | rxFail => exact onCandidate_of_gt _ _ h
  case rxWait => exact execRxWait_of_gt h
  all_goals exact onDecoder_of_gt _ h

/-! ## No fault -/

theorem whenEnabled_ne_fault (guard : Bool) (t : State) (r : Fault) : whenEnabled guard t ≠ .fault r := by
  cases guard <;> nofun

theorem onDecoder_ne_fault {s : State} (f : Decoder → Decoder) (h : s.len.toNat ≤ 600) (r : Fault) :
    onDecoder s f ≠ .fault r := by
  rw [onDecoder_of_le f h]
  nofun

theorem onCandidate_ne_fault {s : State} (p : Part) (f : Decoder → Decoder) (h : s.len.toNat ≤ 600) (r : Fault) :
    onCandidate s p f ≠ .fault r := by
  rw [onCandidate_of_le p f h]
  exact whenEnabled_ne_fault _ _ r

theorem execRxWait_ne_fault {s : State} (h : s.len.toNat ≤ 600) (r : Fault) : execRxWait s ≠ .fault r := by
  rw [execRxWait_of_le h]
  exact whenEnabled_ne_fault _ _ r

/-- Within `DEC_BUF` bytes an operation of H completes, or is a part of `RX` that the front of `BUF` does not select. -/
theorem exec_h_ne_fault_of_le {i : Instr} {s : State} (hi : agentOf i = .h) (h : s.len.toNat ≤ 600) (r : Fault) :
    exec i s ≠ .fault r := by
  cases i <;> cases hi
  case rxHdr | rxSmp | rxFail => exact onCandidate_ne_fault _ _ h r
  case rxWait => exact execRxWait_ne_fault h r
  all_goals exact onDecoder_ne_fault _ h r

/-- An operation of another agent completes or is not enabled. -/
theorem exec_ne_fault_of_not_h {i : Instr} (s : State) (hi : agentOf i ≠ .h) (r : Fault) : exec i s ≠ .fault r := by
  cases i
  case edgeR | edgeF | take | qFlush | qStart | qPop | qTimeout | qIdle => exact whenEnabled_ne_fault _ _ r
  case tick | sense | enc | push | syncHead | syncDrop | syncTs | syncRd | reset => nofun
  all_goals exact absurd rfl hi

/-- Settles O13, by the agent whose operation it is. -/
theorem decoderFaultsOnlyBeyondItsBuffer : Obligations.DecoderFaultsOnlyBeyondItsBuffer := by
  unfold Obligations.DecoderFaultsOnlyBeyondItsBuffer
  intro i s
  refine ⟨exec_h_of_gt, fun hlen => ?_, fun hi => exec_ne_fault_of_not_h s hi _⟩
  by_cases hi : agentOf i = .h
  · exact exec_h_ne_fault_of_le hi hlen _
  · exact exec_ne_fault_of_not_h s hi _

/-! ## A step always has a next state -/

/-- One of the five operations of Q is always enabled (43_session_framer.md R123). -/
theorem exists_enabled_of_q (s : State) :
    ∃ i ∈ [Instr.qFlush, .qStart, .qPop, .qTimeout, .qIdle], ∃ t, exec i s = .next t := by
  by_cases hsees : tailR s = s.headR
  case neg =>
    cases hsess : s.sess
    case idle => exact ⟨.qStart, by simp, _, exec_qStart_of_nonempty hsess hsees⟩
    case active =>
      by_cases hfull : s.cnt = 255
      · exact ⟨.qFlush, by simp, _, exec_qFlush_of_full hsess hfull⟩
      · exact ⟨.qPop, by simp, _, exec_qPop_of_nonempty hsess hsees hfull⟩
  case pos =>
    cases hsess : s.sess
    case idle =>
      refine ⟨.qIdle, by simp, _, exec_qIdle_of_quiet hsees fun hactive => ?_⟩
      exact absurd (hsess.symm.trans hactive) (by decide)
    case active =>
      by_cases hfull : s.cnt = 255
      · exact ⟨.qFlush, by simp, _, exec_qFlush_of_full hsess hfull⟩
      cases hexpired : expired s
      · exact ⟨.qIdle, by simp, _, exec_qIdle_of_quiet hsees fun _ => ⟨hfull, hexpired⟩⟩
      · exact ⟨.qTimeout, by simp, _, exec_qTimeout_of_expired hsess hsees hexpired hfull⟩

/-- The operation that the guards of Q select is enabled. -/
theorem exists_next_of_guards (s : State) :
    ∃ t, exec (decodeGuards (isActive s) (batchFull s) (nonemptyR s) (expired s)) s = .next t := by
  obtain ⟨i, hi, t, ht⟩ := exists_enabled_of_q s
  rw [decodeGuards_of_enabled hi ht]
  exact ⟨t, ht⟩

/-- Every operation that a step can issue completes, while `BUF` holds no more than it can. -/
theorem exists_next_of_issued {i : Instr} {s : State} (hi : Issued s i) (hlen : s.len.toNat ≤ 600) :
    ∃ t, exec i s = .next t := by
  cases hi with
  | wire hwire => exact exists_next_of_wire hwire hlen
  | pins level => exact ⟨_, exec_decodePins level s⟩
  | tick => exact ⟨_, exec_tick s⟩
  | reset => exact ⟨_, exec_reset s⟩
  | rx b => exact ⟨_, onDecoder_of_le _ hlen⟩
  | sync x => cases x <;> exact ⟨_, rfl⟩
  | guards => exact exists_next_of_guards s

/-- Settles O6: the operation issued completes, and a fetch leaves `len` as it is. -/
theorem everyStepAnswersANextState : Obligations.EveryStepAnswersANextState := by
  unfold Obligations.EveryStepAnswersANextState
  intro s hlen
  obtain ⟨ins, n, hstate, hissued⟩ := issue_cases s
  exact exists_next_of_issued hissued (by rw [hstate]; exact hlen)

/-! ## `RESET` -/

/-- Settles O3: nothing is listed in an array of `State.reset`, and the model's own fields are those of before. -/
theorem resetForgetsTheArraysAndKeepsTheEnvironment : Obligations.ResetForgetsTheArraysAndKeepsTheEnvironment := by
  unfold Obligations.ResetForgetsTheArraysAndKeepsTheEnvironment
  intro s
  exact ⟨_, exec_reset s, fun _ => ⟨rfl, rfl, rfl⟩, rfl, rfl, exec_reset_env (exec_reset s)⟩

end Sys2Proof.Machine

/-! Proofs of the statements about `RX` as a whole: which part looks at a candidate (44_decoder_resync.md R145), `RX` as its
parts in order (R152), the sentinel before any block (R143), and a wire unit as one `RX` for each of its bytes
(30_encoding.md R67). -/

namespace Sys2Proof.Machine

/-! ## The part that looks at a candidate -/

/-- The operations that look at a candidate, each with the part that selects it (44_decoder_resync.md R147 to R150). -/
inductive PartOp : Instr → Part → Prop
  | hdr : PartOp .rxHdr .hdr
  | smp : PartOp .rxSmp .smp
  | wait : PartOp .rxWait .wait
  | fail : PartOp .rxFail .fail

theorem mem_of_partOp {i : Instr} {p : Part} (h : PartOp i p) : i ∈ [Instr.rxHdr, .rxSmp, .rxWait, .rxFail] := by
  cases h <;> simp

theorem exists_partOp_of_mem {i : Instr} (h : i ∈ [Instr.rxHdr, .rxSmp, .rxWait, .rxFail]) : ∃ p, PartOp i p := by
  simp only [List.mem_cons, List.not_mem_nil, or_false] at h
  rcases h with rfl | rfl | rfl | rfl
  · exact ⟨_, .hdr⟩
  · exact ⟨_, .smp⟩
  · exact ⟨_, .wait⟩
  · exact ⟨_, .fail⟩

/-- Two operations that one part selects are the same. -/
theorem partOp_unique {i j : Instr} {p : Part} (hi : PartOp i p) (hj : PartOp j p) : i = j := by
  cases hi <;> cases hj <;> rfl

/-- An operation that looks at a candidate is enabled exactly when the front of `BUF` selects it. -/
theorem exec_partOp {i : Instr} {p : Part} {s : State} (hi : PartOp i p) (hlen : s.len.toNat ≤ 600) :
    ∃ t, exec i s = whenEnabled (classify s.started (decoderOf s).buf == p) t := by
  cases hi
  case wait => exact ⟨_, execRxWait_of_le hlen⟩
  all_goals exact ⟨_, onCandidate_of_le _ _ hlen⟩

/-- A candidate of six bytes or more is neither slid nor too short (44_decoder_resync.md R144, R145). -/
theorem exists_partOp_of_candidate (started : Bool) {buf : List Byte} (h : Candidate buf) :
    ∃ i, PartOp i (classify started buf) := by
  obtain ⟨hsix, hstart⟩ := h
  have hselected := selectedBy_classify started buf
  cases hpart : classify started buf
  case slide =>
    rw [hpart] at hselected
    exact absurd (hselected.2.symm.trans (beginsStart_of_start_prefix hstart)) (by decide)
  case short =>
    rw [hpart] at hselected
    exact absurd hsix (Nat.not_le_of_lt hselected)
  case hdr => exact ⟨_, .hdr⟩
  case smp => exact ⟨_, .smp⟩
  case wait => exact ⟨_, .wait⟩
  case fail => exact ⟨_, .fail⟩

/-- Settles O49: one part is selected, and each of the other operations needs another one. -/
theorem exactlyOnePartApplies : Obligations.ExactlyOnePartApplies := by
  unfold Obligations.ExactlyOnePartApplies
  intro rest s hlen hfront hfour
  have hcandidate : Candidate (decoderOf s).buf := by
    rw [hfront]
    exact ⟨by simp; omega, rest, rfl⟩
  obtain ⟨i, hi⟩ := exists_partOp_of_candidate s.started hcandidate
  obtain ⟨t, ht⟩ := exec_partOp hi hlen
  rw [beq_self_eq_true, whenEnabled_true] at ht
  refine ⟨i, mem_of_partOp hi, ⟨t, ht⟩, fun j hj hne => ?_⟩
  obtain ⟨p, hp⟩ := exists_partOp_of_mem hj
  obtain ⟨u, hu⟩ := exec_partOp hp hlen
  rw [hu]
  refine whenEnabled_of_eq_false u (beq_eq_false_iff_ne.mpr ?_)
  rintro rfl
  exact hne (partOp_unique hp hi)

/-! ## The parts of the loop -/

/-- The parts that change H's record after the sentinel test (44_decoder_resync.md R146). -/
abbrev LoopParts (parts : List Instr) : Prop := ∀ i ∈ parts, i ∈ [Instr.rxSlide, .rxHdr, .rxSmp, .rxFail]

/-- From an H with the record `d` a run of enabled parts leads to the record `e`. -/
def PartsLead (s : State) (d e : Decoder) : Prop :=
  ∃ parts, LoopParts parts ∧ execAll parts (withDecoder s d) = .next (withDecoder s e)

theorem partsLead_refl (s : State) (d : Decoder) : PartsLead s d d := ⟨[], by simp [LoopParts], rfl⟩

theorem PartsLead.cons {s : State} {d e f : Decoder} {i : Instr} (hi : i ∈ [Instr.rxSlide, .rxHdr, .rxSmp, .rxFail])
    (hexec : exec i (withDecoder s d) = .next (withDecoder s e)) (h : PartsLead s e f) : PartsLead s d f := by
  obtain ⟨parts, hparts, hrun⟩ := h
  exact ⟨i :: parts, List.forall_mem_cons.mpr ⟨hi, hparts⟩, (execAll_cons_of_next parts hexec).trans hrun⟩

theorem withDecoder_len_le (s : State) {d : Decoder} (h : d.buf.length ≤ 600) :
    (withDecoder s d).len.toNat ≤ 600 :=
  (buf_withDecoder s h).2.trans_le h

theorem exec_rxSlide_withDecoder (s : State) {d : Decoder} (h : d.buf.length ≤ 600) :
    exec .rxSlide (withDecoder s d) = .next (withDecoder s (slidePart d)) := by
  have hexec := onDecoder_of_le slidePart (withDecoder_len_le s h)
  rwa [decoderOf_withDecoder s (by omega)] at hexec

/-- A part that the record selects does to it what the loop does. -/
theorem onCandidate_withDecoder (s : State) {d : Decoder} {p : Part} (f : Decoder → Decoder) (h : d.buf.length ≤ 600)
    (hsel : classify d.started d.buf = p) : onCandidate (withDecoder s d) p f = .next (withDecoder s (f d)) := by
  have hd := decoderOf_withDecoder s (d := d) (by omega)
  refine onCandidate_next.mpr ⟨withDecoder_len_le s h, ?_, ?_⟩
  · rw [hd]
    exact hsel
  · rw [hd, withDecoder_withDecoder]

/-- The loop of R146 is a run of its parts: each turn slides, and goes round with the part selected or stops. -/
theorem partsLead_resyncLoop (turns : Nat) (s : State) {d : Decoder} (h : d.buf.length ≤ 600) :
    PartsLead s d (resyncLoop turns d) := by
  induction turns generalizing d with
  | zero => exact partsLead_refl s d
  | succ turns ih =>
    have hslid : (slidePart d).buf.length ≤ 600 := (List.drop_sublist ..).length_le.trans h
    refine PartsLead.cons (by simp) (exec_rxSlide_withDecoder s h) ?_
    simp only [resyncLoop]
    split
    next => exact partsLead_refl s _
    next => exact partsLead_refl s _
    next => exact partsLead_refl s _
    next hsel =>
      exact .cons (i := .rxHdr) (by simp) (onCandidate_withDecoder s acceptHeader hslid hsel)
        (ih ((List.drop_sublist ..).length_le.trans hslid))
    next hsel =>
      exact .cons (i := .rxSmp) (by simp) (onCandidate_withDecoder s acceptSamples hslid hsel)
        (ih ((List.drop_sublist ..).length_le.trans hslid))
    next hsel =>
      exact .cons (i := .rxFail) (by simp) (onCandidate_withDecoder s failCandidate hslid hsel)
        (ih ((List.drop_sublist ..).length_le.trans hslid))

/-! ## `RX` as its parts -/

theorem exec_rx_of_le (b : Byte) {s : State} (h : s.len.toNat ≤ 600) :
    exec (.rx b) s = .next (withDecoder s (receiveByte b (decoderOf s))) := onDecoder_of_le _ h

/-- `RX.APPEND`, then `RX.EOS`. -/
theorem execAll_append_eos (b : Byte) {s : State} (h : s.len.toNat ≤ 600) :
    execAll [.rxAppend b, .rxEos b] s = .next (withDecoder s (sentinelPart b (appendByte b (decoderOf s)))) := by
  have happend : exec (.rxAppend b) s = .next (withDecoder s (appendByte b (decoderOf s))) := onDecoder_of_le _ h
  have hlen : (appendByte b (decoderOf s)).buf.length ≤ 600 := appendByte_length_le (by rwa [decoderOf_buf_length])
  have heos := onDecoder_of_le (sentinelPart b) (withDecoder_len_le s hlen)
  rw [decoderOf_withDecoder s (by omega), withDecoder_withDecoder] at heos
  rw [execAll_cons_of_next _ happend]
  exact execAll_cons_of_next [] heos

/-- A shift counts the byte, so the window is not empty after it. -/
theorem shiftWindow_winN_ne_zero (b : Byte) (d : Decoder) : (shiftWindow b d).winN ≠ 0 := by
  rw [shiftWindow_winN]
  intro hzero
  have hnat := congrArg BitVec.toNat hzero
  rw [BitVec.toNat_ofNat, Nat.mod_eq_of_lt (by omega)] at hnat
  change min (d.winN.toNat + 1) 4 = 0 at hnat
  omega

/-- Settles O50: on a match `RX.EOS` is the end of `RX`, and otherwise the loop follows it, as a run of its parts. -/
theorem receiveIsItsPartsInOrder : Obligations.ReceiveIsItsPartsInOrder := by
  unfold Obligations.ReceiveIsItsPartsInOrder
  intro b s hlen
  have hfront := execAll_append_eos b hlen
  have hrx := exec_rx_of_le b hlen
  by_cases hseen : sentinelSeen (shiftWindow b (appendByte b (decoderOf s))) = true
  case pos =>
    have hpart : sentinelPart b (appendByte b (decoderOf s)) = receiveByte b (decoderOf s) :=
      (if_pos hseen).trans (receiveByte_of_sentinel hseen).symm
    rw [hpart] at hfront
    have hzero : (receiveByte b (decoderOf s)).winN = 0 := by
      rw [receiveByte_of_sentinel hseen]
      rfl
    exact ⟨_, _, [], hfront, hrx, rfl, by simp, fun _ => rfl, fun hne => absurd hzero hne⟩
  case neg =>
    have hpart : sentinelPart b (appendByte b (decoderOf s)) = shiftWindow b (appendByte b (decoderOf s)) :=
      if_neg hseen
    have happend : (appendByte b (decoderOf s)).buf.length ≤ 600 := appendByte_length_le (by rwa [decoderOf_buf_length])
    have hheld := receiveByte_length_le b (decoderOf s)
    obtain ⟨parts, hparts, hrun⟩ := partsLead_resyncLoop ((appendByte b (decoderOf s)).buf.length + 1) s
      (d := shiftWindow b (appendByte b (decoderOf s))) happend
    rw [hpart] at hfront
    rw [← receiveByte_of_not hseen] at hrun
    refine ⟨_, _, parts, hfront, hrx, hrun, hparts, fun hzero => absurd hzero (shiftWindow_winN_ne_zero b _),
      fun _ => ?_⟩
    rw [decoderOf_withDecoder s (by omega), receiveByte_of_not hseen]
    exact resyncLoop_settled _ _ (Nat.lt_succ_self _)

/-! ## The sentinel comes first -/

/-- Settles O52: the byte completes the sentinel, and with it goes into the residue. -/
theorem sentinelBeatsTheBlockItCompletes : Obligations.SentinelBeatsTheBlockItCompletes := by
  unfold Obligations.SentinelBeatsTheBlockItCompletes
  intro s hlen hcount hw1 hw2 hw3
  have hroom : (decoderOf s).buf.length ≠ 600 := by
    rw [decoderOf_buf_length]
    omega
  have hseen : sentinelSeen (shiftWindow 0x80 (appendByte 0x80 (decoderOf s))) = true := by
    rw [sentinelSeen_appendByte]
    exact sentinelSeen_shiftWindow.mpr ⟨hcount, hw1, hw2, hw3, rfl⟩
  have hend := receiveByte_of_sentinel hseen
  rw [appendByte_of_room hroom] at hend
  obtain ⟨hexec, hframe⟩ := onDecoder_reaches hlen.le hend
  refine ⟨_, hexec, hframe, (List.append_assoc ..).symm, ?_, rfl, rfl, rfl, rfl⟩
  simp

/-! ## A wire unit, byte by byte -/

/-- Bytes that arrive one after another within one operation are one `RX` each (30_encoding.md R67; log 3). -/
theorem received_as_rx {i : Instr} {bytes : List Byte} {s : State} (hlen : s.len.toNat ≤ 515) (hne : bytes ≠ [])
    (hi : exec i s = onDecoder s (receiveBytes bytes)) :
    ∃ t, exec i s = .next t ∧ execAll (bytes.map .rx) s = .next t ∧ OnlyH s t ∧ t.len.toNat ≤ 515 := by
  obtain ⟨b, bs, rfl⟩ := List.exists_cons_of_ne_nil hne
  have hheld := receiveBytes_length_le (b :: bs) (decoderOf s) (by rwa [decoderOf_buf_length])
  obtain ⟨hexec, hframe⟩ := onDecoder_reaches (f := receiveBytes (b :: bs)) (hlen.trans (by decide)) rfl
  refine ⟨_, hi.trans hexec, execAll_rx b bs s (hlen.trans (by decide)), hframe, ?_⟩
  rwa [withDecoder_len_toNat s (by omega)]

/-- The bytes of a packed Sample: the low byte of the delay, then the direction above its high bits
(30_encoding.md R69, R70). -/
theorem sampleBytes_packSample (dir : Bool) (delay : Delay) :
    sampleBytes (packSample dir delay) =
      [delay.setWidth 8, (BitVec.ofBool dir).setWidth 8 <<< 7 ||| (delay >>> 8).setWidth 8] := by
  have hlow : (packSample dir delay).setWidth 8 = delay.setWidth 8 := by
    apply BitVec.eq_of_toNat_eq
    rw [BitVec.toNat_setWidth, BitVec.toNat_setWidth, packSample_toNat]
    omega
  have hhigh : (packSample dir delay >>> 8).setWidth 8 =
      (BitVec.ofBool dir).setWidth 8 <<< 7 ||| (delay >>> 8).setWidth 8 := by
    rw [packSample_eq_append]
    refine BitVec.eq_of_getLsbD_eq fun i hi => ?_
    simp only [BitVec.getLsbD_setWidth, BitVec.getLsbD_ushiftRight, BitVec.getLsbD_append, BitVec.getLsbD_or,
      BitVec.getLsbD_shiftLeft]
    by_cases hdelay : i < 7
    · have hbit : 8 + i < 15 := by omega
      simp [hi, hdelay, hbit]
    · obtain rfl : i = 7 := by omega
      simp
  rw [sampleBytes, hlow, hhigh]

theorem sampleBytes_rising (delay : Delay) :
    sampleBytes (packSample true delay) = [delay.setWidth 8, 0x80 ||| (delay >>> 8).setWidth 8] :=
  sampleBytes_packSample true delay

theorem sampleBytes_falling (delay : Delay) :
    sampleBytes (packSample false delay) = [delay.setWidth 8, (delay >>> 8).setWidth 8] := by
  have hzero : (BitVec.ofBool false).setWidth 8 <<< 7 ||| (delay >>> 8).setWidth 8 = (delay >>> 8).setWidth 8 :=
    BitVec.zero_or
  rw [sampleBytes_packSample, hzero]

/-- Settles O54: each row is the arrival of the bytes that the spec writes out for it. -/
theorem wireUnitsAreOneReceiveForEachByte : Obligations.WireUnitsAreOneReceiveForEachByte := by
  unfold Obligations.WireUnitsAreOneReceiveForEachByte
  intro v samples delay s hlen i bytes hrow
  simp only [List.mem_cons, List.not_mem_nil, or_false, Prod.mk.injEq] at hrow
  rcases hrow with ⟨rfl, rfl⟩ | ⟨rfl, rfl⟩ | ⟨rfl, rfl⟩ | ⟨rfl, rfl⟩ | ⟨rfl, rfl⟩
  · exact received_as_rx hlen (by simp) rfl
  · exact received_as_rx hlen (by simp) rfl
  · exact received_as_rx hlen (by simp) rfl
  · rw [← sampleBytes_rising]
    exact received_as_rx hlen (by simp [sampleBytes]) rfl
  · rw [← sampleBytes_falling]
    exact received_as_rx hlen (by simp [sampleBytes]) rfl

end Sys2Proof.Machine
